-- ==== Sys2Proof/Word.lean ====
section
/-! DEFINITION. The widths of the hardware: bytes, command words and 32-bit operands (00_scope.md R8, R11;
30_encoding.md R90). -/

namespace Sys2Proof

/-- A byte of buffer memory or of the wire. -/
abbrev Byte := BitVec 8

/-- A command word: `WORD` is 16 bits (00_scope.md R8); also the type u16, and the raw bits of an s16. -/
abbrev Word := BitVec 16

/-- A 32-bit operand (u32), and the 32 bits of a result register (10_state.md R22). -/
abbrev DWord := BitVec 32

end Sys2Proof
end

