-- ==== Sys2Proof/Syntax.lean ====
section
/-! DEFINITION. The abstract syntax of the 29 operations (30_encoding.md R96): one constructor of `Instr` for each row of
spec/opcode_table.json, with its operands in descriptor order. An s16 operand is held as its raw 16 bits; its value is
read by `Machine.sext16`. -/

namespace Sys2Proof

/-- A rotation record: "tuple `(madctl, width, height, colstart, rowstart)`" of five u16 fields (10_state.md R41). -/
structure RotRec where
  madctl   : Word
  width    : Word
  height   : Word
  colstart : Word
  rowstart : Word
deriving DecidableEq, Repr

/-- The seven flag bits of a `CONFIG` header, bit 0 first (30_encoding.md R99). -/
structure ConfigFlags where
  cs  : Bool
  rst : Bool
  bl  : Bool
  dc  : Bool
  bgr : Bool
  inv : Bool
  ci  : Bool
deriving DecidableEq, Repr

/-- The 29 legal opcodes (30_encoding.md R96), in the table's order. -/
inductive Opcode where
  | writeCmd | setWindow | fillBuf
  | pixel | hline | vline | rect | fillRect | fill | line | blit | mapbits
  | rotation | offset | madctlGet | madctlSet | boundingGet | boundingSet
  | config | init | hardReset | softReset | sleepMode | inversionMode | on | off | vscrdef | vscsad
  | color565
deriving DecidableEq, Repr

/-- The operations with their operands (30_encoding.md R96, R99). -/
inductive Instr where
  /-- `WRITE_CMD cmd, addr, len` (R122) -/
  | writeCmd (cmd : Byte) (addr len : DWord)
  /-- `SET_WINDOW x0, y0, x1, y1` (R124) -/
  | setWindow (x0 y0 x1 y1 : Word)
  /-- `FILL_BUF color, n` (R128) -/
  | fillBuf (color : Word) (n : DWord)
  /-- `PIXEL x, y, color` (R141) -/
  | pixel (x y color : Word)
  /-- `HLINE x, y, w, color` (R143) -/
  | hline (x y w color : Word)
  /-- `VLINE x, y, h, color` (R145) -/
  | vline (x y h color : Word)
  /-- `RECT x, y, w, h, color` (R146) -/
  | rect (x y w h color : Word)
  /-- `FILL_RECT x, y, w, h, color` (R147) -/
  | fillRect (x y w h color : Word)
  /-- `FILL color` (R148) -/
  | fill (color : Word)
  /-- `LINE x0, y0, x1, y1, color` (R161) -/
  | line (x0 y0 x1 y1 color : Word)
  /-- `BLIT addr, len, x, y, w, h` (R171) -/
  | blit (addr len : DWord) (x y w h : Word)
  /-- `MAPBITS src, srclen, dst, dstcap, width, fg, bg` (R173) -/
  | mapbits (src srclen dst dstcap : DWord) (width fg bg : Word)
  /-- `ROTATION value` (R183) -/
  | rotation (value : Byte)
  /-- `OFFSET col, row` (R185) -/
  | offset (col row : Word)
  /-- `MADCTL_GET` (R186) -/
  | madctlGet
  /-- `MADCTL_SET value` (R187) -/
  | madctlSet (value : Word)
  /-- `BOUNDING_GET as_size` (R188) -/
  | boundingGet (asSize : Bool)
  /-- `BOUNDING_SET as_size, enable` (R189) -/
  | boundingSet (asSize enable : Bool)
  /-- `CONFIG` (R99, R201): `table` holds the records that follow the nine fixed operand words -/
  | config (flags : ConfigFlags) (displayWidth displayHeight rotation options nrec : Word)
      (ciAddr ciLen : DWord) (table : List RotRec)
  /-- `INIT` (R206) -/
  | init
  /-- `HARD_RESET` (R203) -/
  | hardReset
  /-- `SOFT_RESET` (R204) -/
  | softReset
  /-- `SLEEP_MODE on` (R207) -/
  | sleepMode (on : Bool)
  /-- `INVERSION_MODE on` (R208) -/
  | inversionMode (on : Bool)
  /-- `ON` (R209) -/
  | on
  /-- `OFF` (R210) -/
  | off
  /-- `VSCRDEF tfa, vsa, bfa` (R211) -/
  | vscrdef (tfa vsa bfa : Word)
  /-- `VSCSAD vssa` (R212) -/
  | vscsad (vssa : Word)
  /-- `COLOR565 r, g, b` (R231) -/
  | color565 (r g b : Word)
deriving DecidableEq, Repr

end Sys2Proof
end

