-- ==== Sys2Proof/WellFormed.lean ====
section
/-! DEFINITION. Well-formed instructions. Every operand's range is in its type, so the one relation between operands is
that of `CONFIG` (30_encoding.md R99): a caller-supplied table has exactly `nrec` records, and a descriptor with
`nrec > 255` is taken as ten words and has none (log entry 16). -/

namespace Sys2Proof

/-- The table of a `CONFIG` descriptor agrees with its `nrec` word (R99). -/
def tableMatches (nrec : Word) (table : List RotRec) : Bool :=
  if nrec.toNat ≤ 255 then table.length == nrec.toNat else table.isEmpty

/-- The instructions that have a descriptor. -/
def Instr.wellFormed : Instr → Bool
  | .writeCmd _ _ _ => true
  | .setWindow _ _ _ _ => true
  | .fillBuf _ _ => true
  | .pixel _ _ _ => true
  | .hline _ _ _ _ => true
  | .vline _ _ _ _ => true
  | .rect _ _ _ _ _ => true
  | .fillRect _ _ _ _ _ => true
  | .fill _ => true
  | .line _ _ _ _ _ => true
  | .blit _ _ _ _ _ _ => true
  | .mapbits _ _ _ _ _ _ _ => true
  | .rotation _ => true
  | .offset _ _ => true
  | .madctlGet => true
  | .madctlSet _ => true
  | .boundingGet _ => true
  | .boundingSet _ _ => true
  | .config _ _ _ _ _ nrec _ _ table => tableMatches nrec table
  | .init => true
  | .hardReset => true
  | .softReset => true
  | .sleepMode _ => true
  | .inversionMode _ => true
  | .on => true
  | .off => true
  | .vscrdef _ _ _ => true
  | .vscsad _ => true
  | .color565 _ _ _ => true

end Sys2Proof
end

