-- ==== Sys2Proof/Decode.lean ====
section
/-! DEFINITION. The decoder, total on any list of command words, and the encoder (30_encoding.md R90 to R99). Below them
`decodeTableWord` reads an instruction numbered as spec/opcode_table.json numbers its bits. -/

namespace Sys2Proof

/-! ## Fields of words -/

/-- `op`, bits 15:8 of a header word (R90). -/
def headerOp (h : Word) : Byte := h.extractLsb' 8 8

/-- `f`, bits 7:0 of a header word (R90). -/
def headerImm (h : Word) : Byte := h.extractLsb' 0 8

/-- A header word from its two fields. -/
def header (op f : Byte) : Word := op ++ f

/-- `u32(hi, lo) = hi * 65536 + lo` (00_scope.md R11). -/
def joinWords (hi lo : Word) : DWord := hi ++ lo

/-- The most significant word of a 32-bit operand, sent first (R11). -/
def highWord (v : DWord) : Word := v.extractLsb' 16 16

/-- The least significant word of a 32-bit operand. -/
def lowWord (v : DWord) : Word := v.extractLsb' 0 16

/-! ## The opcode map -/

/-- Every opcode, in the table's order (R96). -/
def Opcode.all : List Opcode :=
  [.writeCmd, .setWindow, .fillBuf,
    .pixel, .hline, .vline, .rect, .fillRect, .fill, .line, .blit, .mapbits,
    .rotation, .offset, .madctlGet, .madctlSet, .boundingGet, .boundingSet,
    .config, .init, .hardReset, .softReset, .sleepMode, .inversionMode, .on, .off, .vscrdef, .vscsad,
    .color565]

/-- The `op` field of each operation (R96). -/
def Opcode.code : Opcode → Byte
  | .writeCmd => 0x10 | .setWindow => 0x11 | .fillBuf => 0x12
  | .pixel => 0x20 | .hline => 0x21 | .vline => 0x22 | .rect => 0x23 | .fillRect => 0x24 | .fill => 0x25
  | .line => 0x26 | .blit => 0x27 | .mapbits => 0x28
  | .rotation => 0x30 | .offset => 0x31 | .madctlGet => 0x32 | .madctlSet => 0x33
  | .boundingGet => 0x34 | .boundingSet => 0x35
  | .config => 0x40 | .init => 0x41 | .hardReset => 0x42 | .softReset => 0x43 | .sleepMode => 0x44
  | .inversionMode => 0x45 | .on => 0x46 | .off => 0x47 | .vscrdef => 0x48 | .vscsad => 0x49
  | .color565 => 0x50

/-- The bits of `f` the operation uses; every other bit of `f` is reserved and must be 0 (R93, R96, R99). -/
def Opcode.usedBits : Opcode → Byte
  | .writeCmd => 0xFF | .setWindow => 0 | .fillBuf => 0
  | .pixel => 0 | .hline => 0 | .vline => 0 | .rect => 0 | .fillRect => 0 | .fill => 0
  | .line => 0 | .blit => 0 | .mapbits => 0
  | .rotation => 0xFF | .offset => 0 | .madctlGet => 0 | .madctlSet => 0
  | .boundingGet => 0x01 | .boundingSet => 0x03
  | .config => 0x7F | .init => 0 | .hardReset => 0 | .softReset => 0 | .sleepMode => 0x01
  | .inversionMode => 0x01 | .on => 0 | .off => 0 | .vscrdef => 0 | .vscsad => 0
  | .color565 => 0

/-- Descriptor length in words (R95): the column "Len" of R96, and for `CONFIG` `10 + 5 * nrec`, or 10 when
`nrec > 255` (R99). `nrec` is read for `CONFIG` only. -/
def Opcode.words (o : Opcode) (nrec : Word) : Nat :=
  match o with
  | .writeCmd => 5 | .setWindow => 5 | .fillBuf => 4
  | .pixel => 4 | .hline => 5 | .vline => 5 | .rect => 6 | .fillRect => 6 | .fill => 2
  | .line => 6 | .blit => 9 | .mapbits => 12
  | .rotation => 1 | .offset => 3 | .madctlGet => 1 | .madctlSet => 2
  | .boundingGet => 1 | .boundingSet => 1
  | .config => if nrec.toNat ≤ 255 then 10 + 5 * nrec.toNat else 10
  | .init => 1 | .hardReset => 1 | .softReset => 1 | .sleepMode => 1
  | .inversionMode => 1 | .on => 1 | .off => 1 | .vscrdef => 4 | .vscsad => 2
  | .color565 => 4

/-- The operation of a legal header word; `none` when the header is illegal (R97): its `op` is not one of the 29, or a
reserved bit of `f` is set. -/
def legalHeader (h : Word) : Option Opcode :=
  match Opcode.all.find? (fun o => o.code == headerOp h) with
  | none => none
  | some o => if headerImm h &&& ~~~ o.usedBits = 0 then some o else none

/-! ## Operand words -/

/-- The first `n` rotation records of a list of words, five words each (R99), and the words after them. -/
def takeRecords : Nat → List Word → Option (List RotRec × List Word)
  | 0, ws => some ([], ws)
  | n + 1, madctl :: width :: height :: colstart :: rowstart :: ws =>
    match takeRecords n ws with
    | some (recs, rest) => some (⟨madctl, width, height, colstart, rowstart⟩ :: recs, rest)
    | none => none
  | _ + 1, _ => none

/-- The flags of a `CONFIG` header (R99). -/
def configFlags (f : Byte) : ConfigFlags :=
  { cs := f.getLsbD 0, rst := f.getLsbD 1, bl := f.getLsbD 2, dc := f.getLsbD 3
    bgr := f.getLsbD 4, inv := f.getLsbD 5, ci := f.getLsbD 6 }

/-- The instruction with opcode `o`, header field `f` and the operand words that `ws` begins with, and the words after
them; `none` when `ws` ends before the descriptor's last word (60_exceptions.md R249). -/
def decodeOperands (o : Opcode) (f : Byte) (ws : List Word) : Option (Instr × List Word) :=
  match o with
  | .writeCmd => match ws with
    | ah :: al :: lh :: ll :: r => some (.writeCmd f (joinWords ah al) (joinWords lh ll), r)
    | _ => none
  | .setWindow => match ws with
    | x0 :: y0 :: x1 :: y1 :: r => some (.setWindow x0 y0 x1 y1, r)
    | _ => none
  | .fillBuf => match ws with
    | c :: nh :: nl :: r => some (.fillBuf c (joinWords nh nl), r)
    | _ => none
  | .pixel => match ws with
    | x :: y :: c :: r => some (.pixel x y c, r)
    | _ => none
  | .hline => match ws with
    | x :: y :: w :: c :: r => some (.hline x y w c, r)
    | _ => none
  | .vline => match ws with
    | x :: y :: h :: c :: r => some (.vline x y h c, r)
    | _ => none
  | .rect => match ws with
    | x :: y :: w :: h :: c :: r => some (.rect x y w h c, r)
    | _ => none
  | .fillRect => match ws with
    | x :: y :: w :: h :: c :: r => some (.fillRect x y w h c, r)
    | _ => none
  | .fill => match ws with
    | c :: r => some (.fill c, r)
    | _ => none
  | .line => match ws with
    | x0 :: y0 :: x1 :: y1 :: c :: r => some (.line x0 y0 x1 y1 c, r)
    | _ => none
  | .blit => match ws with
    | ah :: al :: lh :: ll :: x :: y :: w :: h :: r =>
      some (.blit (joinWords ah al) (joinWords lh ll) x y w h, r)
    | _ => none
  | .mapbits => match ws with
    | sh :: sl :: nh :: nl :: dh :: dl :: ch :: cl :: w :: fg :: bg :: r =>
      some (.mapbits (joinWords sh sl) (joinWords nh nl) (joinWords dh dl) (joinWords ch cl) w fg bg, r)
    | _ => none
  | .rotation => some (.rotation f, ws)
  | .offset => match ws with
    | col :: row :: r => some (.offset col row, r)
    | _ => none
  | .madctlGet => some (.madctlGet, ws)
  | .madctlSet => match ws with
    | v :: r => some (.madctlSet v, r)
    | _ => none
  | .boundingGet => some (.boundingGet (f.getLsbD 0), ws)
  | .boundingSet => some (.boundingSet (f.getLsbD 0) (f.getLsbD 1), ws)
  | .config => match ws with
    | dw :: dh :: rot :: opts :: nrec :: ah :: al :: lh :: ll :: r =>
      match takeRecords (if nrec.toNat ≤ 255 then nrec.toNat else 0) r with
      | some (table, rest) =>
        some (.config (configFlags f) dw dh rot opts nrec (joinWords ah al) (joinWords lh ll) table, rest)
      | none => none
    | _ => none
  | .init => some (.init, ws)
  | .hardReset => some (.hardReset, ws)
  | .softReset => some (.softReset, ws)
  | .sleepMode => some (.sleepMode (f.getLsbD 0), ws)
  | .inversionMode => some (.inversionMode (f.getLsbD 0), ws)
  | .on => some (.on, ws)
  | .off => some (.off, ws)
  | .vscrdef => match ws with
    | tfa :: vsa :: bfa :: r => some (.vscrdef tfa vsa bfa, r)
    | _ => none
  | .vscsad => match ws with
    | vssa :: r => some (.vscsad vssa, r)
    | _ => none
  | .color565 => match ws with
    | r :: g :: b :: rest => some (.color565 r g b, rest)
    | _ => none

/-! ## The decoder -/

/-- What the decoder answers on the words from `pc` on. -/
inductive Decoded where
  /-- an instruction, and the words after its descriptor -/
  | ok (i : Instr) (rest : List Word)
  /-- there is no header word: the command stream is used up (70_reset_and_hazards.md R274) -/
  | noWord
  /-- the header word is illegal (R97) -/
  | illegal (h : Word)
  /-- the header is legal and the descriptor is cut off (60_exceptions.md R249) -/
  | truncated
deriving DecidableEq, Repr

/-- Decoding as the step does it (70_reset_and_hazards.md R272): the header alone decides legality, before any operand
word is read. -/
def decode : List Word → Decoded
  | [] => .noWord
  | h :: ws =>
    match legalHeader h with
    | none => .illegal h
    | some o =>
      match decodeOperands o (headerImm h) ws with
      | some (i, rest) => .ok i rest
      | none => .truncated

/-! ## The encoder -/

/-- The opcode of an instruction. -/
def Instr.opcode : Instr → Opcode
  | .writeCmd _ _ _ => .writeCmd
  | .setWindow _ _ _ _ => .setWindow
  | .fillBuf _ _ => .fillBuf
  | .pixel _ _ _ => .pixel
  | .hline _ _ _ _ => .hline
  | .vline _ _ _ _ => .vline
  | .rect _ _ _ _ _ => .rect
  | .fillRect _ _ _ _ _ => .fillRect
  | .fill _ => .fill
  | .line _ _ _ _ _ => .line
  | .blit _ _ _ _ _ _ => .blit
  | .mapbits _ _ _ _ _ _ _ => .mapbits
  | .rotation _ => .rotation
  | .offset _ _ => .offset
  | .madctlGet => .madctlGet
  | .madctlSet _ => .madctlSet
  | .boundingGet _ => .boundingGet
  | .boundingSet _ _ => .boundingSet
  | .config _ _ _ _ _ _ _ _ _ => .config
  | .init => .init
  | .hardReset => .hardReset
  | .softReset => .softReset
  | .sleepMode _ => .sleepMode
  | .inversionMode _ => .inversionMode
  | .on => .on
  | .off => .off
  | .vscrdef _ _ _ => .vscrdef
  | .vscsad _ => .vscsad
  | .color565 _ _ _ => .color565

/-- A flag at bit `k` of `f`: 1 is true (R92). -/
def flagBit (b : Bool) (k : Nat) : Byte := if b then BitVec.twoPow 8 k else 0

/-- The `f` field of an instruction's header (R96, R99). -/
def Instr.imm : Instr → Byte
  | .writeCmd cmd _ _ => cmd
  | .rotation value => value
  | .boundingGet asSize => flagBit asSize 0
  | .boundingSet asSize enable => flagBit asSize 0 ||| flagBit enable 1
  | .config f _ _ _ _ _ _ _ _ =>
    flagBit f.cs 0 ||| flagBit f.rst 1 ||| flagBit f.bl 2 ||| flagBit f.dc 3 ||| flagBit f.bgr 4 |||
      flagBit f.inv 5 ||| flagBit f.ci 6
  | .sleepMode asleep => flagBit asleep 0
  | .inversionMode inverted => flagBit inverted 0
  | .setWindow _ _ _ _ => 0
  | .fillBuf _ _ => 0
  | .pixel _ _ _ => 0
  | .hline _ _ _ _ => 0
  | .vline _ _ _ _ => 0
  | .rect _ _ _ _ _ => 0
  | .fillRect _ _ _ _ _ => 0
  | .fill _ => 0
  | .line _ _ _ _ _ => 0
  | .blit _ _ _ _ _ _ => 0
  | .mapbits _ _ _ _ _ _ _ => 0
  | .offset _ _ => 0
  | .madctlGet => 0
  | .madctlSet _ => 0
  | .init => 0
  | .hardReset => 0
  | .softReset => 0
  | .on => 0
  | .off => 0
  | .vscrdef _ _ _ => 0
  | .vscsad _ => 0
  | .color565 _ _ _ => 0

/-- The five words of a record (R99). -/
def recordWords (r : RotRec) : List Word := [r.madctl, r.width, r.height, r.colstart, r.rowstart]

/-- The operand words of an instruction, in descriptor order (R96, R99). -/
def Instr.operandWords : Instr → List Word
  | .writeCmd _ addr len => [highWord addr, lowWord addr, highWord len, lowWord len]
  | .setWindow x0 y0 x1 y1 => [x0, y0, x1, y1]
  | .fillBuf color n => [color, highWord n, lowWord n]
  | .pixel x y color => [x, y, color]
  | .hline x y w color => [x, y, w, color]
  | .vline x y h color => [x, y, h, color]
  | .rect x y w h color => [x, y, w, h, color]
  | .fillRect x y w h color => [x, y, w, h, color]
  | .fill color => [color]
  | .line x0 y0 x1 y1 color => [x0, y0, x1, y1, color]
  | .blit addr len x y w h => [highWord addr, lowWord addr, highWord len, lowWord len, x, y, w, h]
  | .mapbits src srclen dst dstcap width fg bg =>
    [highWord src, lowWord src, highWord srclen, lowWord srclen, highWord dst, lowWord dst,
      highWord dstcap, lowWord dstcap, width, fg, bg]
  | .offset col row => [col, row]
  | .madctlSet value => [value]
  | .config _ dw dh rot opts nrec ciAddr ciLen table =>
    [dw, dh, rot, opts, nrec, highWord ciAddr, lowWord ciAddr, highWord ciLen, lowWord ciLen] ++
      table.flatMap recordWords
  | .vscrdef tfa vsa bfa => [tfa, vsa, bfa]
  | .vscsad vssa => [vssa]
  | .color565 r g b => [r, g, b]
  | .rotation _ => []
  | .madctlGet => []
  | .boundingGet _ => []
  | .boundingSet _ _ => []
  | .init => []
  | .hardReset => []
  | .softReset => []
  | .sleepMode _ => []
  | .inversionMode _ => []
  | .on => []
  | .off => []

/-- The words of a well-formed instruction's descriptor. -/
def encode (i : Instr) : List Word := header i.opcode.code i.imm :: i.operandWords

/-- The length of an instruction's descriptor in words (R95): a function of the opcode alone, except for `CONFIG`, where
`nrec` is the sixth word of the descriptor, its fifth operand word. -/
def Instr.words (i : Instr) : Nat := i.opcode.words (i.operandWords.getD 4 0)

/-! ## The opcode table's numbering -/

/-- Word `k` of an instruction whose bits are the number `w`: bit 0 of `w` is the least significant bit of the first
word, and each later word's bits count on from there. -/
def tableWord (w k : Nat) : Word := BitVec.ofNat 16 (w >>> (16 * k))

/-- The words of the instruction whose lowest `nbits` bits are those of `w` and whose other bits are 0, laid out as a
command stream: as many as the descriptor has (R95), and at least the words `nbits` counts. A command word is an
indivisible 16-bit value with no byte order (20_memory.md R68; log entry 17). -/
def tableWords (nbits w : Nat) : List Word :=
  let v := w % 2 ^ nbits
  let given := (nbits + 15) / 16
  let needed := match legalHeader (tableWord v 0) with
    | some o => o.words (tableWord v 5)
    | none => 1
  (List.range (max given needed)).map (tableWord v)

/-- The instruction the decoder reads from the instruction whose bits are `w`. -/
def decodeTableWord (nbits w : Nat) : Option Instr :=
  match decode (tableWords nbits w) with
  | .ok i _ => some i
  | .noWord => none
  | .illegal _ => none
  | .truncated => none

end Sys2Proof
end

