-- ==== Sys2Proof/Config.lean ====
section
/-! DEFINITION. What a run fixes and the spec leaves open: the parameters a model takes as arguments (00_scope.md R8), and
the one free value. The parameters are plain data that `Machine.State` carries and no step writes (log entry 4). -/

namespace Sys2Proof

/-- One built-in rotation table: the panel size it is for, and its four records (44_orientation_dirtybox.md R181). -/
structure Preset where
  displayWidth  : Word
  displayHeight : Word
  records       : Vector RotRec 4
deriving DecidableEq, Repr

/-- The open parameters of a run (00_scope.md R8). -/
structure Params where
  /-- `BMEM_SIZE`: bytes of buffer memory. -/
  bmemSize : Nat
  /-- `PRESETS`: the built-in rotation tables; the spec gives no values and a model must not invent them. -/
  presets  : List Preset
  /-- `CINIT_CAP`: capacity of the custom-init store in bytes, `none` when unbounded. -/
  cinitCap : Option Nat
  /-- `HAL_FAIL`: the indices (from hardware reset, from 0) of the `spi_write` calls the HAL answers with an error. -/
  halFail  : List Nat
deriving DecidableEq, Repr

/-- FREE VALUE (log entry 7, DESIGN CHOICE): what the 32-bit register `info` holds when the value the spec records there
does not fit in 32 bits (60_exceptions.md R251 and R253 record numbers that can exceed a u32, 10_state.md R25 gives `info`
32 bits, and no rule masks it). -/
opaque Config.infoBeyondU32 : Nat → DWord

end Sys2Proof
end

