-- ==== Sys2Proof/Machine/State.lean ====
section
/-! DEFINITION. The architectural state (10_state.md), the event alphabet (20_memory.md R62), the reasons a step can stop,
and the state after hardware reset (10_state.md R47, 70_reset_and_hazards.md R270). `none` is the spec's "unset"
(10_state.md R21; log entry 2). -/

namespace Sys2Proof.Machine

/-! ## The event stream -/

/-- The four GPIO lines (10_state.md R40, 20_memory.md R62). -/
inductive Pin where
  | dc | cs | rst | bl
deriving DecidableEq, Repr

/-- The event alphabet of the trace (20_memory.md R62). A pin level of `true` is 1, "high". -/
inductive Event where
  /-- `SPI(bytes)`: one transfer the HAL accepted -/
  | spi (bytes : List Byte)
  /-- `PIN(p, level)` -/
  | pin (p : Pin) (level : Bool)
  /-- `DELAY(n)`: a wait of `n` milliseconds was requested -/
  | delay (ms : Nat)
  /-- `SPIFAIL(bytes)`: one transfer the HAL answered with an error -/
  | spiFail (bytes : List Byte)
deriving DecidableEq, Repr

/-! ## Buffer memory -/

/-- Buffer memory `BMEM` (20_memory.md R68) as (address, byte) pairs in the canonical form of `Memory.wf`: addresses
strictly rising and no listed byte equal to what an unlisted address reads as. -/
abbrev Memory := List Host.Cell

/-! ## The Display -/

/-- An entry of the custom-init store: `(cmd: u8, data: list of u8, delay: absent or u16)` (10_state.md R42). -/
structure ScriptEntry where
  cmd   : Byte
  data  : List Byte
  delay : Option Word
deriving DecidableEq, Repr

/-- The custom-init store once written: "either *absent* or an ordered list of entries" (10_state.md R42). -/
inductive CustomInit where
  | absent
  | script (entries : List ScriptEntry)
deriving DecidableEq, Repr

/-- The Display fields SR0 to SR19, the rotation table store and the custom-init store (10_state.md R27 to R42). -/
structure Display where
  /-- SR0 -/
  displayWidth  : Option Word
  /-- SR1 -/
  displayHeight : Option Word
  /-- SR2 -/
  width         : Option Word
  /-- SR3 -/
  height        : Option Word
  /-- SR4 -/
  colstart      : Option Word
  /-- SR5 -/
  rowstart      : Option Word
  /-- SR6 -/
  rotation      : Option Byte
  /-- SR7 -/
  rotationsLen  : Option Byte
  /-- SR8 -/
  colorOrder    : Option Byte
  /-- SR9 -/
  madctl        : Option Word
  /-- SR10 -/
  inversion     : Option Bool
  /-- SR11 -/
  options       : Option Byte
  /-- SR12 -/
  bounding      : Option Bool
  /-- SR13 -/
  minX          : Option Word
  /-- SR14 -/
  minY          : Option Word
  /-- SR15 -/
  maxX          : Option Word
  /-- SR16 -/
  maxY          : Option Word
  /-- SR17 -/
  csPresent     : Option Bool
  /-- SR18 -/
  rstPresent    : Option Bool
  /-- SR19 -/
  blPresent     : Option Bool
  /-- the rotation table store (R41) -/
  rot           : Option (List RotRec)
  /-- the custom-init store (R42) -/
  cinit         : Option CustomInit
deriving DecidableEq, Repr

/-- A Display none of whose fields has been written. -/
def Display.unset : Display :=
  { displayWidth := none, displayHeight := none, width := none, height := none, colstart := none, rowstart := none
    rotation := none, rotationsLen := none, colorOrder := none, madctl := none, inversion := none, options := none
    bounding := none, minX := none, minY := none, maxX := none, maxY := none
    csPresent := none, rstPresent := none, blPresent := none, rot := none, cinit := none }

/-- The result registers `r[0..3]`, 32-bit two's complement or unset (10_state.md R22). -/
structure Results where
  r0 : Option DWord
  r1 : Option DWord
  r2 : Option DWord
  r3 : Option DWord
deriving DecidableEq, Repr

/-! ## The whole state -/

/-- The state of a run: the architectural state `S` (10_state.md R20), buffer memory, the trace, and the inputs of the run
that no operation writes (70_reset_and_hazards.md R273): the command stream and the parameters. -/
structure State where
  /-- the command pointer: a word index into `prog` (10_state.md R24) -/
  pc         : Nat
  /-- `r[0..3]` -/
  results    : Results
  /-- set by `CONFIG` (10_state.md R25) -/
  configured : Bool
  /-- set by `set_rotation()` (10_state.md R25) -/
  geomValid  : Bool
  /-- set by fault entry, cleared by hardware reset only (10_state.md R25) -/
  fault      : Bool
  /-- the code of the fault (10_state.md R25) -/
  cause      : Byte
  /-- the value the fault records (10_state.md R25) -/
  info       : DWord
  /-- SR0 to SR19 and the two stores -/
  display    : Display
  /-- `BMEM` (20_memory.md R68) -/
  bmem       : Memory
  /-- the events emitted, oldest first (20_memory.md R62) -/
  trace      : List Event
  /-- `PROG`, the command stream (20_memory.md R61) -/
  prog       : List Word
  /-- the parameters of the run (00_scope.md R8; log entry 4) -/
  params     : Params
deriving DecidableEq, Repr

/-! ## The reasons a step can stop -/

/-- Why the sequencer has no step. The spec's own faults are no reasons of this type: their entry is a next state
(60_exceptions.md R252; log entry 1). -/
inductive Fault where
  /-- Raised by `step`: `fault = 0` and the command stream is used up; the sequencer is idle, the normal end of a run
  (70_reset_and_hazards.md R274). Safe: the spec gives no step. -/
  | completed
  /-- Raised by `step`: `fault = 1`; a faulted sequencer executes nothing further (60_exceptions.md R252). Safe: the spec
  gives no step. -/
  | faulted
  /-- Raised by `step`: the header at `pc` is legal and the descriptor is cut off; the sequencer is stuck
  (60_exceptions.md R249). Safe: the spec gives no step. -/
  | stuck
deriving DecidableEq, Repr

/-- Why an instruction has no meaning in this model. No arm of `exec` answers it. -/
inductive Refusal where
  /-- Raised by an arm of `exec` whose instruction has no meaning yet. Safe: nothing is claimed of it. -/
  | notModelled (mnemonic : String)
deriving DecidableEq, Repr

/-! ## Reset -/

/-- The parameters of the reset state (DESIGN CHOICE, log entry 4: those 95_test_vectors.md gives its `RESET` vectors). -/
def Params.atReset : Params := { bmemSize := 256, presets := [], cinitCap := none, halFail := [] }

/-- The machine right after hardware reset (10_state.md R47, 70_reset_and_hazards.md R270), with an empty command stream
and all-zero buffer memory (DESIGN CHOICE, log entries 5 and 6: the host supplies both before a run). -/
def State.reset : State :=
  { pc := 0
    results := { r0 := none, r1 := none, r2 := none, r3 := none }
    configured := false
    geomValid := false
    fault := false
    cause := 0
    info := 0
    display := Display.unset
    bmem := []
    trace := []
    prog := []
    params := Params.atReset }

end Sys2Proof.Machine
end

