-- ==== Sys2Proof/Machine/Memory.lean ====
section
/-! DEFINITION. Buffer memory (20_memory.md R68, R70): one flat array of bytes, each access a byte access. The list form is
a representation: every array of bytes has exactly one canonical list. -/

namespace Sys2Proof.Machine

/-- What an unlisted address reads as: zero (DESIGN CHOICE, log entry 6: the spec makes the initial contents an input of
the run, 93_implementation_defined.md U18). -/
def unlistedByte : Byte := 0

/-- `BMEM[a]`. -/
def readByte (m : Memory) (a : Nat) : Byte :=
  match m with
  | [] => unlistedByte
  | (a', b) :: m => if a = a' then b else readByte m a

/-- `BMEM[a] <- b`, keeping the canonical form. -/
def writeByte (m : Memory) (a : Nat) (b : Byte) : Memory :=
  match m with
  | [] => if b = unlistedByte then [] else [(a, b)]
  | (a', b') :: m =>
    if a < a' then (if b = unlistedByte then (a', b') :: m else (a, b) :: (a', b') :: m)
    else if a = a' then (if b = unlistedByte then m else (a, b) :: m)
    else (a', b') :: writeByte m a b

/-- `BMEM[addr .. addr+n-1]` as a list (R70). -/
def readBytes (m : Memory) (addr n : Nat) : List Byte := (List.range n).map fun i => readByte m (addr + i)

/-- `BMEM[addr + i] <- v[i]` for increasing `i` (R70). -/
def writeBytes (m : Memory) (addr : Nat) : List Byte → Memory
  | [] => m
  | b :: bs => writeBytes (writeByte m addr b) (addr + 1) bs

/-- The canonical form: addresses strictly rising, and no listed byte equal to what an unlisted address reads as. -/
def Memory.wf (m : Memory) : Bool :=
  decide (m.Pairwise fun c d => c.1 < d.1) && m.all fun c => c.2 != unlistedByte

/-- Every listed address exists: it is below `BMEM_SIZE` (R68). -/
def Memory.within (m : Memory) (size : Nat) : Bool := m.all fun c => decide (c.1 < size)

end Sys2Proof.Machine
end

