-- ==== Sys2Proof/Machine/Operands.lean ====
section
/-! DEFINITION. Operand values (00_scope.md R11, 30_encoding.md R92) and byte order on the wire (00_scope.md R9,
20_memory.md R67). Arithmetic inside a meaning is exact, on `Int` and `Nat` (00_scope.md R10); the functions here are where
bits become numbers and numbers become bits. -/

namespace Sys2Proof.Machine

/-- `sext_16`: the value of an s16 operand word (R11). Coordinates and lengths of drawing operations. -/
def sext16 (w : Word) : Int := w.toInt

/-- `zext_16`: the value of a u16 operand word (R11). -/
def zext16 (w : Word) : Nat := w.toNat

/-- The value of a u32 operand (R11). -/
def valU32 (v : DWord) : Nat := v.toNat

/-- `H(v)`, the high byte of the low 16 bits (R9). -/
def hiByte (v : Nat) : Byte := BitVec.ofNat 8 (v >>> 8)

/-- `L(v)`, the low byte (R9). -/
def loByte (v : Nat) : Byte := BitVec.ofNat 8 v

/-- `[H(v), L(v)]`: a 16-bit value on the wire, high byte first (20_memory.md R67). -/
def be16 (v : Nat) : List Byte := [hiByte v, loByte v]

/-- The two wire bytes of a colour (20_memory.md R67, 46_color.md R230). -/
def pixelBytes (color : Word) : List Byte := be16 color.toNat

/-- A u16 state field from an exact integer that fits it (10_state.md R37). -/
def toU16 (v : Int) : Word := BitVec.ofInt 16 v

/-- A result register's 32 bits, two's complement, from an exact integer that fits them (10_state.md R22, R23). -/
def toResult (v : Int) : DWord := BitVec.ofInt 32 v

/-- The low byte of a u16, `v & 0xFF` (30_encoding.md R109). -/
def lowByte (w : Word) : Byte := w.extractLsb' 0 8

end Sys2Proof.Machine
end

