-- ==== Sys2Proof/Machine/Panel.lean ====
section
/-! DEFINITION. The constants the document fixes: panel command bytes (30_encoding.md R102), MADCTL and option bits (R103,
R105), `COLMOD` (R104), sizes (00_scope.md R7), delays (70_reset_and_hazards.md R287) and the named colours
(46_color.md R232). -/

namespace Sys2Proof.Machine

/-! ## Panel commands (R102) -/

def cmdSWRESET : Byte := 0x01
def cmdSLPIN : Byte := 0x10
def cmdSLPOUT : Byte := 0x11
def cmdNORON : Byte := 0x13
def cmdINVOFF : Byte := 0x20
def cmdINVON : Byte := 0x21
/-- In the document's list; no operation sends it (R102). -/
def cmdDISPOFF : Byte := 0x28
def cmdDISPON : Byte := 0x29
def cmdCASET : Byte := 0x2A
def cmdRASET : Byte := 0x2B
def cmdRAMWR : Byte := 0x2C
def cmdVSCRDEF : Byte := 0x33
def cmdMADCTL : Byte := 0x36
def cmdVSCSAD : Byte := 0x37
def cmdCOLMOD : Byte := 0x3A

/-- "`COLMOD` value for this driver is fixed at `0x55`" (R104). -/
def colmodValue : Byte := 0x55

/-! ## MADCTL bits (R103) and colour orders (10_state.md R32) -/

def madctlMY : Byte := 0x80
def madctlMX : Byte := 0x40
def madctlMV : Byte := 0x20
def madctlML : Byte := 0x10
def madctlMH : Byte := 0x04
def orderRGB : Byte := 0x00
def orderBGR : Byte := 0x08

/-! ## Option flags (R105) -/

def optWRAP_H : Byte := 0x01
def optWRAP_V : Byte := 0x02
def optWRAP : Byte := 0x03

/-! ## Sizes (00_scope.md R7) -/

/-- `STAGE_PIXELS`: pixels in the fill engine's staging buffer. -/
def stagePixels : Nat := 128
/-- `BLIT_CHUNK`: bytes per blit transfer. -/
def blitChunk : Nat := 256
/-- `ROTATION` operand modulus. -/
def rotationModulus : Nat := 4
/-- `NREC_MAX`: the largest caller-supplied rotation table (00_scope.md R8). -/
def nrecMax : Nat := 255

/-! ## Delays in milliseconds (R287) -/

def delayResetPulse : Nat := 50
def delayResetEnd : Nat := 150
def delaySoftReset : Nat := 150
def delaySettle : Nat := 10
def delayDisplayOn : Nat := 150

/-! ## Named colours (46_color.md R232) -/

def colorBLACK : Word := 0x0000
def colorBLUE : Word := 0x001F
def colorRED : Word := 0xF800
def colorGREEN : Word := 0x07E0
def colorCYAN : Word := 0x07FF
def colorMAGENTA : Word := 0xF81F
def colorYELLOW : Word := 0xFFE0
def colorWHITE : Word := 0xFFFF

end Sys2Proof.Machine
end

