-- ==== Sys2Proof/Machine/Ops.lean ====
section
/-! DEFINITION. The primitives of the operations' pseudocode (00_scope.md R12): raising a fault and fault entry
(60_exceptions.md R252), reads of state fields, the HAL calls (20_memory.md R63 to R65), buffer memory accesses (R70), the
command writer and the pixel-data phase (40_command_window_fill.md R120, R121).

An operation's pseudocode is an `Op`: it runs top to bottom on the state, and a raised fault ends the whole operation with
the state written so far (00_scope.md R12). -/

namespace Sys2Proof.Machine

/-! ## Faults -/

/-- The twelve faults (60_exceptions.md R255). -/
inductive Cause where
  | illegalOp | notConfigured | unsetState | cfgNoDc | cfgRotTable | cfgScript | rotRange | bufRange
  | outOverflow | badOperand | halError | reconfig
deriving DecidableEq, Repr

/-- The code a fault leaves in `cause` (60_exceptions.md R255). -/
def Cause.code : Cause → Byte
  | .illegalOp => 1
  | .notConfigured => 2
  | .unsetState => 3
  | .cfgNoDc => 4
  | .cfgRotTable => 5
  | .cfgScript => 6
  | .rotRange => 7
  | .bufRange => 8
  | .outOverflow => 9
  | .badOperand => 10
  | .halError => 11
  | .reconfig => 12

/-- A fault being raised: `Fault(code, info)`, `info` the exact number the rule records. -/
structure Raised where
  cause : Cause
  info  : Nat
deriving DecidableEq, Repr

/-- The pseudocode of an operation or procedure: a transition that answers a value, or raises a fault, in either case with
the state as written so far. -/
abbrev Op (α : Type) := EStateM Raised State α

/-- The 32-bit register `info` from the number a fault records; a number that does not fit leaves a free value (log
entry 7). -/
def infoWord (n : Nat) : DWord := if n < 2 ^ 32 then BitVec.ofNat 32 n else Config.infoBeyondU32 n

/-- FAULT ENTRY (60_exceptions.md R252): exactly three fields are written, `pc` stays at the faulting header. There is no
return from a fault: it is cleared by hardware reset only (60_exceptions.md R260). -/
def enterFault (c : Cause) (info : Nat) (s : State) : State :=
  { s with fault := true, cause := c.code, info := infoWord info }

/-- `raise Fault(code, info)`: the operation ends here. -/
def raise {α : Type} (c : Cause) (info : Nat) : Op α := fun s => .error ⟨c, info⟩ s

/-- One whole operation with a descriptor of `len` words: `pc <- pc + len` when it completes, fault entry when it raises
(70_reset_and_hazards.md R272). -/
def perform (len : Nat) (op : Op Unit) (s : State) : Host.Outcome State Fault Refusal :=
  match op s with
  | .ok _ s' => .next { s' with pc := s'.pc + len }
  | .error e s' => .next (enterFault e.cause e.info s')

/-! ## Control -/

/-- `if c then op`, with nothing otherwise. -/
def onlyIf (c : Prop) [Decidable c] (op : Op Unit) : Op Unit := if c then op else pure ()

/-- `for each a of l, in order: f a`. -/
def forEach {α : Type} : List α → (α → Op Unit) → Op Unit
  | [], _ => pure ()
  | a :: l, f => do
    f a
    forEach l f

/-! ## State fields -/

/-- `S.f`, the read of the Display field with number `sr`. A field that holds no value raises `UNSET_STATE` with its
number (60_exceptions.md R243, first sentence); in every state a run reaches the guards have raised a fault before
(10_state.md R21, R45; log entry 3). -/
def need {α : Type} (sr : Nat) (f : Display → Option α) : Op α := fun s =>
  match f s.display with
  | some v => .ok v s
  | none => .error ⟨.unsetState, sr⟩ s

/-- `S.f <- v` for Display fields. -/
def updateDisplay (f : Display → Display) : Op Unit := fun s => .ok () { s with display := f s.display }

/-- `r[0..3] <- …`. -/
def updateResults (f : Results → Results) : Op Unit := fun s => .ok () { s with results := f s.results }

/-- `S.geom_valid <- 1`. -/
def setGeomValid : Op Unit := fun s => .ok () { s with geomValid := true }

/-- `S.configured <- 1`. -/
def setConfigured : Op Unit := fun s => .ok () { s with configured := true }

/-! ## HAL calls -/

/-- `s` with events appended to the trace. -/
def State.emitted (s : State) (es : List Event) : State := { s with trace := s.trace ++ es }

/-- Append one event to the trace. -/
def emit (e : Event) : Op Unit := fun s => .ok () (s.emitted [e])

/-- Is the pin connected? "DC is mandatory", the others as `CONFIG` stored them (20_memory.md R63). DESIGN CHOICE: a presence
bit that holds no value past its operation's guards, which no run reaches, is taken as not 1, and nothing is raised, since
R63 says that `pin` cannot fail (log entry 3). -/
def Display.hasPin (d : Display) : Pin → Bool
  | .dc => true
  | .cs => d.csPresent == some true
  | .rst => d.rstPresent == some true
  | .bl => d.blPresent == some true

/-- The events of a pin write: one when the pin is connected, none otherwise (20_memory.md R63). -/
def pinEvents (d : Display) (p : Pin) (level : Bool) : List Event :=
  if d.hasPin p then [.pin p level] else []

/-- `pin(p, level)` (20_memory.md R63). -/
def pin (p : Pin) (level : Bool) : Op Unit := fun s => .ok () (s.emitted (pinEvents s.display p level))

/-- Does the event count as a transfer: `SPI` or `SPIFAIL` (20_memory.md R64)? -/
def Event.isTransfer : Event → Bool
  | .spi _ => true
  | .spiFail _ => true
  | .pin _ _ => false
  | .delay _ => false

/-- The number of `SPI` and `SPIFAIL` events in a trace (20_memory.md R64). -/
def transferCount (t : List Event) : Nat := t.countP Event.isTransfer

/-- `spi(bytes)` (20_memory.md R64): the HAL answers the transfer with number `k`, counted from hardware reset; on an error
the trace receives `SPIFAIL(bytes)`, CS is released and `HAL_ERROR` is raised with `k`. -/
def spi (bytes : List Byte) : Op Unit := fun s =>
  if transferCount s.trace ∈ s.params.halFail then
    .error ⟨.halError, transferCount s.trace⟩
      (s.emitted (.spiFail bytes :: pinEvents s.display .cs true))
  else .ok () (s.emitted [.spi bytes])

/-- `delay(n)` (20_memory.md R65). -/
def delay (ms : Nat) : Op Unit := emit (.delay ms)

/-! ## Buffer memory -/

/-- `MemRead(addr, n)` (20_memory.md R70). -/
def memRead (addr n : Nat) : Op (List Byte) := fun s =>
  if addr + n > s.params.bmemSize then .error ⟨.bufRange, addr⟩ s
  else .ok (readBytes s.bmem addr n) s

/-- The range check of a buffer `(addr, len)` alone (20_memory.md R70). -/
def checkRange (addr n : Nat) : Op Unit := fun s =>
  if addr + n > s.params.bmemSize then .error ⟨.bufRange, addr⟩ s else .ok () s

/-- `MemWrite(addr, n, v)` with `n` the length of `v` (20_memory.md R70). -/
def memWrite (addr : Nat) (v : List Byte) : Op Unit := fun s =>
  if addr + v.length > s.params.bmemSize then .error ⟨.bufRange, addr⟩ s
  else .ok () { s with bmem := writeBytes s.bmem addr v }

/-! ## The command writer and the pixel-data phase -/

/-- `write_cmd(cmd, data)` (40_command_window_fill.md R120). -/
def writeCmd (cmd : Byte) (data : List Byte) : Op Unit := do
  pin .cs false
  onlyIf (cmd ≠ 0) do
    pin .dc false
    spi [cmd]
  onlyIf (data ≠ []) do
    pin .dc true
    spi data
  pin .cs true

/-- `pixel_phase(chunks)` (40_command_window_fill.md R121). -/
def pixelPhase (chunks : List (List Byte)) : Op Unit := do
  pin .cs false
  pin .dc true
  forEach chunks fun c => onlyIf (c ≠ []) (spi c)
  pin .cs true

/-! ## Hardware reset -/

/-- HARDWARE RESET (70_reset_and_hazards.md R270), an action of the host and no operation: every register and flag to its
reset value, the trace empty, no event; the command stream, `BMEM` and the parameters are the host's and stay (10_state.md
R47; log entry 14). -/
def State.hardwareReset (s : State) : State :=
  { State.reset with prog := s.prog, bmem := s.bmem, params := s.params }

end Sys2Proof.Machine
end

