-- ==== Sys2Proof/Machine/Flags.lean ====
section
/-! DEFINITION. The status flags' guards (10_state.md R44, R45) and the option flags (10_state.md R35). There are no
condition codes: "They are the only flags" (10_state.md R25). -/

namespace Sys2Proof.Machine

/-- The `NOT_CONFIGURED` guard (10_state.md R44, 60_exceptions.md R242). -/
def guardConfigured : Op Unit := fun s =>
  if s.configured then .ok () s else .error ⟨.notConfigured, 0⟩ s

/-- The register number of `width`, which `need_geom()` records (10_state.md R45). -/
def srWidth : Nat := 2

/-- `need_geom()` (10_state.md R45, 60_exceptions.md R243). -/
def needGeom : Op Unit := fun s =>
  if s.geomValid then .ok () s else .error ⟨.unsetState, srWidth⟩ s

/-- Is `WRAP_H` set in `S.options` (10_state.md R35)? -/
def wrapH (options : Byte) : Bool := options &&& optWRAP_H != 0

/-- Is `WRAP_V` set in `S.options` (10_state.md R35)? -/
def wrapV (options : Byte) : Bool := options &&& optWRAP_V != 0

/-- "`WRAP` set": at least one of the two wrap flags (41_primitives.md R142). -/
def wrapAny (options : Byte) : Bool := options &&& optWRAP != 0

end Sys2Proof.Machine
end

