-- ==== Sys2Proof/Machine/Window.lean ====
section
/-! DEFINITION. The dirty box, the window driver, the fill engine, and `WRITE_CMD`, `SET_WINDOW`, `FILL_BUF`
(40_command_window_fill.md R122 to R128; 10_state.md R38). -/

namespace Sys2Proof.Machine

/-! ## The dirty box -/

/-- `box_reset()`: the sentinel box of the current geometry (10_state.md R38). -/
def boxReset : Op Unit := do
  let w ← need 2 Display.width
  let h ← need 3 Display.height
  updateDisplay fun d => { d with minX := some w, minY := some h, maxX := some 0, maxY := some 0 }

/-- The four assignments that expand the dirty box by a window (40_command_window_fill.md R123). -/
def expandBox (x0 y0 x1 y1 : Int) : Op Unit := do
  let minX ← need 13 Display.minX
  let minY ← need 14 Display.minY
  let maxX ← need 15 Display.maxX
  let maxY ← need 16 Display.maxY
  updateDisplay fun d =>
    { d with
      minX := some (toU16 (min (minX.toNat : Int) x0))
      minY := some (toU16 (min (minY.toNat : Int) y0))
      maxX := some (toU16 (max (maxX.toNat : Int) x1))
      maxY := some (toU16 (max (maxY.toNat : Int) y1)) }

/-! ## The window driver -/

/-- The test of `set_window`: the window lies inside the active area (40_command_window_fill.md R123). -/
def windowFits (width height : Word) (x0 y0 x1 y1 : Int) : Bool :=
  decide (0 ≤ x0 ∧ x0 ≤ x1 ∧ x1 < (width.toNat : Int) ∧ 0 ≤ y0 ∧ y0 ≤ y1 ∧ y1 < (height.toNat : Int))

/-- The three commands that program a window, in panel coordinates (40_command_window_fill.md R123). -/
def programWindow (x0 y0 x1 y1 : Int) : Op Unit := do
  let colstart ← need 4 Display.colstart
  let rowstart ← need 5 Display.rowstart
  writeCmd cmdCASET (be16 (x0.toNat + colstart.toNat) ++ be16 (x1.toNat + colstart.toNat))
  writeCmd cmdRASET (be16 (y0.toNat + rowstart.toNat) ++ be16 (y1.toNat + rowstart.toNat))
  writeCmd cmdRAMWR []

/-- `set_window(x0, y0, x1, y1)`: true when the window is programmed, false when it is silently dropped
(40_command_window_fill.md R123). -/
def setWindow (x0 y0 x1 y1 : Int) : Op Bool := do
  let width ← need 2 Display.width
  let height ← need 3 Display.height
  if windowFits width height x0 y0 x1 y1 = true then do
    let bounding ← need 12 Display.bounding
    onlyIf (bounding = true) (expandBox x0 y0 x1 y1)
    programWindow x0 y0 x1 y1
    pure true
  else pure false

/-! ## The fill engine -/

/-- `n` copies of one pixel's two bytes: the part of the staging buffer that one transfer sends (R125). -/
def repeatPixel (color : Word) (n : Nat) : List Byte := (List.replicate n (pixelBytes color)).flatten

/-- `fill_chunks(color, n)`: full transfers of 128 pixels and one partial transfer (40_command_window_fill.md R125). -/
def fillChunks (color : Word) (n : Nat) : List (List Byte) :=
  List.replicate (n / stagePixels) (repeatPixel color stagePixels) ++
    if n % stagePixels > 0 then [repeatPixel color (n % stagePixels)] else []

/-- `stream(color, n)` (40_command_window_fill.md R126). -/
def stream (color : Word) (n : Nat) : Op Unit := pixelPhase (fillChunks color n)

/-- "program the window, then stream": pixels follow only a window that was programmed (R127). -/
def windowThen (x0 y0 x1 y1 : Int) (pixels : Op Unit) : Op Unit := do
  let programmed ← setWindow x0 y0 x1 y1
  onlyIf (programmed = true) pixels

/-! ## Operations -/

/-- `WRITE_CMD` (40_command_window_fill.md R122). -/
def execWriteCmd (cmd : Byte) (addr len : DWord) (s : State) : Host.Outcome State Fault Refusal :=
  perform (Instr.writeCmd cmd addr len).words (do
    guardConfigured
    let data ← memRead (valU32 addr) (valU32 len)
    writeCmd cmd data) s

/-- `SET_WINDOW` (40_command_window_fill.md R124). -/
def execSetWindow (x0 y0 x1 y1 : Word) (s : State) : Host.Outcome State Fault Refusal :=
  perform (Instr.setWindow x0 y0 x1 y1).words (do
    guardConfigured
    needGeom
    windowThen (sext16 x0) (sext16 y0) (sext16 x1) (sext16 y1) (pure ())) s

/-- `FILL_BUF` (40_command_window_fill.md R128). -/
def execFillBuf (color : Word) (n : DWord) (s : State) : Host.Outcome State Fault Refusal :=
  perform (Instr.fillBuf color n).words (do
    guardConfigured
    stream color (valU32 n)) s

end Sys2Proof.Machine
end

