-- ==== Sys2Proof/Machine/Buffers.lean ====
section
/-! DEFINITION. Raw buffer blit and bit-array expansion: `BLIT`, `MAPBITS` (43_buffers.md R170 to R174). -/

namespace Sys2Proof.Machine

/-- A byte list cut into 256-byte transfers and one remainder (43_buffers.md R171). -/
def blitChunks (bytes : List Byte) : List (List Byte) :=
  (List.range (bytes.length / blitChunk)).map (fun i => (bytes.drop (blitChunk * i)).take blitChunk) ++
    if bytes.length % blitChunk > 0 then [bytes.drop (blitChunk * (bytes.length / blitChunk))] else []

/-- The body of `BLIT` after its guards (43_buffers.md R171). -/
def blitBody (addr len : Nat) (x y w h : Int) : Op Unit := do
  let data ← memRead addr len
  windowThen x y (x + w - 1) (y + h - 1)
    (pixelPhase (blitChunks (data.take (min len (w * h * 2).toNat))))

/-- The pixels of bits `k-1` down to 0 of the byte `b`, or up to the end of the row if that comes first, and the row
position after them (43_buffers.md R172). -/
def expandBits (width : Nat) (fg bg : Word) (b : Byte) : Nat → Nat → List Byte × Nat
  | 0, rowPos => ([], rowPos)
  | k + 1, rowPos =>
    let c := pixelBytes (if b.getLsbD k then fg else bg)
    if rowPos + 1 ≥ width then (c, 0)
    else
      let rest := expandBits width fg bg b k (rowPos + 1)
      (c ++ rest.1, rest.2)

/-- The loop of `expand` over the source bytes, from row position `rowPos` (43_buffers.md R172). -/
def expandFrom (width : Nat) (fg bg : Word) : Nat → List Byte → List Byte
  | _, [] => []
  | rowPos, b :: bits =>
    let here := expandBits width fg bg b 8 rowPos
    here.1 ++ expandFrom width fg bg here.2 bits

/-- `expand(bits, width, fg, bg)` (43_buffers.md R172). -/
def expand (bits : List Byte) (width : Nat) (fg bg : Word) : List Byte := expandFrom width fg bg 0 bits

/-- The body of `MAPBITS`; its checks in the order written (43_buffers.md R173). -/
def mapbitsBody (src srclen dst dstcap width : Nat) (fg bg : Word) : Op Unit := do
  onlyIf (width = 0) (raise .badOperand 0)
  checkRange src srclen
  checkRange dst dstcap
  let bits ← memRead src srclen
  let out := expand bits width fg bg
  onlyIf (out.length > dstcap) (raise .outOverflow out.length)
  memWrite dst out
  updateResults fun r => { r with r0 := some (toResult ((out.length / 2 : Nat) : Int)) }

/-- `BLIT` (43_buffers.md R171). -/
def execBlit (addr len : DWord) (x y w h : Word) (s : State) : Host.Outcome State Fault Refusal :=
  perform (Instr.blit addr len x y w h).words (do
    guardConfigured
    needGeom
    blitBody (valU32 addr) (valU32 len) (sext16 x) (sext16 y) (sext16 w) (sext16 h)) s

/-- `MAPBITS` (43_buffers.md R173). It needs no configuration. -/
def execMapbits (src srclen dst dstcap : DWord) (width fg bg : Word) (s : State) :
    Host.Outcome State Fault Refusal :=
  perform (Instr.mapbits src srclen dst dstcap width fg bg).words
    (mapbitsBody (valU32 src) (valU32 srclen) (valU32 dst) (valU32 dstcap) (zext16 width) fg bg) s

end Sys2Proof.Machine
end

