-- ==== Sys2Proof/Machine/Color.lean ====
section
/-! DEFINITION. The RGB565 packer: `COLOR565` (46_color.md R230, R231). -/

namespace Sys2Proof.Machine

/-- `((r & 0xF8) << 8) | ((g & 0xFC) << 3) | ((b & 0xF8) >> 3)` on exact integers (46_color.md R231). -/
def pack565 (r g b : Nat) : Nat := ((r &&& 0xF8) <<< 8) ||| ((g &&& 0xFC) <<< 3) ||| ((b &&& 0xF8) >>> 3)

/-- `COLOR565` (46_color.md R231). It needs no configuration. -/
def execColor565 (r g b : Word) (s : State) : Host.Outcome State Fault Refusal :=
  perform (Instr.color565 r g b).words
    (updateResults fun rs => { rs with r0 := some (toResult (pack565 (zext16 r) (zext16 g) (zext16 b) : Nat)) }) s

end Sys2Proof.Machine
end

