-- ==== Sys2Proof/Machine/Orientation.lean ====
section
/-! DEFINITION. Orientation, offsets, MADCTL access and the dirty-box interface: `ROTATION`, `OFFSET`, `MADCTL_GET`,
`MADCTL_SET`, `BOUNDING_GET`, `BOUNDING_SET` (44_orientation_dirtybox.md R182 to R189). -/

namespace Sys2Proof.Machine

/-- The fields `set_rotation()` takes from a rotation record (44_orientation_dirtybox.md R182). -/
def applyRecord (colorOrder : Byte) (rec : RotRec) (d : Display) : Display :=
  { d with
    madctl := some (colorOrder.setWidth 16 ||| rec.madctl)
    width := some rec.width, height := some rec.height
    colstart := some rec.colstart, rowstart := some rec.rowstart }

/-- `set_rotation()` (44_orientation_dirtybox.md R182). The rotation table store has no number of its own; it is unset
exactly when SR7 is (10_state.md R41; log entry 3). -/
def setRotation : Op Unit := do
  let rotation ← need 6 Display.rotation
  let len ← need 7 Display.rotationsLen
  onlyIf (rotation.toNat ≥ len.toNat) (raise .rotRange rotation.toNat)
  let table ← need 7 Display.rot
  match table[rotation.toNat]? with
  | none => raise .rotRange rotation.toNat
  | some rec => do
    let colorOrder ← need 8 Display.colorOrder
    updateDisplay (applyRecord colorOrder rec)
    setGeomValid
    boxReset
    writeCmd cmdMADCTL [lowByte (colorOrder.setWidth 16 ||| rec.madctl)]

/-- `r[0..3] <-` the dirty box, as corners or as a corner and a size (44_orientation_dirtybox.md R188). -/
def readBox (asSize : Bool) : Op Unit := do
  let minX ← need 13 Display.minX
  let minY ← need 14 Display.minY
  let maxX ← need 15 Display.maxX
  let maxY ← need 16 Display.maxY
  let x0 : Int := minX.toNat
  let y0 : Int := minY.toNat
  let x1 : Int := maxX.toNat
  let y1 : Int := maxY.toNat
  updateResults fun _ =>
    { r0 := some (toResult x0)
      r1 := some (toResult y0)
      r2 := some (toResult (if asSize then x1 - x0 + 1 else x1))
      r3 := some (toResult (if asSize then y1 - y0 + 1 else y1)) }

/-- `ROTATION` (44_orientation_dirtybox.md R183). -/
def execRotation (value : Byte) (s : State) : Host.Outcome State Fault Refusal :=
  perform (Instr.rotation value).words (do
    guardConfigured
    updateDisplay fun d => { d with rotation := some (BitVec.ofNat 8 (value.toNat % rotationModulus)) }
    setRotation) s

/-- `OFFSET` (44_orientation_dirtybox.md R185). -/
def execOffset (col row : Word) (s : State) : Host.Outcome State Fault Refusal :=
  perform (Instr.offset col row).words (do
    guardConfigured
    updateDisplay fun d => { d with colstart := some col, rowstart := some row }) s

/-- `MADCTL_GET` (44_orientation_dirtybox.md R186): an unset `madctl`, SR9, raises `UNSET_STATE` with 9. -/
def execMadctlGet (s : State) : Host.Outcome State Fault Refusal :=
  perform Instr.madctlGet.words (do
    guardConfigured
    let madctl ← need 9 Display.madctl
    updateResults fun r => { r with r0 := some (madctl.setWidth 32) }) s

/-- `MADCTL_SET` (44_orientation_dirtybox.md R187). -/
def execMadctlSet (value : Word) (s : State) : Host.Outcome State Fault Refusal :=
  perform (Instr.madctlSet value).words (do
    guardConfigured
    updateDisplay fun d => { d with madctl := some value }
    writeCmd cmdMADCTL [lowByte value]
    updateResults fun r => { r with r0 := some (value.setWidth 32) }) s

/-- `BOUNDING_GET` (44_orientation_dirtybox.md R188). -/
def execBoundingGet (asSize : Bool) (s : State) : Host.Outcome State Fault Refusal :=
  perform (Instr.boundingGet asSize).words (do
    guardConfigured
    needGeom
    readBox asSize) s

/-- `BOUNDING_SET` (44_orientation_dirtybox.md R189): the box is read before it is reset. -/
def execBoundingSet (asSize enable : Bool) (s : State) : Host.Outcome State Fault Refusal :=
  perform (Instr.boundingSet asSize enable).words (do
    guardConfigured
    needGeom
    readBox asSize
    updateDisplay fun d => { d with bounding := some enable }
    boxReset) s

end Sys2Proof.Machine
end

