-- ==== Sys2Proof/Machine/Primitives.lean ====
section
/-! DEFINITION. Primitive drawing: `PIXEL`, `HLINE`, `VLINE`, `RECT`, `FILL_RECT`, `FILL` (41_primitives.md R140 to R148). -/

namespace Sys2Proof.Machine

/-! ## Procedures -/

/-- A coordinate under a wrap flag: the mathematical modulo when it lies outside `[0, size)` (41_primitives.md R140,
00_scope.md R10; `Int.emod` by a positive divisor is that modulo). -/
def wrapCoord (wrap : Bool) (v : Int) (size : Word) : Int :=
  if wrap ∧ ¬ (0 ≤ v ∧ v < (size.toNat : Int)) then v % (size.toNat : Int) else v

/-- `draw_pixel(x, y, color)` (41_primitives.md R140). -/
def drawPixel (x y : Int) (color : Word) : Op Unit := do
  let options ← need 11 Display.options
  let width ← need 2 Display.width
  let height ← need 3 Display.height
  let x := wrapCoord (wrapH options) x width
  let y := wrapCoord (wrapV options) y height
  onlyIf (0 ≤ x ∧ x < (width.toNat : Int) ∧ 0 ≤ y ∧ y < (height.toNat : Int))
    (windowThen x y x y (pixelPhase [pixelBytes color]))

/-- The clip of a run that starts at `start` and has `len` pixels to `[0, size)`: first the low edge, then the high edge
(41_primitives.md R142, R144). The answer is the clipped start and length. -/
def clipRun (start len : Int) (size : Word) : Int × Int :=
  let low := if start < 0 then (0, len + start) else (start, len)
  let high := if low.1 + low.2 > (size.toNat : Int) then (size.toNat : Int) - low.1 else low.2
  (low.1, high)

/-- `fast_hline(x, y, w, color)` (41_primitives.md R142). -/
def fastHline (x y w : Int) (color : Word) : Op Unit := do
  let options ← need 11 Display.options
  let width ← need 2 Display.width
  let height ← need 3 Display.height
  if wrapAny options = false then
    onlyIf (0 ≤ y ∧ y < (height.toNat : Int) ∧ x < (width.toNat : Int)) (
      let run := clipRun x w width
      onlyIf (run.2 > 0) (windowThen run.1 y (run.1 + run.2 - 1) y (stream color run.2.toNat)))
  else
    forEach (List.range w.toNat) fun d => drawPixel (x + (d : Int)) y color

/-- `fast_vline(x, y, h, color)` (41_primitives.md R144). -/
def fastVline (x y h : Int) (color : Word) : Op Unit := do
  let options ← need 11 Display.options
  let width ← need 2 Display.width
  let height ← need 3 Display.height
  if wrapAny options = false then
    onlyIf (0 ≤ x ∧ x < (width.toNat : Int) ∧ y < (height.toNat : Int)) (
      let run := clipRun y h height
      onlyIf (run.2 > 0) (windowThen x run.1 x (run.1 + run.2 - 1) (stream color run.2.toNat)))
  else
    forEach (List.range h.toNat) fun d => drawPixel x (y + (d : Int)) color

/-- The four edges of a rectangle outline: top, left, bottom, right (41_primitives.md R146). -/
def drawRect (x y w h : Int) (color : Word) : Op Unit := do
  fastHline x y w color
  fastVline x y h color
  fastHline x (y + h - 1) w color
  fastVline (x + w - 1) y h color

/-- The body of `FILL_RECT`, with the soft edge as written: the clip is to `width` and `height`, not to one less
(41_primitives.md R147). -/
def fillRectBody (x y w h : Int) (color : Word) : Op Unit := do
  let width ← need 2 Display.width
  let height ← need 3 Display.height
  let right := min (x + w - 1) (width.toNat : Int)
  let bottom := min (y + h - 1) (height.toNat : Int)
  onlyIf (x < (width.toNat : Int) ∧ y < (height.toNat : Int))
    (windowThen x y right bottom (stream color (w * h).toNat))

/-- The whole active area in one colour (41_primitives.md R148); also the clear of `INIT` (45_lifecycle.md R206). -/
def fillScreen (color : Word) : Op Unit := do
  let width ← need 2 Display.width
  let height ← need 3 Display.height
  windowThen 0 0 ((width.toNat : Int) - 1) ((height.toNat : Int) - 1)
    (stream color (width.toNat * height.toNat))

/-! ## Operations -/

/-- `PIXEL` (41_primitives.md R141). -/
def execPixel (x y color : Word) (s : State) : Host.Outcome State Fault Refusal :=
  perform (Instr.pixel x y color).words (do
    guardConfigured
    needGeom
    drawPixel (sext16 x) (sext16 y) color) s

/-- `HLINE` (41_primitives.md R143). -/
def execHline (x y w color : Word) (s : State) : Host.Outcome State Fault Refusal :=
  perform (Instr.hline x y w color).words (do
    guardConfigured
    needGeom
    fastHline (sext16 x) (sext16 y) (sext16 w) color) s

/-- `VLINE` (41_primitives.md R145). -/
def execVline (x y h color : Word) (s : State) : Host.Outcome State Fault Refusal :=
  perform (Instr.vline x y h color).words (do
    guardConfigured
    needGeom
    fastVline (sext16 x) (sext16 y) (sext16 h) color) s

/-- `RECT` (41_primitives.md R146). -/
def execRect (x y w h color : Word) (s : State) : Host.Outcome State Fault Refusal :=
  perform (Instr.rect x y w h color).words (do
    guardConfigured
    needGeom
    drawRect (sext16 x) (sext16 y) (sext16 w) (sext16 h) color) s

/-- `FILL_RECT` (41_primitives.md R147). -/
def execFillRect (x y w h color : Word) (s : State) : Host.Outcome State Fault Refusal :=
  perform (Instr.fillRect x y w h color).words (do
    guardConfigured
    needGeom
    fillRectBody (sext16 x) (sext16 y) (sext16 w) (sext16 h) color) s

/-- `FILL` (41_primitives.md R148). -/
def execFill (color : Word) (s : State) : Host.Outcome State Fault Refusal :=
  perform (Instr.fill color).words (do
    guardConfigured
    needGeom
    fillScreen color) s

end Sys2Proof.Machine
end

