-- ==== Sys2Proof/Machine/Lifecycle.lean ====
section
/-! DEFINITION. Construction, initialisation, resets of the panel, panel control and scroll: `CONFIG`, `INIT`,
`HARD_RESET`, `SOFT_RESET`, `SLEEP_MODE`, `INVERSION_MODE`, `ON`, `OFF`, `VSCRDEF`, `VSCSAD` (45_lifecycle.md R200 to
R213). -/

namespace Sys2Proof.Machine

/-! ## The custom-init script -/

/-- The loop of `parse_script` over the script `b`, from offset `o` (45_lifecycle.md R202). An ill-formed entry answers
its offset. Every entry takes at least three bytes, so a fuel of `b.length` iterations is never used up. -/
def parseEntries (b : List Byte) : Nat → Nat → Except Nat (List ScriptEntry)
  | 0, o => if o < b.length then .error o else .ok []
  | fuel + 1, o =>
    if o < b.length then
      if o + 2 > b.length then .error o
      else
        let n := (b.getD o 0).toNat
        let flags := b.getD (o + 1) 0
        let hasDelay := flags.getLsbD 0
        let size := 2 + n + (if hasDelay then 2 else 0)
        if n = 0 ∨ flags &&& 0xFE ≠ 0 ∨ o + size > b.length then .error o
        else
          let entry : ScriptEntry :=
            { cmd := b.getD (o + 2) 0
              data := (b.drop (o + 3)).take (n - 1)
              delay := if hasDelay then some (b.getD (o + n + 2) 0 ++ b.getD (o + n + 3) 0) else none }
          match parseEntries b fuel (o + size) with
          | .ok entries => .ok (entry :: entries)
          | .error e => .error e
    else .ok []

/-- Does a script of `len` bytes exceed the store's capacity (45_lifecycle.md R202)? -/
def exceedsCap (cap : Option Nat) (len : Nat) : Bool :=
  match cap with
  | none => false
  | some c => decide (c < len)

/-- `if len > CINIT_CAP then raise Fault(CFG_SCRIPT, len)` (45_lifecycle.md R202). -/
def checkScriptCap (len : Nat) : Op Unit := fun s =>
  if exceedsCap s.params.cinitCap len then .error ⟨.cfgScript, len⟩ s else .ok () s

/-- `parse_script(addr, len)` (45_lifecycle.md R202). -/
def parseScript (addr len : Nat) : Op (List ScriptEntry) := do
  checkRange addr len
  checkScriptCap len
  let b ← memRead addr len
  match parseEntries b b.length 0 with
  | .ok entries => pure entries
  | .error o => raise .cfgScript o

/-! ## Construction -/

/-- `PRESETS(display_width, display_height)`: the first entry for that size (44_orientation_dirtybox.md R181). -/
def findPreset (presets : List Preset) (dw dh : Word) : Option (List RotRec) :=
  match presets with
  | [] => none
  | p :: ps => if p.displayWidth = dw ∧ p.displayHeight = dh then some p.records.toList else findPreset ps dw dh

/-- The built-in table for a panel size, or `Fault(CFG_ROT_TABLE, 0)` (45_lifecycle.md R201). -/
def presetTable (dw dh : Word) : Op (List RotRec) := fun s =>
  match findPreset s.params.presets dw dh with
  | some table => .ok table s
  | none => .error ⟨.cfgRotTable, 0⟩ s

/-- The table of a `CONFIG`: the built-in one when `nrec = 0`, else the caller's records (45_lifecycle.md R201). -/
def chooseTable (nrec dw dh : Word) (recs : List RotRec) : Op (List RotRec) :=
  if nrec = 0 then presetTable dw dh else pure recs

/-- A record that would make the active area empty (44_orientation_dirtybox.md R184). -/
def RotRec.isEmptyArea (r : RotRec) : Bool := r.width == 0 || r.height == 0

/-- The index of the first record with `width = 0` or `height = 0` (45_lifecycle.md R201). -/
def firstEmptyArea (table : List RotRec) : Option Nat := table.findIdx? RotRec.isEmptyArea

/-- `Fault(CFG_ROT_TABLE, 65536 + i)` for the first bad record `i` (45_lifecycle.md R201). -/
def checkTable (table : List RotRec) : Op Unit :=
  match firstEmptyArea table with
  | some i => raise .cfgRotTable (65536 + i)
  | none => pure ()

/-- The script of a `CONFIG`: the parsed one when flag `ci` is set, else absent (45_lifecycle.md R201). -/
def chooseScript (ci : Bool) (ciAddr ciLen : Nat) : Op CustomInit :=
  if ci = true then do
    let entries ← parseScript ciAddr ciLen
    pure (.script entries)
  else pure .absent

/-- The Display that `CONFIG` writes; the fields it does not write keep what they hold (45_lifecycle.md R201). -/
def configuredDisplay (f : ConfigFlags) (dw dh rotation options : Word) (table : List RotRec) (script : CustomInit)
    (d : Display) : Display :=
  { d with
    displayWidth := some dw, displayHeight := some dh
    rot := some table
    rotationsLen := some (BitVec.ofNat 8 table.length)
    rotation := some (BitVec.ofNat 8 (rotation.toNat % table.length))
    options := some (lowByte options)
    colorOrder := some (if f.bgr then orderBGR else orderRGB)
    inversion := some f.inv
    csPresent := some f.cs, rstPresent := some f.rst, blPresent := some f.bl
    bounding := some false
    cinit := some script }

/-- The `RECONFIG` test of `CONFIG` (60_exceptions.md R254). -/
def guardUnconfigured : Op Unit := fun s =>
  if s.configured then .error ⟨.reconfig, 0⟩ s else .ok () s

/-- The body of `CONFIG`; its tests in the order written (45_lifecycle.md R201). -/
def configBody (f : ConfigFlags) (dw dh rotation options nrec : Word) (ciAddr ciLen : Nat) (recs : List RotRec) :
    Op Unit := do
  guardUnconfigured
  onlyIf (f.dc = false) (raise .cfgNoDc 0)
  onlyIf (nrec.toNat > nrecMax) (raise .cfgRotTable nrec.toNat)
  let table ← chooseTable nrec dw dh recs
  checkTable table
  let script ← chooseScript f.ci ciAddr ciLen
  updateDisplay (configuredDisplay f dw dh rotation options table script)
  setConfigured

/-! ## Resets and initialisation -/

/-- `hard_reset()` (45_lifecycle.md R203): it resets the panel, not the sequencer. -/
def hardReset : Op Unit := do
  pin .cs false
  pin .rst true
  delay delayResetPulse
  pin .rst false
  delay delayResetPulse
  pin .rst true
  delay delayResetEnd
  pin .cs true

/-- `soft_reset()` (45_lifecycle.md R204). -/
def softReset : Op Unit := do
  writeCmd cmdSWRESET []
  delay delaySoftReset

/-- The inversion command for a flag (45_lifecycle.md R205, R208). -/
def inversionCmd (on : Bool) : Byte := if on then cmdINVON else cmdINVOFF

/-- `default_init()` (45_lifecycle.md R205). -/
def defaultInit : Op Unit := do
  softReset
  writeCmd cmdSLPOUT []
  writeCmd cmdCOLMOD [colmodValue]
  delay delaySettle
  let inversion ← need 10 Display.inversion
  writeCmd (inversionCmd inversion) []
  writeCmd cmdNORON []
  delay delaySettle
  writeCmd cmdDISPON []
  delay delayDisplayOn

/-- One entry of a custom script: "write (cmd, data), 10 ms, optional user delay" (45_lifecycle.md R206). -/
def runEntry (e : ScriptEntry) : Op Unit := do
  writeCmd e.cmd e.data
  delay delaySettle
  match e.delay with
  | none => pure ()
  | some d => delay d.toNat

/-- The panel's own initialisation: the default sequence, or the custom script that replaces it (45_lifecycle.md R206). -/
def panelInit : CustomInit → Op Unit
  | .absent => defaultInit
  | .script entries => forEach entries runEntry

/-- The number recorded if the custom-init store were read unset; the store has no `SR` number (log entry 3). -/
def srCinit : Nat := 20

/-- The body of `INIT` (45_lifecycle.md R206). -/
def initBody : Op Unit := do
  hardReset
  let cinit ← need srCinit Display.cinit
  panelInit cinit
  setRotation
  delay delaySettle
  fillScreen colorBLACK
  pin .bl true

/-! ## Operations -/

/-- `CONFIG` (45_lifecycle.md R201). It emits no event. -/
def execConfig (f : ConfigFlags) (dw dh rotation options nrec : Word) (ciAddr ciLen : DWord) (table : List RotRec)
    (s : State) : Host.Outcome State Fault Refusal :=
  perform (Instr.config f dw dh rotation options nrec ciAddr ciLen table).words
    (configBody f dw dh rotation options nrec (valU32 ciAddr) (valU32 ciLen) table) s

/-- `INIT` (45_lifecycle.md R206). -/
def execInit (s : State) : Host.Outcome State Fault Refusal :=
  perform Instr.init.words (do
    guardConfigured
    initBody) s

/-- `HARD_RESET` (45_lifecycle.md R203). -/
def execHardReset (s : State) : Host.Outcome State Fault Refusal :=
  perform Instr.hardReset.words (do
    guardConfigured
    hardReset) s

/-- `SOFT_RESET` (45_lifecycle.md R204). -/
def execSoftReset (s : State) : Host.Outcome State Fault Refusal :=
  perform Instr.softReset.words (do
    guardConfigured
    softReset) s

/-- `SLEEP_MODE` (45_lifecycle.md R207). -/
def execSleepMode (on : Bool) (s : State) : Host.Outcome State Fault Refusal :=
  perform (Instr.sleepMode on).words (do
    guardConfigured
    writeCmd (if on then cmdSLPIN else cmdSLPOUT) []) s

/-- `INVERSION_MODE` (45_lifecycle.md R208). -/
def execInversionMode (on : Bool) (s : State) : Host.Outcome State Fault Refusal :=
  perform (Instr.inversionMode on).words (do
    guardConfigured
    updateDisplay fun d => { d with inversion := some on }
    writeCmd (inversionCmd on) []) s

/-- `ON` (45_lifecycle.md R209). -/
def execOn (s : State) : Host.Outcome State Fault Refusal :=
  perform Instr.on.words (do
    guardConfigured
    pin .bl true
    delay delaySettle) s

/-- `OFF` (45_lifecycle.md R210). -/
def execOff (s : State) : Host.Outcome State Fault Refusal :=
  perform Instr.off.words (do
    guardConfigured
    pin .bl false
    delay delaySettle) s

/-- `VSCRDEF` (45_lifecycle.md R211). -/
def execVscrdef (tfa vsa bfa : Word) (s : State) : Host.Outcome State Fault Refusal :=
  perform (Instr.vscrdef tfa vsa bfa).words (do
    guardConfigured
    writeCmd cmdVSCRDEF (be16 tfa.toNat ++ be16 vsa.toNat ++ be16 bfa.toNat)) s

/-- `VSCSAD` (45_lifecycle.md R212). -/
def execVscsad (vssa : Word) (s : State) : Host.Outcome State Fault Refusal :=
  perform (Instr.vscsad vssa).words (do
    guardConfigured
    writeCmd cmdVSCSAD (be16 vssa.toNat)) s

end Sys2Proof.Machine
end

