-- ==== Sys2Proof/Machine/Line.lean ====
section
/-! DEFINITION. The Bresenham line rasterizer: `LINE` (42_line.md R160 to R165). The loop of R161 reads no state field, so
its runs are computed first, as data, and then flushed in order; the events and state writes are those of flushing inside
the loop (log entry 13). -/

namespace Sys2Proof.Machine

/-- A run in the swapped frame: `dlen` pixels from major coordinate `xs` on, at minor coordinate `y` (R161, R162). -/
structure Run where
  xs   : Int
  y    : Int
  dlen : Nat
deriving DecidableEq, Repr

/-- A line after the two swaps of R161: `steep` says the axes were exchanged, and `x0 ≤ x1`. -/
structure Line where
  steep : Bool
  x0    : Int
  y0    : Int
  x1    : Int
  y1    : Int
deriving DecidableEq, Repr

/-- The two swaps of R161: exchange the axes of a steep line, then order the endpoints. -/
def orientLine (x0 y0 x1 y1 : Int) : Line :=
  let steep : Bool := decide (|y1 - y0| > |x1 - x0|)
  let p := if steep then (y0, x0) else (x0, y0)
  let q := if steep then (y1, x1) else (x1, y1)
  if p.1 > q.1 then ⟨steep, q.1, q.2, p.1, p.2⟩ else ⟨steep, p.1, p.2, q.1, q.2⟩

/-- `dx`, the extent along the major axis (R161). -/
def Line.dx (l : Line) : Int := l.x1 - l.x0

/-- `dy`, the extent along the minor axis (R161). -/
def Line.dy (l : Line) : Int := |l.y1 - l.y0|

/-- `ystep` (R161). -/
def Line.ystep (l : Line) : Int := if l.y0 < l.y1 then 1 else -1

/-- The loop of R161 with `n` iterations left: `x` is the loop variable, `err` the error term, `y` the minor coordinate,
`xs` and `dlen` the current run. The answer is the runs in flush order, the drained one last. -/
def runsFrom (dx dy ystep : Int) : Nat → Int → Int → Int → Int → Nat → List Run
  | 0, _, _, y, xs, dlen => if dlen > 0 then [⟨xs, y, dlen⟩] else []
  | n + 1, x, err, y, xs, dlen =>
    if err - dy < 0 then
      ⟨xs, y, dlen + 1⟩ :: runsFrom dx dy ystep n (x + 1) (err - dy + dx) (y + ystep) (x + 1) 0
    else runsFrom dx dy ystep n (x + 1) (err - dy) y xs (dlen + 1)

/-- The runs of a line, `dx + 1` iterations from the start values of R161. -/
def Line.runs (l : Line) : List Run :=
  runsFrom l.dx l.dy l.ystep (l.dx + 1).toNat l.x0 (l.dx / 2) l.y0 l.x0 0

/-- `flush_run(steep, xs, y, dlen, color)` (42_line.md R162). -/
def flushRun (steep : Bool) (color : Word) (r : Run) : Op Unit :=
  if steep = false then
    if r.dlen = 1 then drawPixel r.xs r.y color else fastHline r.xs r.y r.dlen color
  else
    if r.dlen = 1 then drawPixel r.y r.xs color else fastVline r.y r.xs r.dlen color

/-- All runs of a line, flushed in order (R161). -/
def drawLine (l : Line) (color : Word) : Op Unit := forEach l.runs (flushRun l.steep color)

/-- `LINE` (42_line.md R161). -/
def execLine (x0 y0 x1 y1 color : Word) (s : State) : Host.Outcome State Fault Refusal :=
  perform (Instr.line x0 y0 x1 y1 color).words (do
    guardConfigured
    needGeom
    drawLine (orientLine (sext16 x0) (sext16 y0) (sext16 x1) (sext16 y1)) color) s

end Sys2Proof.Machine
end

