-- ==== Sys2Proof/Machine/Dispatch.lean ====
section
/-! DEFINITION. The meaning of every instruction: one arm per constructor of `Instr`, one direct call each. -/

namespace Sys2Proof.Machine

/-- The operation's rule (70_reset_and_hazards.md R272, "execute the operation's rule"). -/
def exec (i : Instr) (s : State) : Host.Outcome State Fault Refusal :=
  match i with
  -- command writer, window driver, fill engine
  | .writeCmd cmd addr len => Sys2Proof.Machine.execWriteCmd cmd addr len s
  | .setWindow x0 y0 x1 y1 => Sys2Proof.Machine.execSetWindow x0 y0 x1 y1 s
  | .fillBuf color n => Sys2Proof.Machine.execFillBuf color n s
  -- primitive drawing
  | .pixel x y color => Sys2Proof.Machine.execPixel x y color s
  | .hline x y w color => Sys2Proof.Machine.execHline x y w color s
  | .vline x y h color => Sys2Proof.Machine.execVline x y h color s
  | .rect x y w h color => Sys2Proof.Machine.execRect x y w h color s
  | .fillRect x y w h color => Sys2Proof.Machine.execFillRect x y w h color s
  | .fill color => Sys2Proof.Machine.execFill color s
  | .line x0 y0 x1 y1 color => Sys2Proof.Machine.execLine x0 y0 x1 y1 color s
  | .blit addr len x y w h => Sys2Proof.Machine.execBlit addr len x y w h s
  | .mapbits src srclen dst dstcap width fg bg => Sys2Proof.Machine.execMapbits src srclen dst dstcap width fg bg s
  -- orientation and dirty box
  | .rotation value => Sys2Proof.Machine.execRotation value s
  | .offset col row => Sys2Proof.Machine.execOffset col row s
  | .madctlGet => Sys2Proof.Machine.execMadctlGet s
  | .madctlSet value => Sys2Proof.Machine.execMadctlSet value s
  | .boundingGet asSize => Sys2Proof.Machine.execBoundingGet asSize s
  | .boundingSet asSize enable => Sys2Proof.Machine.execBoundingSet asSize enable s
  -- lifecycle
  | .config flags dw dh rotation options nrec ciAddr ciLen table => Sys2Proof.Machine.execConfig flags dw dh rotation options nrec ciAddr ciLen table s
  | .init => Sys2Proof.Machine.execInit s
  | .hardReset => Sys2Proof.Machine.execHardReset s
  | .softReset => Sys2Proof.Machine.execSoftReset s
  | .sleepMode asleep => Sys2Proof.Machine.execSleepMode asleep s
  | .inversionMode inverted => Sys2Proof.Machine.execInversionMode inverted s
  | .on => Sys2Proof.Machine.execOn s
  | .off => Sys2Proof.Machine.execOff s
  | .vscrdef tfa vsa bfa => Sys2Proof.Machine.execVscrdef tfa vsa bfa s
  | .vscsad vssa => Sys2Proof.Machine.execVscsad vssa s
  -- colour
  | .color565 r g b => Sys2Proof.Machine.execColor565 r g b s

end Sys2Proof.Machine
end

