-- ==== Sys2Proof/Machine/Fetch.lean ====
section
/-! DEFINITION. Descriptor fetch: what the sequencer reads at `pc` (70_reset_and_hazards.md R272), and the placing of an
instruction's words there. -/

namespace Sys2Proof.Machine

/-- What stands at `pc` in the command stream (20_memory.md R61). A `pc` beyond the stream, which no run reaches, reads
no header word (log entry 20). -/
def fetch (s : State) : Decoded := decode (s.prog.drop s.pc)

/-- An illegal header raises `Fault(ILLEGAL_OP, header)`: no operand word is read, nothing else changes (60_exceptions.md
R241). -/
def illegalHeader (h : Word) (s : State) : Host.Outcome State Fault Refusal :=
  .next (enterFault .illegalOp h.toNat s)

/-- The command stream `prog` with the words `ws` at index `pc`; a stream that ends before `pc` is first filled up to it
with zero words. -/
def placeWords (prog : List Word) (pc : Nat) (ws : List Word) : List Word :=
  prog.take pc ++ List.replicate (pc - prog.length) 0 ++ ws ++ prog.drop (pc + ws.length)

end Sys2Proof.Machine
end

