-- ==== Sys2Proof/Machine/Step.lean ====
section
/-! DEFINITION. The step (70_reset_and_hazards.md R272), and the placing of one instruction where the step fetches. -/

namespace Sys2Proof.Machine

/-- One step: decode the descriptor at `pc` and perform the whole operation (00_scope.md R16, 70_reset_and_hazards.md
R272). The three answers `.fault` are the three ends of a run, in which there is no step (70_reset_and_hazards.md R274). -/
def step (s : State) : Host.Outcome State Fault Refusal :=
  if s.fault then .fault .faulted
  else
    match fetch s with
    | .ok i _ => exec i s
    | .illegal h => illegalHeader h s
    | .truncated => .fault .stuck
    | .noWord => .fault .completed

/-- `s` with the instruction whose bits are the lowest `nbits` bits of `w` (every other bit 0) in the command stream at
`pc`. It stands for the host's choice of `PROG` before a run (70_reset_and_hazards.md R273, R283; log entries 5, 17). -/
def State.withFetchWord (s : State) (nbits w : Nat) : State :=
  { s with prog := placeWords s.prog s.pc (tableWords nbits w) }

end Sys2Proof.Machine
end

