-- ==== Sys2Proof/Machine/HostPort.lean ====
section
/-! DEFINITION. The host's read port (70_reset_and_hazards.md R283, 47_arithmetic_control_system.md R239): what a run's
status is, and what the host may read when the sequencer is not executing. The host has no write port. -/

namespace Sys2Proof.Machine

/-- Where a run stands (70_reset_and_hazards.md R274, 60_exceptions.md R267). -/
inductive RunStatus where
  /-- there is a step -/
  | running
  /-- idle: every operation of the stream was performed -/
  | completed
  | faulted
  | stuck
deriving DecidableEq, Repr

/-- The status of a run in a state (70_reset_and_hazards.md R274). -/
def runStatus (s : State) : RunStatus :=
  if s.fault then .faulted
  else
    match fetch s with
    | .ok _ _ => .running
    | .illegal _ => .running
    | .truncated => .stuck
    | .noWord => .completed

/-- What the read port answers: a number, "holds no value", no such register, or no access while there is a step. -/
inductive PortAnswer where
  | value (v : Nat)
  | unset
  | noRegister
  | busy
deriving DecidableEq, Repr

/-- A field as the port shows it. -/
def portWord {n : Nat} (v : Option (BitVec n)) : PortAnswer :=
  match v with
  | some v => .value v.toNat
  | none => .unset

/-- A one-bit field as the port shows it. -/
def portBit (v : Option Bool) : PortAnswer :=
  match v with
  | some v => .value v.toNat
  | none => .unset

/-- The Display field with number `n` (10_state.md section 4). -/
def Display.readSR (d : Display) (n : Nat) : PortAnswer :=
  match n with
  | 0 => portWord d.displayWidth
  | 1 => portWord d.displayHeight
  | 2 => portWord d.width
  | 3 => portWord d.height
  | 4 => portWord d.colstart
  | 5 => portWord d.rowstart
  | 6 => portWord d.rotation
  | 7 => portWord d.rotationsLen
  | 8 => portWord d.colorOrder
  | 9 => portWord d.madctl
  | 10 => portBit d.inversion
  | 11 => portWord d.options
  | 12 => portBit d.bounding
  | 13 => portWord d.minX
  | 14 => portWord d.minY
  | 15 => portWord d.maxX
  | 16 => portWord d.maxY
  | 17 => portBit d.csPresent
  | 18 => portBit d.rstPresent
  | 19 => portBit d.blPresent
  | _ => .noRegister

/-- Result register `n` as its 32 bits (10_state.md R22). -/
def Results.read (r : Results) (n : Nat) : PortAnswer :=
  match n with
  | 0 => portWord r.r0
  | 1 => portWord r.r1
  | 2 => portWord r.r2
  | 3 => portWord r.r3
  | _ => .noRegister

/-- The host reads only when the sequencer is idle, faulted or stuck (70_reset_and_hazards.md R283). -/
def whenStopped (s : State) (answer : PortAnswer) : PortAnswer :=
  if runStatus s = .running then .busy else answer

/-- The host reads a Display field by its `SR` number. -/
def hostReadSR (s : State) (n : Nat) : PortAnswer := whenStopped s (s.display.readSR n)

/-- The host reads a result register. -/
def hostReadResult (s : State) (n : Nat) : PortAnswer := whenStopped s (s.results.read n)

/-- The host reads `pc`. -/
def hostReadPc (s : State) : PortAnswer := whenStopped s (.value s.pc)

/-- The host reads the flags, in the order of 10_state.md R25: `configured`, `geom_valid`, `fault`, `cause`, `info`. -/
def hostReadFlag (s : State) (n : Nat) : PortAnswer :=
  whenStopped s (match n with
    | 0 => .value s.configured.toNat
    | 1 => .value s.geomValid.toNat
    | 2 => .value s.fault.toNat
    | 3 => .value s.cause.toNat
    | 4 => .value s.info.toNat
    | _ => .noRegister)

/-- The host reads a byte of `BMEM`. -/
def hostReadByte (s : State) (a : Nat) : PortAnswer :=
  whenStopped s (if a < s.params.bmemSize then .value (readByte s.bmem a).toNat else .noRegister)

end Sys2Proof.Machine
end

