-- ==== Sys2Proof/Machine/Observer.lean ====
section
/-! DEFINITION. The wire of a trace (20_memory.md R66), the reference observer `FB` (20_memory.md R82) and the lit set of an
operation (R83). None is part of the sequencer and no operation depends on them. -/

namespace Sys2Proof.Machine

/-! ## The wire -/

/-- The wire from a point of the scan on: `dc` is the level last written (`none` is "unknown"), `k` the number of transfers
before it. `delivered k` is how many bytes of a failed transfer number `k` reached the panel; the spec leaves it open
(93_implementation_defined.md U7; log entry 9). -/
def wireFrom (delivered : Nat → Nat) (dc : Option Bool) (k : Nat) : List Event → List (Option Bool × Byte)
  | [] => []
  | .pin .dc l :: t => wireFrom delivered (some l) k t
  | .pin .cs _ :: t => wireFrom delivered dc k t
  | .pin .rst _ :: t => wireFrom delivered dc k t
  | .pin .bl _ :: t => wireFrom delivered dc k t
  | .delay _ :: t => wireFrom delivered dc k t
  | .spi bytes :: t => bytes.map (fun b => (dc, b)) ++ wireFrom delivered dc (k + 1) t
  | .spiFail bytes :: t =>
    (bytes.take (delivered k)).map (fun b => (dc, b)) ++ wireFrom delivered dc (k + 1) t

/-- The wire of a whole trace (20_memory.md R66). -/
def wire (delivered : Nat → Nat) (t : List Event) : List (Option Bool × Byte) := wireFrom delivered none 0 t

/-! ## The reference observer -/

/-- The observer's state (20_memory.md R82): window, write pointer, last command byte, byte buffer, and `FB` as the list of
deposits, newest first. What it holds at the start is its user's argument (log entry 10). -/
structure Observer where
  xs  : Nat
  xe  : Nat
  ys  : Nat
  ye  : Nat
  cx  : Nat
  cy  : Nat
  cmd : Option Byte
  buf : List Byte
  fb  : List ((Nat × Nat) × Word)
deriving DecidableEq, Repr

/-- A big-endian 16-bit value of two bytes. -/
def joinBytes (hi lo : Byte) : Word := hi ++ lo

/-- The write pointer after one deposit: column by column, then row by row, back to the start after the last row. -/
def Observer.advance (o : Observer) : Observer :=
  if o.cx + 1 > o.xe then
    { o with cx := o.xs, cy := if o.cy + 1 > o.ye then o.ys else o.cy + 1 }
  else { o with cx := o.cx + 1 }

/-- One command byte. -/
def Observer.command (o : Observer) (b : Byte) : Observer :=
  let o := { o with cmd := some b, buf := [] }
  if b = cmdRAMWR then { o with cx := o.xs, cy := o.ys } else o

/-- One data byte, by the last command (20_memory.md R82). -/
def Observer.data (o : Observer) (b : Byte) : Observer :=
  if o.cmd = some cmdCASET then
    match o.buf with
    | [a, b', c] => { o with buf := [a, b', c, b], xs := (joinBytes a b').toNat, xe := (joinBytes c b).toNat }
    | buf => { o with buf := buf ++ [b] }
  else if o.cmd = some cmdRASET then
    match o.buf with
    | [a, b', c] => { o with buf := [a, b', c, b], ys := (joinBytes a b').toNat, ye := (joinBytes c b).toNat }
    | buf => { o with buf := buf ++ [b] }
  else if o.cmd = some cmdRAMWR then
    match o.buf with
    | [a] => Observer.advance { o with fb := ((o.cx, o.cy), joinBytes a b) :: o.fb, buf := [] }
    | buf => { o with buf := buf ++ [b] }
  else o

/-- One byte of the wire. -/
def Observer.byte (o : Observer) (w : Option Bool × Byte) : Observer :=
  match w.1 with
  | some false => o.command w.2
  | some true => o.data w.2
  | none => o

/-- The observer after a wire. -/
def Observer.run (o : Observer) (ws : List (Option Bool × Byte)) : Observer := ws.foldl Observer.byte o

/-- `FB[(column, row)]`: the newest deposit there. -/
def Observer.pixelAt (o : Observer) (column row : Nat) : Option Word := o.fb.lookup (column, row)

/-! ## Lit pixels -/

/-- What was written to `FB` by a wire, newest first (20_memory.md R83: "changed or was re-written"). -/
def Observer.deposits (o : Observer) (ws : List (Option Bool × Byte)) : List ((Nat × Nat) × Word) :=
  (Observer.run { o with fb := [] } ws).fb

/-- The part of a run's wire between an earlier and a later state of it: the later wire without the earlier one, which it
begins with (20_memory.md R66, R76). -/
def wireBetween (delivered : Nat → Nat) (s t : State) : List (Option Bool × Byte) :=
  (wire delivered t.trace).drop (wire delivered s.trace).length

/-- What `FB` was given between two states of a run: the observer, at `o` before the run's first byte, has seen the wire up
to the earlier state and then sees the rest. -/
def depositsBetween (o : Observer) (delivered : Nat → Nat) (s t : State) : List ((Nat × Nat) × Word) :=
  (o.run (wire delivered s.trace)).deposits (wireBetween delivered s t)

/-- The lit set between two states (20_memory.md R83), as the colour last written at `(x + S.colstart, y + S.rowstart)`;
`none` means that the logical pixel `(x, y)` is not in it. `S` is the earlier state, the one the operation is run from;
where its offsets hold no value no logical pixel has a place, and the set is empty (log entry 22). -/
def litBetween (o : Observer) (delivered : Nat → Nat) (s t : State) (x y : Int) : Option Word :=
  match s.display.colstart, s.display.rowstart with
  | some c, some r =>
    if 0 ≤ x + c.toNat ∧ 0 ≤ y + r.toNat then
      (depositsBetween o delivered s t).lookup ((x + c.toNat).toNat, (y + r.toNat).toNat)
    else none
  | _, _ => none

/-- The lit set of an operation run from a state, with the colour written at each of its pixels (20_memory.md R83). -/
def operationLit (o : Observer) (delivered : Nat → Nat) (i : Instr) (s : State) (x y : Int) : Option Word :=
  match exec i s with
  | .next t => litBetween o delivered s t x y
  | .fault _ => none
  | .refused _ => none

end Sys2Proof.Machine
end

