-- ==== Sys2Proof/Safety.lean ====
section
/-! DEFINITION. The terms the statements use: the invariant of every run, the conditions under which an operation completes,
and what a completed operation leaves, written as data (events, windows, draws) and not as pseudocode. -/

namespace Sys2Proof.Safety

open Sys2Proof.Machine

/-! ## The invariant of every run -/

/-- The panel sizes that may have a built-in table (44_orientation_dirtybox.md R181). -/
def presetSizes : List (Nat × Nat) :=
  [(240, 320), (240, 280), (170, 320), (240, 240), (135, 240), (128, 160), (80, 160), (128, 128)]

/-- The parameters are as the spec constrains them: `0 <= BMEM_SIZE <= 2^32`, `PRESETS` within the eight sizes, and record
0 of 240x320 as scenario S1 shows it (00_scope.md R8, 44_orientation_dirtybox.md R181). -/
abbrev ParamsOk (p : Params) : Prop :=
  p.bmemSize ≤ 2 ^ 32 ∧
  (∀ t ∈ p.presets, (t.displayWidth.toNat, t.displayHeight.toNat) ∈ presetSizes) ∧
  (∀ t ∈ p.presets, t.displayWidth = 240 ∧ t.displayHeight = 320 → t.records[0] = ⟨0, 240, 320, 0, 0⟩)

/-- Buffer memory is canonical and lists only addresses below `BMEM_SIZE` (20_memory.md R68). -/
abbrev MemoryOk (s : State) : Prop := Memory.wf s.bmem = true ∧ Memory.within s.bmem s.params.bmemSize = true

/-- Every field `CONFIG` writes holds a value (10_state.md R47). -/
abbrev ConfigFieldsSet (d : Display) : Prop :=
  d.displayWidth.isSome ∧ d.displayHeight.isSome ∧ d.rotation.isSome ∧ d.rotationsLen.isSome ∧ d.colorOrder.isSome ∧
  d.inversion.isSome ∧ d.options.isSome ∧ d.bounding.isSome ∧ d.csPresent.isSome ∧ d.rstPresent.isSome ∧
  d.blPresent.isSome ∧ d.rot.isSome ∧ d.cinit.isSome

/-- The rotation table: 1 to 255 records, `rotations_len` counts them, no record has an empty area (10_state.md R31,
R41). -/
abbrev TableOk (d : Display) : Prop :=
  ∀ t ∈ d.rot, 1 ≤ t.length ∧ t.length ≤ 255 ∧ d.rotationsLen = some (BitVec.ofNat 8 t.length) ∧
    ∀ r ∈ t, r.width ≠ 0 ∧ r.height ≠ 0

/-- `rotation < rotations_len`, unless the run has ended in a fault (45_lifecycle.md R206, derived there). -/
abbrev RotationOk (s : State) : Prop :=
  ∀ k ∈ s.display.rotation, ∀ n ∈ s.display.rotationsLen, k.toNat < n.toNat ∨ s.fault = true

/-- Before `CONFIG` nothing is set; after it every field `CONFIG` writes is, with legal values (10_state.md R32, R47). -/
abbrev ConfigOk (s : State) : Prop :=
  (s.configured = false → s.display = Display.unset ∧ s.geomValid = false) ∧
  (s.configured = true → ConfigFieldsSet s.display) ∧
  (∀ c ∈ s.display.colorOrder, c = orderRGB ∨ c = orderBGR) ∧
  TableOk s.display ∧ RotationOk s

/-- "When `geom_valid = 1`, the fields ... all hold values" (10_state.md R45, derived there). -/
abbrev GeomFieldsSet (d : Display) : Prop :=
  d.width.isSome ∧ d.height.isSome ∧ d.colstart.isSome ∧ d.rowstart.isSome ∧ d.madctl.isSome ∧
  d.minX.isSome ∧ d.minY.isSome ∧ d.maxX.isSome ∧ d.maxY.isSome

/-- `geom_valid = 1` exactly when `width` holds a value, and then all nine fields do (10_state.md R25, R45); the active
area is not empty (R28). -/
abbrev GeomOk (s : State) : Prop :=
  (s.geomValid = s.display.width.isSome) ∧ (s.geomValid = true → GeomFieldsSet s.display) ∧
  s.display.width ≠ some 0 ∧ s.display.height ≠ some 0

/-- The dirty box is the sentinel of the current geometry or a rectangle inside the active area (10_state.md R39, derived
there). -/
abbrev BoxOk (d : Display) : Prop :=
  ∀ w ∈ d.width, ∀ h ∈ d.height, ∀ x0 ∈ d.minX, ∀ y0 ∈ d.minY, ∀ x1 ∈ d.maxX, ∀ y1 ∈ d.maxY,
    (x0 = w ∧ y0 = h ∧ x1 = 0 ∧ y1 = 0) ∨ (x0 ≤ x1 ∧ x1 < w ∧ y0 ≤ y1 ∧ y1 < h)

/-- `cause` and `info` are 0 until a fault is entered, and `cause` is then one of the twelve codes (60_exceptions.md
R255). -/
abbrev FaultOk (s : State) : Prop :=
  (s.fault = false → s.cause = 0 ∧ s.info = 0) ∧ (s.fault = true → 1 ≤ s.cause ∧ s.cause ≤ 12)

/-- No transfer is empty, and a failed one stands in the trace only after a `HAL_ERROR` (20_memory.md R62, R64). -/
abbrev EventOk (s : State) (e : Event) : Prop :=
  e ≠ .spi [] ∧ e ≠ .spiFail [] ∧ ((∃ bytes, e = .spiFail bytes) → s.fault = true ∧ s.cause = 11)

/-- Every event of the trace is as `EventOk` says. -/
def TraceOk (s : State) : Prop := ∀ e ∈ s.trace, EventOk s e

/-- The invariant of every run. -/
structure Inv (s : State) : Prop where
  params : ParamsOk s.params
  pc     : s.pc ≤ s.prog.length
  memory : MemoryOk s
  config : ConfigOk s
  geom   : GeomOk s
  box    : BoxOk s.display
  fault  : FaultOk s
  trace  : TraceOk s

/-! ## Conditions for completing -/

/-- No SPI transfer from now on is answered with an error: every failing index is already past (70_reset_and_hazards.md
R285, premise (a), for the rest of the run). -/
abbrev HalQuiet (s : State) : Prop := ∀ k ∈ s.params.halFail, k < transferCount s.trace

/-- The guards of a drawing operation pass, and the fields it reads hold values, the active area not being empty
(10_state.md R28, R44, R45). The invariant gives the second part from the two flags. -/
abbrev Drawable (s : State) : Prop :=
  s.configured = true ∧ s.geomValid = true ∧ GeomFieldsSet s.display ∧ s.display.options.isSome ∧
  s.display.bounding.isSome ∧ s.display.width ≠ some 0 ∧ s.display.height ≠ some 0

/-- A state whose operation has faulted with nothing else changed: `fault`, `cause` and `info` alone (60_exceptions.md
R252). -/
def faulted (s : State) (cause : Byte) (info : DWord) : State :=
  { s with fault := true, cause := cause, info := info }

/-- The state `t` is what a `HAL_ERROR` leaves of `s` when the operation had stored only the given display before the failing
transfer: beside it, the trace and the fault fields alone differ (60_exceptions.md R253, 20_memory.md R64). -/
def LeftByHalError (s : State) (display : Display) (t : State) : Prop :=
  t = faulted { s with display := display, trace := t.trace } 11 t.info

/-! ## Encodings -/

/-- The legal header words as numbers: `op` and the values of `f` it admits (30_encoding.md R93, R96, R99). -/
abbrev LegalHeaderNumber (h : Nat) : Prop :=
  (h / 256 ∈ [0x10, 0x30]) ∨
  (h / 256 ∈ [0x11, 0x12, 0x20, 0x21, 0x22, 0x23, 0x24, 0x25, 0x26, 0x27, 0x28, 0x31, 0x32, 0x33,
    0x41, 0x42, 0x43, 0x46, 0x47, 0x48, 0x49, 0x50] ∧ h % 256 = 0) ∨
  (h / 256 ∈ [0x34, 0x44, 0x45] ∧ h % 256 < 2) ∨ (h / 256 = 0x35 ∧ h % 256 < 4) ∨ (h / 256 = 0x40 ∧ h % 256 < 128)

/-- The bytes of one entry of a custom-init script (45_lifecycle.md R202). -/
def entryBytes (e : ScriptEntry) : List Byte :=
  BitVec.ofNat 8 (e.data.length + 1) :: (if e.delay.isSome then 1 else 0) :: e.cmd :: e.data ++
    e.delay.toList.flatMap fun ms => be16 ms.toNat

/-- The bytes of a script (45_lifecycle.md R202). -/
def scriptBytes (entries : List ScriptEntry) : List Byte := entries.flatMap entryBytes

/-- An entry that a script can hold: at most 254 data bytes (45_lifecycle.md R202). -/
abbrev EntryFits (e : ScriptEntry) : Prop := e.data.length ≤ 254

/-- Source bytes that one row of `width` pixels takes: rows are byte-aligned (43_buffers.md R172). -/
def rowBytes (width : Nat) : Nat := (width + 7) / 8

/-- Pixels that `n` source bytes give: `width` for each whole row, eight for each byte of a row begun and not completed
(43_buffers.md R172). -/
def expandedPixels (width n : Nat) : Nat := n / rowBytes width * width + n % rowBytes width * 8

/-- The source bit of pixel `p`, most significant bit first (43_buffers.md R172). -/
def sourceBit (bits : List Byte) (width p : Nat) : Bool :=
  (bits.getD (p / width * rowBytes width + p % width / 8) 0).getLsbD (7 - p % width % 8)

/-! ## Events -/

/-- The events of `write_cmd(cmd, data)` (40_command_window_fill.md R120). -/
def commandEvents (d : Display) (cmd : Byte) (data : List Byte) : List Event :=
  pinEvents d Pin.cs false ++
  (if cmd = 0 then [] else [Event.pin .dc false, Event.spi [cmd]]) ++
  (if data = [] then [] else [Event.pin .dc true, Event.spi data]) ++
  pinEvents d Pin.cs true

/-- The events of `pixel_phase(chunks)` (40_command_window_fill.md R121). -/
def pixelEvents (d : Display) (chunks : List (List Byte)) : List Event :=
  pinEvents d Pin.cs false ++ [Event.pin .dc true] ++ (chunks.filter (· ≠ [])).map Event.spi ++ pinEvents d Pin.cs true

/-- The events of a programmed window (40_command_window_fill.md R123). -/
def windowEvents (d : Display) (x0 y0 x1 y1 : Nat) : List Event :=
  match d.colstart, d.rowstart with
  | some c, some r =>
    commandEvents d 0x2A (be16 (x0 + c.toNat) ++ be16 (x1 + c.toNat)) ++
    commandEvents d 0x2B (be16 (y0 + r.toNat) ++ be16 (y1 + r.toNat)) ++
    commandEvents d 0x2C []
  | _, _ => []

/-- The events of `hard_reset()` (45_lifecycle.md R203). -/
def hardResetEvents (d : Display) : List Event :=
  pinEvents d Pin.cs false ++ pinEvents d Pin.rst true ++ [Event.delay 50] ++ pinEvents d Pin.rst false ++ [Event.delay 50] ++
  pinEvents d Pin.rst true ++ [Event.delay 150] ++ pinEvents d Pin.cs true

/-- The events of `default_init()` with a given inversion flag (45_lifecycle.md R205). -/
def defaultInitEvents (d : Display) (inversion : Bool) : List Event :=
  commandEvents d 0x01 [] ++ [Event.delay 150] ++ commandEvents d 0x11 [] ++ commandEvents d 0x3A [0x55] ++ [Event.delay 10] ++
  commandEvents d (if inversion then 0x21 else 0x20) [] ++ commandEvents d 0x13 [] ++ [Event.delay 10] ++
  commandEvents d 0x29 [] ++ [Event.delay 150]

/-- The events of one custom-script entry (45_lifecycle.md R206). -/
def entryEvents (d : Display) (e : ScriptEntry) : List Event :=
  commandEvents d e.cmd e.data ++ [Event.delay 10] ++ e.delay.toList.map fun n => Event.delay n.toNat

/-- The events of the panel's own initialisation: the default sequence, or the custom script that replaces it; `none` when
a field it reads is unset (45_lifecycle.md R206). -/
def panelInitEvents (d : Display) : Option (List Event) :=
  match d.cinit with
  | none => none
  | some .absent => d.inversion.map (defaultInitEvents d)
  | some (.script entries) => some (entries.flatMap (entryEvents d))

/-! ## Windows and draws -/

/-- The dirty box after a window is programmed: unchanged with tracking off, else the smallest box holding both
(40_command_window_fill.md R123). -/
def boxWith (d : Display) (x0 y0 x1 y1 : Nat) : Display :=
  if d.bounding = some true then
    { d with
      minX := d.minX.map fun m => BitVec.ofNat 16 (min m.toNat x0)
      minY := d.minY.map fun m => BitVec.ofNat 16 (min m.toNat y0)
      maxX := d.maxX.map fun m => BitVec.ofNat 16 (max m.toNat x1)
      maxY := d.maxY.map fun m => BitVec.ofNat 16 (max m.toNat y1) }
  else d

/-- A state after a window was programmed. -/
def windowed (s : State) (x0 y0 x1 y1 : Nat) : State :=
  { s with display := boxWith s.display x0 y0 x1 y1, trace := s.trace ++ windowEvents s.display x0 y0 x1 y1 }

/-- One programmed window and the transfers that follow it. -/
structure Draw where
  x0     : Nat
  y0     : Nat
  x1     : Nat
  y1     : Nat
  chunks : List (List Byte)
deriving DecidableEq, Repr

/-- A state after one draw. -/
def drawOne (s : State) (g : Draw) : State :=
  let t := windowed s g.x0 g.y0 g.x1 g.y1
  { t with trace := t.trace ++ pixelEvents s.display g.chunks }

/-- A state after several draws, in order. -/
def drawAll (s : State) (gs : List Draw) : State := gs.foldl drawOne s

/-- A state whose operation of `len` words has completed. -/
def completed (s : State) (len : Nat) : State := { s with pc := s.pc + len }

/-! ## What each primitive draws, in closed form -/

/-- What `draw_pixel` draws: the pixel at the wrapped place, if that lies in the active area (41_primitives.md R140 and the
document's property 2). -/
def pixelDraws (d : Display) (x y : Int) (color : Word) : List Draw :=
  match d.options, d.width, d.height with
  | some o, some w, some h =>
    let x' := if o.getLsbD 0 then x % (w.toNat : Int) else x
    let y' := if o.getLsbD 1 then y % (h.toNat : Int) else y
    if 0 ≤ x' ∧ x' < w.toNat ∧ 0 ≤ y' ∧ y' < h.toNat then
      [⟨x'.toNat, y'.toNat, x'.toNat, y'.toNat, [pixelBytes color]⟩]
    else []
  | _, _, _ => []

/-- Is at least one wrap flag set? -/
def wrapsAny (o : Byte) : Bool := o.getLsbD 0 || o.getLsbD 1

/-- What `fast_hline` draws: without wrap the visible part of the line in one window, with a wrap flag pixel by pixel
(41_primitives.md R142). -/
def hlineDraws (d : Display) (x y w : Int) (color : Word) : List Draw :=
  match d.options, d.width, d.height with
  | some o, some width, some height =>
    if wrapsAny o then (List.range w.toNat).flatMap fun i : Nat => pixelDraws d (x + (i : Int)) y color
    else
      let first := max x 0
      let last := min (x + w) width.toNat - 1
      if 0 ≤ y ∧ y < height.toNat ∧ first ≤ last then
        [⟨first.toNat, y.toNat, last.toNat, y.toNat, fillChunks color (last - first + 1).toNat⟩]
      else []
  | _, _, _ => []

/-- What `fast_vline` draws (41_primitives.md R144). -/
def vlineDraws (d : Display) (x y h : Int) (color : Word) : List Draw :=
  match d.options, d.width, d.height with
  | some o, some width, some height =>
    if wrapsAny o then (List.range h.toNat).flatMap fun i : Nat => pixelDraws d x (y + (i : Int)) color
    else
      let first := max y 0
      let last := min (y + h) height.toNat - 1
      if 0 ≤ x ∧ x < width.toNat ∧ first ≤ last then
        [⟨x.toNat, first.toNat, x.toNat, last.toNat, fillChunks color (last - first + 1).toNat⟩]
      else []
  | _, _, _ => []

/-- What `RECT` draws: top, left, bottom, right edge (41_primitives.md R146). -/
def rectDraws (d : Display) (x y w h : Int) (color : Word) : List Draw :=
  hlineDraws d x y w color ++ vlineDraws d x y h color ++ hlineDraws d x (y + h - 1) w color ++
    vlineDraws d (x + w - 1) y h color

/-- What `FILL_RECT` draws: the whole rectangle when it lies inside the active area, else nothing (41_primitives.md
R147, derived there). -/
def fillRectDraws (d : Display) (x y w h : Int) (color : Word) : List Draw :=
  match d.width, d.height with
  | some width, some height =>
    if 0 ≤ x ∧ 1 ≤ w ∧ x + w ≤ width.toNat ∧ 0 ≤ y ∧ 1 ≤ h ∧ y + h ≤ height.toNat then
      [⟨x.toNat, y.toNat, (x + w - 1).toNat, (y + h - 1).toNat, fillChunks color (w * h).toNat⟩]
    else []
  | _, _ => []

/-- What `FILL` draws: the active area (41_primitives.md R148). -/
def fillDraws (d : Display) (color : Word) : List Draw :=
  match d.width, d.height with
  | some w, some h => [⟨0, 0, w.toNat - 1, h.toNat - 1, fillChunks color (w.toNat * h.toNat)⟩]
  | _, _ => []

/-- What one run of a line draws; a run of one pixel and a fast line of length 1 draw the same (42_line.md R162). -/
def runDraws (d : Display) (steep : Bool) (color : Word) (r : Run) : List Draw :=
  if steep then vlineDraws d r.y r.xs r.dlen color else hlineDraws d r.xs r.y r.dlen color

/-- What `BLIT` draws: the first `min(len, w * h * 2)` bytes, if the window lies inside the active area (43_buffers.md
R171). -/
def blitDraws (d : Display) (data : List Byte) (x y w h : Int) : List Draw :=
  match d.width, d.height with
  | some width, some height =>
    if 0 ≤ x ∧ 1 ≤ w ∧ x + w ≤ width.toNat ∧ 0 ≤ y ∧ 1 ≤ h ∧ y + h ≤ height.toNat then
      [⟨x.toNat, y.toNat, (x + w - 1).toNat, (y + h - 1).toNat, blitChunks (data.take (w * h * 2).toNat)⟩]
    else []
  | _, _ => []

/-- What a drawing operation draws when it completes, by its operands and the state it is run from; nothing for the other
operations. -/
def drawsOf (s : State) : Instr → List Draw
  | .pixel x y color => pixelDraws s.display x.toInt y.toInt color
  | .hline x y w color => hlineDraws s.display x.toInt y.toInt w.toInt color
  | .vline x y h color => vlineDraws s.display x.toInt y.toInt h.toInt color
  | .rect x y w h color => rectDraws s.display x.toInt y.toInt w.toInt h.toInt color
  | .fillRect x y w h color => fillRectDraws s.display x.toInt y.toInt w.toInt h.toInt color
  | .fill color => fillDraws s.display color
  | .line x0 y0 x1 y1 color =>
    let l := orientLine x0.toInt y0.toInt x1.toInt y1.toInt
    l.runs.flatMap (runDraws s.display l.steep color)
  | .blit addr len x y w h =>
    blitDraws s.display (readBytes s.bmem addr.toNat len.toNat) x.toInt y.toInt w.toInt h.toInt
  | .writeCmd _ _ _ | .setWindow _ _ _ _ | .fillBuf _ _ | .mapbits _ _ _ _ _ _ _ | .rotation _ | .offset _ _
  | .madctlGet | .madctlSet _ | .boundingGet _ | .boundingSet _ _ | .config _ _ _ _ _ _ _ _ _ | .init | .hardReset
  | .softReset | .sleepMode _ | .inversionMode _ | .on | .off | .vscrdef _ _ _ | .vscsad _ | .color565 _ _ _ => []

/-- The pixels of a run in its frame, in order (42_line.md R162). -/
def runPoints (r : Run) : List (Int × Int) := (List.range r.dlen).map fun i : Nat => (r.xs + (i : Int), r.y)

/-- The Bresenham pixel at major coordinate `x0 + i` (42_line.md R163, derived there). -/
def idealPoint (l : Line) (i : Nat) : Int × Int :=
  (l.x0 + i, l.y0 + l.ystep * (if l.dx = 0 then 0 else max 0 (-((l.dx / 2 - i * l.dy) / l.dx))))

/-! ## Lit pixels, as sets of points -/

/-- Does the point lie in the active area `A`? -/
abbrev InArea (width height : Word) (x y : Int) : Prop := 0 ≤ x ∧ x < width.toNat ∧ 0 ≤ y ∧ y < height.toNat

/-- The image of a point under the wrap (41_primitives.md R140). -/
def wrapPoint (options : Byte) (width height : Word) (p : Int × Int) : Int × Int :=
  (if options.getLsbD 0 then p.1 % (width.toNat : Int) else p.1,
    if options.getLsbD 1 then p.2 % (height.toNat : Int) else p.2)

/-- The points of a horizontal line (41_primitives.md R149). -/
def hlinePoints (x y w : Int) : List (Int × Int) := (List.range w.toNat).map fun d : Nat => (x + (d : Int), y)

/-- The points of a vertical line (41_primitives.md R149). -/
def vlinePoints (x y h : Int) : List (Int × Int) := (List.range h.toNat).map fun d : Nat => (x, y + (d : Int))

/-- The ideal set of a line, swapped back when steep (42_line.md R163). -/
def linePoints (l : Line) : List (Int × Int) :=
  (List.range (l.dx + 1).toNat).map fun i => if l.steep then (idealPoint l i).swap else idealPoint l i

/-- The colour and the points, before clipping and wrapping, of an operation that clips and wraps each point on its own
(41_primitives.md R149, 42_line.md R163). -/
def drawnPoints : Instr → Option (Word × List (Int × Int))
  | .pixel x y color => some (color, [(x.toInt, y.toInt)])
  | .hline x y w color => some (color, hlinePoints x.toInt y.toInt w.toInt)
  | .vline x y h color => some (color, vlinePoints x.toInt y.toInt h.toInt)
  | .rect x y w h color => some (color,
      hlinePoints x.toInt y.toInt w.toInt ++ vlinePoints x.toInt y.toInt h.toInt ++
      hlinePoints x.toInt (y.toInt + h.toInt - 1) w.toInt ++ vlinePoints (x.toInt + w.toInt - 1) y.toInt h.toInt)
  | .line x0 y0 x1 y1 color => some (color, linePoints (orientLine x0.toInt y0.toInt x1.toInt y1.toInt))
  | .fillRect _ _ _ _ _ | .fill _ | .blit _ _ _ _ _ _ | .writeCmd _ _ _ | .setWindow _ _ _ _ | .fillBuf _ _
  | .mapbits _ _ _ _ _ _ _ | .rotation _ | .offset _ _ | .madctlGet | .madctlSet _ | .boundingGet _
  | .boundingSet _ _ | .config _ _ _ _ _ _ _ _ _ | .init | .hardReset | .softReset | .sleepMode _
  | .inversionMode _ | .on | .off | .vscrdef _ _ _ | .vscsad _ | .color565 _ _ _ => none

/-- The lit set of the operation is exactly the given set, all in one colour. -/
def LightsExactly (o : Observer) (delivered : Nat → Nat) (i : Instr) (s : State) (color : Word)
    (set : Int → Int → Prop) : Prop :=
  ∀ x y : Int, (set x y → operationLit o delivered i s x y = some color) ∧
    (¬ set x y → operationLit o delivered i s x y = none)

/-! ## The built-in tables -/

/-- The table is the four records of the first entry of `PRESETS` with that display width and height
(44_orientation_dirtybox.md R181; that the first counts is log entry 21). -/
def IsBuiltIn (presets : List Preset) (dw dh : Word) (table : List RotRec) : Prop :=
  ∃ before entry later, presets = before ++ entry :: later ∧
    entry.displayWidth = dw ∧ entry.displayHeight = dh ∧ table = entry.records.toList ∧
    ∀ q ∈ before, ¬ (q.displayWidth = dw ∧ q.displayHeight = dh)

/-- Several instructions performed one after another, up to the first that has no next state. -/
def execAll : List Instr → State → Host.Outcome State Fault Refusal
  | [], s => .next s
  | i :: is, s =>
    match exec i s with
    | .next t => execAll is t
    | .fault r => .fault r
    | .refused r => .refused r

/-- The display after `set_rotation()` has taken a record: the record's fields and the sentinel box
(44_orientation_dirtybox.md R182). -/
def rotated (d : Display) (colorOrder : Byte) (rec : RotRec) : Display :=
  { d with
    madctl := some (colorOrder.setWidth 16 ||| rec.madctl)
    width := some rec.width, height := some rec.height
    colstart := some rec.colstart, rowstart := some rec.rowstart
    minX := some rec.width, minY := some rec.height, maxX := some 0, maxY := some 0 }

end Sys2Proof.Safety
end

