-- ==== Sys2Proof/Certificates/Slice0/Obligations.lean ====
section
/-! DEFINITION. The statements for the provers: encoding, reset, the run, invariants and whole-machine rules, faults, what
each operation does when it completes, and the properties of the procedures. -/

section Statements

open Sys2Proof Sys2Proof.Machine Sys2Proof.Safety

/-! ## Encoding -/

/-- Decoding an encoded well-formed instruction, followed by any words, gives it and those words back (30_encoding.md R90 to
R99). -/
def Obligations.DecodeEncode : Prop :=
  ∀ (i : Instr) (rest : List Word), i.wellFormed = true → decode (encode i ++ rest) = .ok i rest

/-- Whatever decodes to an instruction is that instruction's one encoding, and the instruction is well-formed: no reserved
bit is ignored and no two descriptors share words (30_encoding.md R93, R95). -/
def Obligations.EncodeDecode : Prop :=
  ∀ (ws : List Word) (i : Instr) (rest : List Word), decode ws = .ok i rest →
    i.wellFormed = true ∧ ws = encode i ++ rest

/-- A header word that is not one of the legal numbers faults with `ILLEGAL_OP` and the header, whatever the state and
whatever follows; a legal one does not (30_encoding.md R97, 60_exceptions.md R241). -/
def Obligations.IllegalHeaderFaults : Prop :=
  ∀ (s : State) (h : Word), s.fault = false → s.prog[s.pc]? = some h →
    (¬ LegalHeaderNumber h.toNat → step s = .next (faulted s 1 (h.setWidth 32))) ∧
    (LegalHeaderNumber h.toNat → ∀ g, fetch s ≠ .illegal g)

/-- A legal header whose descriptor is cut off by the end of the command stream has no step (60_exceptions.md R249). -/
def Obligations.TruncatedIsStuck : Prop :=
  ∀ (s : State) (h : Word) (o : Opcode), s.fault = false → s.prog[s.pc]? = some h → legalHeader h = some o →
    s.prog.length < s.pc + o.words (s.prog.getD (s.pc + 5) 0) → step s = .fault .stuck

/-- Words written out from the spec's encodings decode to the operations they stand for (a sanity check, one word or more
of each family). -/
def Obligations.SampleWords : Prop :=
  decode [0x103A, 0x0001, 0x0002, 0x0000, 0x0001] = .ok (.writeCmd 0x3A 0x00010002 1) [] ∧
  decode [0x1200, 0x07E0, 0x0000, 0x0082] = .ok (.fillBuf 0x07E0 130) [] ∧
  decode [0x2100, 0xFFFB, 0x000A, 0x0014, 0xF800, 0x4600] = .ok (.hline 0xFFFB 10 20 0xF800) [0x4600] ∧
  decode [0x3005] = .ok (.rotation 5) [] ∧
  decode [0x3502] = .ok (.boundingSet false true) [] ∧
  decode [0x402F, 8, 4, 5, 0x0103, 1, 0, 0, 0, 0, 0xC0, 8, 4, 1, 2] =
    .ok (.config ⟨true, true, true, true, false, true, false⟩ 8 4 5 0x0103 1 0 0 [⟨0xC0, 8, 4, 1, 2⟩]) [] ∧
  decode [0x4401] = .ok (.sleepMode true) [] ∧
  decode [0x5000, 0x0012, 0x0034, 0x0056] = .ok (.color565 0x12 0x34 0x56) [] ∧
  decode [0x4602] = .illegal 0x4602 ∧ decode [0x2500] = .truncated

/-! ## Step and run -/

/-- When the words at `pc` are a well-formed instruction's, the step is that instruction's operation, with nothing around it
(70_reset_and_hazards.md R272). -/
def Obligations.StepRunsDecoded : Prop :=
  ∀ (s : State) (i : Instr) (before later : List Word), s.fault = false → i.wellFormed = true →
    s.prog = before ++ encode i ++ later → s.pc = before.length → step s = exec i s

/-- The three ends of a run, and the host's view of them: no step exactly when faulted, at the end of the stream, or stuck
(70_reset_and_hazards.md R274), and the read port, which R283 opens when the sequencer is idle, faulted or stuck, answers
busy exactly when there is a step. That a closed port answers busy is the model's choice (log entry 15). -/
def Obligations.RunEnds : Prop :=
  ∀ s : State, s.pc ≤ s.prog.length →
    (step s = .fault .faulted ↔ s.fault = true) ∧
    (step s = .fault .completed ↔ s.fault = false ∧ s.pc = s.prog.length) ∧
    (step s = .fault .stuck ↔ s.fault = false ∧ fetch s = .truncated) ∧
    (∀ r, step s ≠ .refused r) ∧
    (runStatus s = .running ↔ ∃ t, step s = .next t) ∧
    ∀ n : Nat, ∀ answer ∈ [hostReadSR s n, hostReadResult s n, hostReadPc s, hostReadFlag s n, hostReadByte s n],
      answer = .busy ↔ ∃ t, step s = .next t

/-- Every run is finite, from every state: at most one step for each word of the stream, and one more
(70_reset_and_hazards.md R273). -/
def Obligations.RunIsFinite : Prop :=
  ∀ s : State, ∃ r, Sys2Proof.core.run (s.prog.length + 1) s = .fault r

/-- A completed operation advances `pc` by its descriptor's length, a faulting one leaves it at its header (10_state.md
R24). -/
def Obligations.PcProgress : Prop :=
  ∀ (i : Instr) (s t : State), s.fault = false → i.wellFormed = true → exec i s = .next t →
    (t.fault = false → t.pc = s.pc + (encode i).length) ∧ (t.fault = true → t.pc = s.pc)

/-! ## Reset -/

/-- Hardware reset: every field that 70_reset_and_hazards.md R270 names to its stated value, and no event; `fault` and
`configured` are cleared by nothing else. That it keeps PROG, buffer memory and the parameters is the model's deduction
(DEDUCED, log entry 14), which R270 does not list. -/
def Obligations.HardwareReset : Prop :=
  (∀ s : State, s.hardwareReset =
    { pc := 0, results := ⟨none, none, none, none⟩, configured := false, geomValid := false, fault := false, cause := 0
      info := 0
      display := ⟨none, none, none, none, none, none, none, none, none, none, none, none, none, none, none, none, none,
        none, none, none, none, none⟩
      bmem := s.bmem, trace := [], prog := s.prog, params := s.params }) ∧
  (∀ (i : Instr) (s t : State), exec i s = .next t →
    (s.configured = true → t.configured = true) ∧ (s.fault = true → t.fault = true)) ∧
  ∀ s : State, s.fault = true → ∀ t, step s ≠ .next t

/-- Hardware reset establishes the invariant in every state whose inputs are legal. -/
def Obligations.ResetEstablishesInv : Prop :=
  ∀ s : State, ParamsOk s.params → MemoryOk s → Inv s.hardwareReset

/-- The reset state has the invariant. It rests on the model's choice of the inputs there (log entries 4, 5 and 6). -/
def Obligations.ResetInv : Prop := Inv State.reset

/-! ## Invariants and whole-machine rules -/

/-- Every step keeps the invariant. -/
def Obligations.StepKeepsInv : Prop := ∀ s t : State, Inv s → step s = .next t → Inv t

/-- In every state with the invariant, the two status flags say all that a drawing operation needs (10_state.md R45). -/
def Obligations.FlagsMeanDrawable : Prop :=
  ∀ s : State, Inv s → s.configured = true → s.geomValid = true → Drawable s

/-- The command stream and the parameters never change; only `MAPBITS` changes a byte of memory (20_memory.md R61, R80,
43_buffers.md R170). -/
def Obligations.OnlyMapbitsWrites : Prop :=
  ∀ (i : Instr) (s t : State), exec i s = .next t →
    t.prog = s.prog ∧ t.params = s.params ∧
    (i.opcode ≠ .mapbits → t.bmem = s.bmem ∧ ∀ a, readByte t.bmem a = readByte s.bmem a)

/-- The trace only grows, and every byte an operation sends is preceded by a level of DC that the same operation wrote
(20_memory.md R62, R66). -/
def Obligations.TraceGrowsWithKnownLevel : Prop :=
  ∀ (i : Instr) (s t : State), exec i s = .next t →
    ∃ es, t.trace = s.trace ++ es ∧
      ∀ (delivered : Nat → Nat) (k : Nat), ∀ x ∈ wireFrom delivered none k es, x.1 ≠ none

/-- The writers of the result registers (10_state.md R23): `BOUNDING_GET` and `BOUNDING_SET` write all four, four
operations write `r[0]`, no other changes any, and, in a state with the invariant, a fault changes none. -/
def Obligations.ResultWriters : Prop :=
  ∀ (i : Instr) (s t : State), s.fault = false → exec i s = .next t →
    (Inv s → t.fault = true → t.results = s.results) ∧
    (i.opcode ∉ [.boundingGet, .boundingSet] →
      t.results.r1 = s.results.r1 ∧ t.results.r2 = s.results.r2 ∧ t.results.r3 = s.results.r3) ∧
    (i.opcode ∉ [.boundingGet, .boundingSet, .madctlGet, .madctlSet, .color565, .mapbits] → t.results = s.results)

/-- No operation reads a result register (10_state.md R23): from other results the same happens, and each result register
is either given the same value in both cases or left alone in both. -/
def Obligations.ResultsNeverRead : Prop :=
  ∀ (i : Instr) (s t : State) (r : Results), exec i s = .next t →
    ∃ r', exec i { s with results := r } = .next { t with results := r' } ∧
      ∀ reg ∈ [Results.r0, Results.r1, Results.r2, Results.r3],
        reg r' = reg t.results ∨ (reg r' = reg r ∧ reg t.results = reg s.results)

/-- The status flags: `configured` is set only by a `CONFIG` that completes, `geom_valid` only by `ROTATION` and `INIT`,
neither is ever cleared, and `cause` and `info` change only with a fault (10_state.md R25). -/
def Obligations.StatusFlagWriters : Prop :=
  ∀ (i : Instr) (s t : State), exec i s = .next t →
    (s.configured = true → t.configured = true) ∧
    (t.configured ≠ s.configured → i.opcode = .config ∧ t.fault = s.fault) ∧
    (s.geomValid = true → t.geomValid = true) ∧
    (t.geomValid ≠ s.geomValid → i.opcode = .rotation ∨ i.opcode = .init) ∧
    (t.fault = false → t.cause = s.cause ∧ t.info = s.info)

/-- The writers of every Display field (10_state.md R27 to R42): an operation that is not one of a field's writers leaves
that field, whether it completes or faults. -/
def Obligations.DisplayFieldWriters : Prop :=
  ∀ (i : Instr) (s t : State), exec i s = .next t →
    (i.opcode ≠ .config →
      t.display.displayWidth = s.display.displayWidth ∧ t.display.displayHeight = s.display.displayHeight ∧
      t.display.rotationsLen = s.display.rotationsLen ∧ t.display.rot = s.display.rot ∧
      t.display.colorOrder = s.display.colorOrder ∧ t.display.options = s.display.options ∧
      t.display.csPresent = s.display.csPresent ∧ t.display.rstPresent = s.display.rstPresent ∧
      t.display.blPresent = s.display.blPresent ∧ t.display.cinit = s.display.cinit) ∧
    (i.opcode ∉ [.rotation, .init] → t.display.width = s.display.width ∧ t.display.height = s.display.height) ∧
    (i.opcode ∉ [.rotation, .init, .offset] →
      t.display.colstart = s.display.colstart ∧ t.display.rowstart = s.display.rowstart) ∧
    (i.opcode ∉ [.rotation, .init, .madctlSet] → t.display.madctl = s.display.madctl) ∧
    (i.opcode ∉ [.config, .rotation] → t.display.rotation = s.display.rotation) ∧
    (i.opcode ∉ [.config, .inversionMode] → t.display.inversion = s.display.inversion) ∧
    (i.opcode ∉ [.config, .boundingSet] → t.display.bounding = s.display.bounding) ∧
    (i.opcode ∉ [.setWindow, .pixel, .hline, .vline, .rect, .fillRect, .fill, .line, .blit, .rotation, .init,
        .boundingSet] ∨ (s.display.bounding = some false ∧ i.opcode ∉ [.rotation, .init, .boundingSet]) →
      t.display.minX = s.display.minX ∧ t.display.minY = s.display.minY ∧
      t.display.maxX = s.display.maxX ∧ t.display.maxY = s.display.maxY)

/-! ## Faults -/

/-- Fault entry writes three fields and nothing else, and a faulted sequencer has no step whatever the stream holds
(60_exceptions.md R252). The recorded value is the number itself when it fits in 32 bits (log entry 7). -/
def Obligations.FaultEntry : Prop :=
  (∀ (c : Cause) (n : Nat) (s : State), n < 2 ^ 32 →
    enterFault c n s = { s with fault := true, cause := c.code, info := BitVec.ofNat 32 n }) ∧
  (∀ (s : State) (ws : List Word), s.fault = true → step { s with prog := ws } = .fault .faulted)

/-- Precision (60_exceptions.md R259): a fault other than `HAL_ERROR` and `ROT_RANGE` leaves the state before the operation
with the three fault fields, `ROT_RANGE` besides changes `rotation`, and every fault leaves `pc`. -/
def Obligations.FaultsArePrecise : Prop :=
  ∀ (i : Instr) (s t : State), Inv s → s.fault = false → exec i s = .next t → t.fault = true →
    t.pc = s.pc ∧
    (t.cause ≠ 7 → t.cause ≠ 11 → t = faulted s t.cause t.info) ∧
    (t.cause = 7 → t = faulted { s with display := { s.display with rotation := t.display.rotation } } 7 t.info)

/-- A `HAL_ERROR` (60_exceptions.md R253, 20_memory.md R64): the events before the failing transfer stand, then that
transfer's bytes as failed and, with a CS pin, CS high; `info` counts the transfers before it. What the operation stored
before the failing transfer stays stored, and nothing after it happens: the flag (45_lifecycle.md R208), `madctl` without
`r[0]` (44_orientation_dirtybox.md R187), the record, `geom_valid` and the sentinel box (R182), the box expanded by a
window (40_command_window_fill.md R123), the draws before the failing one, and each stage of `INIT` (45_lifecycle.md
R206). -/
def Obligations.HalErrorShape : Prop :=
  ∀ (i : Instr) (s t : State), s.fault = false → exec i s = .next t → t.fault = true → t.cause = 11 →
    (∃ (es : List Event) (bytes : List Byte),
      t.trace = s.trace ++ es ++ .spiFail bytes :: (if t.display.csPresent = some true then [.pin .cs true] else []) ∧
      bytes ≠ [] ∧ (∀ b, .spiFail b ∉ es) ∧
      transferCount (s.trace ++ es) ∈ s.params.halFail ∧
      (transferCount (s.trace ++ es) < 2 ^ 32 → t.info.toNat = transferCount (s.trace ++ es))) ∧
    (i.opcode ∈ [.writeCmd, .fillBuf, .softReset, .sleepMode, .vscrdef, .vscsad] → LeftByHalError s s.display t) ∧
    (∀ flag, i = .inversionMode flag → LeftByHalError s { s.display with inversion := some flag } t) ∧
    (∀ value, i = .madctlSet value → LeftByHalError s { s.display with madctl := some value } t) ∧
    (∀ (value co : Byte) (table : List RotRec) (rec : RotRec), i = .rotation value → s.display.rot = some table →
      table[value.toNat % 4]? = some rec → s.display.colorOrder = some co →
      LeftByHalError { s with geomValid := true }
        { rotated s.display co rec with rotation := some (BitVec.ofNat 8 (value.toNat % 4)) } t) ∧
    (∀ x0 y0 x1 y1, i = .setWindow x0 y0 x1 y1 →
      LeftByHalError s (boxWith s.display x0.toNat y0.toNat x1.toNat y1.toNat) t) ∧
    (Drawable s → i.opcode ∈ [.pixel, .hline, .vline, .rect, .fillRect, .fill, .line, .blit] →
      ∃ (done : List Draw) (g : Draw) (rest : List Draw) (es : List Event) (bytes : List Byte) (later : List Event),
        drawsOf s i = done ++ g :: rest ∧
        windowEvents s.display g.x0 g.y0 g.x1 g.y1 ++ pixelEvents s.display g.chunks = es ++ .spi bytes :: later ∧
        t.trace = (drawAll s done).trace ++ es ++
          .spiFail bytes :: (if s.display.csPresent = some true then [.pin .cs true] else []) ∧
        LeftByHalError s (boxWith (drawAll s done).display g.x0 g.y0 g.x1 g.y1) t) ∧
    (∀ (k co : Byte) (table : List RotRec) (rec : RotRec) (panel : List Event) (before : Nat), i = .init →
      panelInitEvents s.display = some panel → s.display.rotation = some k → s.display.rot = some table →
      table[k.toNat]? = some rec → s.display.colorOrder = some co →
      transferCount t.trace = transferCount s.trace + before + 1 →
      if before < transferCount panel then LeftByHalError s s.display t
      else if before < transferCount panel + 2 then
        LeftByHalError { s with geomValid := true } (rotated s.display co rec) t
      else
        LeftByHalError { s with geomValid := true }
          (boxWith (rotated s.display co rec) 0 0 (rec.width.toNat - 1) (rec.height.toNat - 1)) t)

/-- Under the premise that no transfer from now on fails, no operation raises `HAL_ERROR` or leaves a failed transfer, and
the premise goes on holding (70_reset_and_hazards.md R285, premise (a)). -/
def Obligations.QuietHal : Prop :=
  ∀ (i : Instr) (s t : State), s.fault = false → HalQuiet s → exec i s = .next t →
    (t.fault = true → t.cause ≠ 11) ∧ (∀ b, .spiFail b ∈ t.trace → .spiFail b ∈ s.trace) ∧ HalQuiet t

/-- `NOT_CONFIGURED` (60_exceptions.md R242): the first action of every operation but three. -/
def Obligations.NotConfigured : Prop :=
  ∀ (i : Instr) (s : State), s.configured = false →
    (i.opcode ∉ [.config, .color565, .mapbits] → exec i s = .next (faulted s 2 0)) ∧
    (i.opcode ∈ [.config, .color565, .mapbits] → s.fault = false →
      ∀ t, exec i s = .next t → t.fault = true → t.cause ≠ 2)

/-- `UNSET_STATE` (60_exceptions.md R243): by the geometry guard with 2, by `MADCTL_GET` with 9. -/
def Obligations.UnsetState : Prop :=
  ∀ (i : Instr) (s : State), s.configured = true →
    (i.opcode ∈ [.setWindow, .pixel, .hline, .vline, .rect, .fillRect, .fill, .line, .blit, .boundingGet, .boundingSet] →
      s.geomValid = false → exec i s = .next (faulted s 3 2)) ∧
    (i = .madctlGet → s.display.madctl = none → exec i s = .next (faulted s 3 9))

/-- `BUF_RANGE` (60_exceptions.md R250): the four operations with a buffer operand, before any effect, with the buffer's
address; the sum is exact. -/
def Obligations.BufferRange : Prop :=
  (∀ (cmd : Byte) (addr len : DWord) (s : State), s.configured = true →
    s.params.bmemSize < addr.toNat + len.toNat → exec (.writeCmd cmd addr len) s = .next (faulted s 8 addr)) ∧
  (∀ (addr len : DWord) (x y w h : Word) (s : State), s.configured = true → s.geomValid = true →
    s.params.bmemSize < addr.toNat + len.toNat → exec (.blit addr len x y w h) s = .next (faulted s 8 addr)) ∧
  (∀ (src srclen dst dstcap : DWord) (width fg bg : Word) (s : State), width ≠ 0 →
    (s.params.bmemSize < src.toNat + srclen.toNat →
      exec (.mapbits src srclen dst dstcap width fg bg) s = .next (faulted s 8 src)) ∧
    (src.toNat + srclen.toNat ≤ s.params.bmemSize → s.params.bmemSize < dst.toNat + dstcap.toNat →
      exec (.mapbits src srclen dst dstcap width fg bg) s = .next (faulted s 8 dst))) ∧
  (∀ (f : ConfigFlags) (dw dh rotation options nrec : Word) (addr len : DWord) (recs table : List RotRec) (s : State),
    s.configured = false → f.dc = true → nrec.toNat ≤ 255 →
    (if nrec = 0 then IsBuiltIn s.params.presets dw dh table else recs = table) →
    (∀ r ∈ table, r.width ≠ 0 ∧ r.height ≠ 0) → f.ci = true → s.params.bmemSize < addr.toNat + len.toNat →
    exec (.config f dw dh rotation options nrec addr len recs) s = .next (faulted s 8 addr))

/-- `BAD_OPERAND` and `OUT_OVERFLOW` (60_exceptions.md R251): raised by `MAPBITS` and by no other operation, with nothing
written. A needed length that does not fit in `info` records a free value (log entry 7). -/
def Obligations.MapbitsFaults : Prop :=
  (∀ (src srclen dst dstcap : DWord) (fg bg : Word) (s : State),
    exec (.mapbits src srclen dst dstcap 0 fg bg) s = .next (faulted s 10 0)) ∧
  (∀ (src srclen dst dstcap : DWord) (width fg bg : Word) (s : State), width ≠ 0 →
    src.toNat + srclen.toNat ≤ s.params.bmemSize → dst.toNat + dstcap.toNat ≤ s.params.bmemSize →
    dstcap.toNat < 2 * expandedPixels width.toNat srclen.toNat →
    2 * expandedPixels width.toNat srclen.toNat < 2 ^ 32 →
    exec (.mapbits src srclen dst dstcap width fg bg) s =
      .next (faulted s 9 (BitVec.ofNat 32 (2 * expandedPixels width.toNat srclen.toNat)))) ∧
  ∀ (i : Instr) (s t : State), s.fault = false → i.opcode ≠ .mapbits → exec i s = .next t → t.fault = true →
    t.cause ≠ 9 ∧ t.cause ≠ 10

/-- The faults of `CONFIG` before its script, in the order tested, with nothing written (60_exceptions.md R244, R245,
R254). -/
def Obligations.ConfigFaults : Prop :=
  ∀ (f : ConfigFlags) (dw dh rotation options nrec : Word) (addr len : DWord) (recs : List RotRec) (s : State),
    (s.configured = true → exec (.config f dw dh rotation options nrec addr len recs) s = .next (faulted s 12 0)) ∧
    (s.configured = false → f.dc = false →
      exec (.config f dw dh rotation options nrec addr len recs) s = .next (faulted s 4 0)) ∧
    (s.configured = false → f.dc = true → 255 < nrec.toNat →
      exec (.config f dw dh rotation options nrec addr len recs) s = .next (faulted s 5 (nrec.setWidth 32))) ∧
    (s.configured = false → f.dc = true → nrec = 0 →
      (∀ p ∈ s.params.presets, ¬ (p.displayWidth = dw ∧ p.displayHeight = dh)) →
      exec (.config f dw dh rotation options nrec addr len recs) s = .next (faulted s 5 0)) ∧
    (∀ (good later : List RotRec) (bad : RotRec), s.configured = false → f.dc = true → nrec.toNat ≤ 255 →
      recs.length ≤ 255 →
      (if nrec = 0 then IsBuiltIn s.params.presets dw dh (good ++ bad :: later)
        else recs = good ++ bad :: later) →
      (∀ r ∈ good, r.width ≠ 0 ∧ r.height ≠ 0) → bad.width = 0 ∨ bad.height = 0 →
      exec (.config f dw dh rotation options nrec addr len recs) s =
        .next (faulted s 5 (BitVec.ofNat 32 (65536 + good.length))))

/-- The script layout (45_lifecycle.md R202): the bytes of a list of entries parse to that list, and bytes that parse are
the bytes of what they parse to. -/
def Obligations.ScriptRoundTrip : Prop :=
  (∀ entries : List ScriptEntry, (∀ e ∈ entries, EntryFits e) →
    parseEntries (scriptBytes entries) (scriptBytes entries).length 0 = .ok entries) ∧
  (∀ (b : List Byte) (entries : List ScriptEntry), parseEntries b b.length 0 = .ok entries →
    b = scriptBytes entries ∧ ∀ e ∈ entries, EntryFits e)

/-- `CFG_SCRIPT` (60_exceptions.md R246): a script longer than the store records its length, an ill-formed one the offset of
its first bad entry, which follows well-formed entries and begins none; nothing is written. -/
def Obligations.ConfigScriptFaults : Prop :=
  ∀ (f : ConfigFlags) (dw dh rotation options nrec : Word) (addr len : DWord) (recs table : List RotRec) (s : State),
    s.configured = false → f.dc = true → nrec.toNat ≤ 255 →
    (if nrec = 0 then IsBuiltIn s.params.presets dw dh table else recs = table) →
    (∀ r ∈ table, r.width ≠ 0 ∧ r.height ≠ 0) → f.ci = true → addr.toNat + len.toNat ≤ s.params.bmemSize →
    (∀ cap, s.params.cinitCap = some cap → cap < len.toNat →
      exec (.config f dw dh rotation options nrec addr len recs) s = .next (faulted s 6 len)) ∧
    (∀ (good : List ScriptEntry) (bad : List Byte), (∀ cap ∈ s.params.cinitCap, len.toNat ≤ cap) →
      (∀ e ∈ good, EntryFits e) → readBytes s.bmem addr.toNat len.toNat = scriptBytes good ++ bad → bad ≠ [] →
      (∀ e later, EntryFits e → bad ≠ entryBytes e ++ later) →
      exec (.config f dw dh rotation options nrec addr len recs) s =
        .next (faulted s 6 (BitVec.ofNat 32 (scriptBytes good).length)))

/-- `ROT_RANGE` (60_exceptions.md R248): an index that the table does not reach is stored and faults, and in a state with
the invariant nothing but such a `ROTATION` raises it. -/
def Obligations.RotationRange : Prop :=
  (∀ (value n : Byte) (s : State), s.configured = true → s.display.rotationsLen = some n →
    n.toNat ≤ value.toNat % 4 →
    exec (.rotation value) s = .next (faulted
      { s with display := { s.display with rotation := some (BitVec.ofNat 8 (value.toNat % 4)) } } 7
      (BitVec.ofNat 32 (value.toNat % 4)))) ∧
  (∀ (i : Instr) (s t : State), Inv s → s.fault = false → exec i s = .next t → t.fault = true → t.cause = 7 →
    ∃ value n : Byte, i = .rotation value ∧ s.display.rotationsLen = some n ∧ n.toNat ≤ value.toNat % 4 ∧ n.toNat ≤ 3)

/-! ## What an operation does when it completes: command writer, windows, fill engine -/

/-- `WRITE_CMD` (40_command_window_fill.md R120, R122). -/
def Obligations.WriteCmdCompletes : Prop :=
  ∀ (cmd : Byte) (addr len : DWord) (s : State), s.configured = true → HalQuiet s →
    addr.toNat + len.toNat ≤ s.params.bmemSize →
    exec (.writeCmd cmd addr len) s = .next { s with
      pc := s.pc + 5
      trace := s.trace ++ commandEvents s.display cmd (readBytes s.bmem addr.toNat len.toNat) }

/-- `SET_WINDOW` (40_command_window_fill.md R123, R124): a window inside the active area is programmed and expands the
tracked box, any other is dropped. -/
def Obligations.SetWindowCompletes : Prop :=
  ∀ (x0 y0 x1 y1 w h : Word) (s : State), Drawable s → HalQuiet s → s.display.width = some w →
    s.display.height = some h →
    exec (.setWindow x0 y0 x1 y1) s = .next (completed
      (if 0 ≤ x0.toInt ∧ x0.toInt ≤ x1.toInt ∧ x1.toInt < w.toNat ∧ 0 ≤ y0.toInt ∧ y0.toInt ≤ y1.toInt ∧
          y1.toInt < h.toNat then
        windowed s x0.toNat y0.toNat x1.toNat y1.toNat
      else s) 5)

/-- `FILL_BUF` (40_command_window_fill.md R128). -/
def Obligations.FillBufCompletes : Prop :=
  ∀ (color : Word) (n : DWord) (s : State), s.configured = true → HalQuiet s →
    exec (.fillBuf color n) s = .next { s with
      pc := s.pc + 4, trace := s.trace ++ pixelEvents s.display (fillChunks color n.toNat) }

/-- The fill engine's transfers (40_command_window_fill.md R125): full transfers of 128 pixels, one partial one if pixels
remain, and in all exactly `n` copies of the colour's two bytes, high byte first. -/
def Obligations.FillChunksExact : Prop :=
  ∀ (color : Word) (n : Nat),
    (fillChunks color n).flatten =
      (List.replicate n [color.extractLsb' 8 8, color.extractLsb' 0 8]).flatten ∧
    (fillChunks color n).map List.length =
      List.replicate (n / 128) 256 ++ (if n % 128 = 0 then [] else [2 * (n % 128)])

/-! ## Primitive drawing -/

/-- `PIXEL` (41_primitives.md R140, R141). -/
def Obligations.PixelCompletes : Prop :=
  ∀ (x y color : Word) (s : State), Drawable s → HalQuiet s →
    exec (.pixel x y color) s = .next (completed (drawAll s (pixelDraws s.display x.toInt y.toInt color)) 4)

/-- `HLINE` and `VLINE` (41_primitives.md R142 to R145). -/
def Obligations.FastLinesComplete : Prop :=
  ∀ (x y len color : Word) (s : State), Drawable s → HalQuiet s →
    exec (.hline x y len color) s =
      .next (completed (drawAll s (hlineDraws s.display x.toInt y.toInt len.toInt color)) 5) ∧
    exec (.vline x y len color) s =
      .next (completed (drawAll s (vlineDraws s.display x.toInt y.toInt len.toInt color)) 5)

/-- `RECT` (41_primitives.md R146). -/
def Obligations.RectCompletes : Prop :=
  ∀ (x y w h color : Word) (s : State), Drawable s → HalQuiet s →
    exec (.rect x y w h color) s =
      .next (completed (drawAll s (rectDraws s.display x.toInt y.toInt w.toInt h.toInt color)) 6)

/-- `FILL_RECT` and `FILL` (41_primitives.md R147, R148): the whole rectangle or nothing, and the whole active area. -/
def Obligations.FillsComplete : Prop :=
  ∀ (x y w h color : Word) (s : State), Drawable s → HalQuiet s →
    exec (.fillRect x y w h color) s =
      .next (completed (drawAll s (fillRectDraws s.display x.toInt y.toInt w.toInt h.toInt color)) 6) ∧
    exec (.fill color) s = .next (completed (drawAll s (fillDraws s.display color)) 2)

/-- `LINE` (42_line.md R161, R162): the runs of the oriented line, in order. -/
def Obligations.LineCompletes : Prop :=
  ∀ (x0 y0 x1 y1 color : Word) (s : State), Drawable s → HalQuiet s →
    exec (.line x0 y0 x1 y1 color) s = .next (completed
      (drawAll s ((orientLine x0.toInt y0.toInt x1.toInt y1.toInt).runs.flatMap
        (runDraws s.display (orientLine x0.toInt y0.toInt x1.toInt y1.toInt).steep color))) 6)

/-- The line by its operands and in closed form: the two swaps, extents and step of 42_line.md R161; the runs, none empty,
visit every major coordinate once, in order, at the Bresenham minor coordinate (R163), and each run is as long as it can
be: the next one has another minor coordinate (R161, R165). -/
def Obligations.LineClosedForm : Prop :=
  ∀ x0 y0 x1 y1 : Int,
    let l := orientLine x0 y0 x1 y1
    (if |y1 - y0| > |x1 - x0| then
      if y0 > y1 then
        l = ⟨true, y1, x1, y0, x0⟩ ∧ l.dx = y0 - y1 ∧ l.dy = |x0 - x1| ∧ l.ystep = if x1 < x0 then 1 else -1
      else
        l = ⟨true, y0, x0, y1, x1⟩ ∧ l.dx = y1 - y0 ∧ l.dy = |x1 - x0| ∧ l.ystep = if x0 < x1 then 1 else -1
    else if x0 > x1 then
      l = ⟨false, x1, y1, x0, y0⟩ ∧ l.dx = x0 - x1 ∧ l.dy = |y0 - y1| ∧ l.ystep = if y1 < y0 then 1 else -1
    else
      l = ⟨false, x0, y0, x1, y1⟩ ∧ l.dx = x1 - x0 ∧ l.dy = |y1 - y0| ∧ l.ystep = if y0 < y1 then 1 else -1) ∧
    (∀ r ∈ l.runs, 1 ≤ r.dlen) ∧
    (∀ before a b later, l.runs = before ++ a :: b :: later → a.y ≠ b.y) ∧
    l.runs.flatMap runPoints = (List.range (l.dx + 1).toNat).map (idealPoint l)

/-- The order of a line's endpoints does not matter (42_line.md R164), in any state and whatever the HAL answers. -/
def Obligations.LineEndpointOrder : Prop :=
  ∀ (a b c d color : Word) (s : State), exec (.line a b c d color) s = exec (.line c d a b color) s

/-! ## Buffers -/

/-- `BLIT` (43_buffers.md R171), and its transfers: 256 bytes each, one remainder, the bytes as they are. -/
def Obligations.BlitCompletes : Prop :=
  (∀ (addr len : DWord) (x y w h : Word) (s : State), Drawable s → HalQuiet s →
    addr.toNat + len.toNat ≤ s.params.bmemSize →
    exec (.blit addr len x y w h) s = .next (completed
      (drawAll s (blitDraws s.display (readBytes s.bmem addr.toNat len.toNat) x.toInt y.toInt w.toInt h.toInt)) 9)) ∧
  ∀ bytes : List Byte, (blitChunks bytes).flatten = bytes ∧
    (blitChunks bytes).map List.length =
      List.replicate (bytes.length / 256) 256 ++ (if bytes.length % 256 = 0 then [] else [bytes.length % 256])

/-- `MAPBITS` (43_buffers.md R173), in any state: `r[0]` counts the pixels, the destination's first bytes are the
expansion of the source as it was, and every other byte of memory is as before. -/
def Obligations.MapbitsCompletes : Prop :=
  ∀ (src srclen dst dstcap : DWord) (width fg bg : Word) (s : State), MemoryOk s → width ≠ 0 →
    src.toNat + srclen.toNat ≤ s.params.bmemSize → dst.toNat + dstcap.toNat ≤ s.params.bmemSize →
    2 * expandedPixels width.toNat srclen.toNat ≤ dstcap.toNat →
    ∃ m : Memory,
      exec (.mapbits src srclen dst dstcap width fg bg) s = .next { s with
        pc := s.pc + 12
        results := { s.results with r0 := some (BitVec.ofNat 32 (expandedPixels width.toNat srclen.toNat)) }
        bmem := m } ∧
      ∀ a, readByte m a =
        if dst.toNat ≤ a ∧ a < dst.toNat + 2 * expandedPixels width.toNat srclen.toNat then
          (expand (readBytes s.bmem src.toNat srclen.toNat) width.toNat fg bg).getD (a - dst.toNat) 0
        else readByte s.bmem a

/-- The expansion of a bit array, pixel by pixel (43_buffers.md R172): rows are byte-aligned in the source, most significant
bit first, and a row's unused bits are discarded. -/
def Obligations.ExpandClosedForm : Prop :=
  ∀ (bits : List Byte) (width : Nat) (fg bg : Word), 1 ≤ width →
    expand bits width fg bg = (List.range (expandedPixels width bits.length)).flatMap fun p =>
      if sourceBit bits width p then [fg.extractLsb' 8 8, fg.extractLsb' 0 8]
      else [bg.extractLsb' 8 8, bg.extractLsb' 0 8]

/-! ## Orientation and dirty box -/

/-- `ROTATION` (44_orientation_dirtybox.md R182, R183). -/
def Obligations.RotationCompletes : Prop :=
  ∀ (value n co : Byte) (table : List RotRec) (rec : RotRec) (s : State), s.configured = true → HalQuiet s →
    s.display.rotationsLen = some n → s.display.rot = some table → s.display.colorOrder = some co →
    value.toNat % 4 < n.toNat → table[value.toNat % 4]? = some rec →
    exec (.rotation value) s = .next { s with
      pc := s.pc + 1
      geomValid := true
      display := { s.display with
        rotation := some (BitVec.ofNat 8 (value.toNat % 4))
        madctl := some (co.setWidth 16 ||| rec.madctl)
        width := some rec.width, height := some rec.height
        colstart := some rec.colstart, rowstart := some rec.rowstart
        minX := some rec.width, minY := some rec.height, maxX := some 0, maxY := some 0 }
      trace := s.trace ++ commandEvents s.display 0x36 [(co.setWidth 16 ||| rec.madctl).extractLsb' 0 8] }

/-- `OFFSET` (44_orientation_dirtybox.md R185). -/
def Obligations.OffsetCompletes : Prop :=
  ∀ (col row : Word) (s : State),
    (s.configured = true → exec (.offset col row) s = .next { s with
      pc := s.pc + 3, display := { s.display with colstart := some col, rowstart := some row } }) ∧
    (s.configured = false → exec (.offset col row) s = .next (faulted s 2 0))

/-- `MADCTL_GET` and `MADCTL_SET` (44_orientation_dirtybox.md R186, R187). -/
def Obligations.MadctlCompletes : Prop :=
  ∀ s : State, s.configured = true →
    (∀ v : Word, s.display.madctl = some v → exec .madctlGet s = .next { s with
      pc := s.pc + 1, results := { s.results with r0 := some (v.setWidth 32) } }) ∧
    (∀ v : Word, HalQuiet s → exec (.madctlSet v) s = .next { s with
      pc := s.pc + 2
      display := { s.display with madctl := some v }
      results := { s.results with r0 := some (v.setWidth 32) }
      trace := s.trace ++ commandEvents s.display 0x36 [v.extractLsb' 0 8] })

/-- `BOUNDING_GET` and `BOUNDING_SET` (44_orientation_dirtybox.md R188, R189): the box before the reset is what both
answer. -/
def Obligations.BoundingCompletes : Prop :=
  ∀ (asSize enable : Bool) (x0 y0 x1 y1 w h : Word) (s : State), s.configured = true → s.geomValid = true →
    s.display.minX = some x0 → s.display.minY = some y0 → s.display.maxX = some x1 → s.display.maxY = some y1 →
    s.display.width = some w → s.display.height = some h →
    let box : Results :=
      { r0 := some (x0.setWidth 32), r1 := some (y0.setWidth 32)
        r2 := some (if asSize then BitVec.ofInt 32 (x1.toNat - x0.toNat + 1) else x1.setWidth 32)
        r3 := some (if asSize then BitVec.ofInt 32 (y1.toNat - y0.toNat + 1) else y1.setWidth 32) }
    exec (.boundingGet asSize) s = .next { s with pc := s.pc + 1, results := box } ∧
    exec (.boundingSet asSize enable) s = .next { s with
      pc := s.pc + 1
      results := box
      display := { s.display with
        bounding := some enable, minX := some w, minY := some h, maxX := some 0, maxY := some 0 } }

/-- The tracker's contract (44_orientation_dirtybox.md R190): from the empty box, a sequence of `SET_WINDOW`s leaves the
union of the windows that were programmed, and dropped windows expand nothing. -/
def Obligations.DirtyBoxIsUnion : Prop :=
  ∀ (ws : List (Word × Word × Word × Word)) (w h : Word) (s : State), Drawable s → HalQuiet s →
    s.display.bounding = some true → s.display.width = some w → s.display.height = some h →
    s.display.minX = some w → s.display.minY = some h → s.display.maxX = some 0 → s.display.maxY = some 0 →
    let programmed := ws.filter fun g =>
      decide (0 ≤ g.1.toInt ∧ g.1.toInt ≤ g.2.2.1.toInt ∧ g.2.2.1.toInt < (w.toNat : Int) ∧
        0 ≤ g.2.1.toInt ∧ g.2.1.toInt ≤ g.2.2.2.toInt ∧ g.2.2.2.toInt < (h.toNat : Int))
    ∃ t, execAll (ws.map fun g => .setWindow g.1 g.2.1 g.2.2.1 g.2.2.2) s = .next t ∧
      (programmed = [] → t.display = s.display ∧ t.trace = s.trace) ∧
      (programmed ≠ [] → ∃ x0 y0 x1 y1 : Word,
        t.display = { s.display with minX := some x0, minY := some y0, maxX := some x1, maxY := some y1 } ∧
        (∃ g ∈ programmed, x0 = g.1) ∧ (∀ g ∈ programmed, x0 ≤ g.1) ∧
        (∃ g ∈ programmed, y0 = g.2.1) ∧ (∀ g ∈ programmed, y0 ≤ g.2.1) ∧
        (∃ g ∈ programmed, x1 = g.2.2.1) ∧ (∀ g ∈ programmed, g.2.2.1 ≤ x1) ∧
        (∃ g ∈ programmed, y1 = g.2.2.2) ∧ (∀ g ∈ programmed, g.2.2.2 ≤ y1))

/-! ## Lifecycle -/

/-- `CONFIG` (45_lifecycle.md R201): the fields it writes, and every other field as before; no event. -/
def Obligations.ConfigCompletes : Prop :=
  ∀ (f : ConfigFlags) (dw dh rotation options nrec : Word) (addr len : DWord) (recs table : List RotRec)
    (script : CustomInit) (s : State),
    (Instr.config f dw dh rotation options nrec addr len recs).wellFormed = true →
    s.configured = false → f.dc = true → nrec.toNat ≤ 255 →
    (if nrec = 0 then IsBuiltIn s.params.presets dw dh table else recs = table) →
    (∀ r ∈ table, r.width ≠ 0 ∧ r.height ≠ 0) →
    (f.ci = false ∧ script = .absent ∨
      f.ci = true ∧ addr.toNat + len.toNat ≤ s.params.bmemSize ∧ (∀ cap ∈ s.params.cinitCap, len.toNat ≤ cap) ∧
        ∃ entries, script = .script entries ∧ (∀ e ∈ entries, EntryFits e) ∧
          readBytes s.bmem addr.toNat len.toNat = scriptBytes entries) →
    exec (.config f dw dh rotation options nrec addr len recs) s = .next { s with
      pc := s.pc + (10 + 5 * nrec.toNat)
      configured := true
      display := { s.display with
        displayWidth := some dw, displayHeight := some dh
        rot := some table
        rotationsLen := some (BitVec.ofNat 8 table.length)
        rotation := some (BitVec.ofNat 8 (rotation.toNat % table.length))
        options := some (options.extractLsb' 0 8)
        colorOrder := some (if f.bgr then 0x08 else 0x00)
        inversion := some f.inv
        csPresent := some f.cs, rstPresent := some f.rst, blPresent := some f.bl
        bounding := some false
        cinit := some script } }

/-- `INIT` (45_lifecycle.md R205, R206), with the default sequence or a custom script: hard reset, the panel's own
initialisation, the orientation, 10 ms, a black screen, the backlight. -/
def Obligations.InitCompletes : Prop :=
  ∀ (k n co : Byte) (table : List RotRec) (rec : RotRec) (panel : List Event) (s : State),
    s.configured = true → HalQuiet s → panelInitEvents s.display = some panel →
    s.display.rotation = some k → s.display.rotationsLen = some n → s.display.rot = some table →
    s.display.colorOrder = some co → k.toNat < n.toNat → table[k.toNat]? = some rec →
    rec.width ≠ 0 → rec.height ≠ 0 → s.display.options.isSome → s.display.bounding.isSome →
    let t := drawAll { s with
      geomValid := true
      display := rotated s.display co rec
      trace := s.trace ++ hardResetEvents s.display ++ panel ++
        commandEvents s.display 0x36 [(co.setWidth 16 ||| rec.madctl).extractLsb' 0 8] ++ [Event.delay 10] }
      [⟨0, 0, rec.width.toNat - 1, rec.height.toNat - 1, fillChunks 0 (rec.width.toNat * rec.height.toNat)⟩]
    exec .init s = .next { t with pc := s.pc + 1, trace := t.trace ++ pinEvents s.display .bl true }

/-- `HARD_RESET` and `SOFT_RESET` (45_lifecycle.md R203, R204): events only, each pin written when its presence bit is 1
(20_memory.md R63); the hard reset needs no transfer. -/
def Obligations.ResetsComplete : Prop :=
  ∀ s : State, s.configured = true →
    let cs : Bool → List Event := fun l => if s.display.csPresent = some true then [Event.pin Pin.cs l] else []
    let rst : Bool → List Event := fun l => if s.display.rstPresent = some true then [Event.pin Pin.rst l] else []
    exec .hardReset s = .next { s with
      pc := s.pc + 1
      trace := s.trace ++ cs false ++ rst true ++ [Event.delay 50] ++ rst false ++ [Event.delay 50] ++ rst true ++
        [Event.delay 150] ++ cs true } ∧
    (HalQuiet s → exec .softReset s = .next { s with
      pc := s.pc + 1
      trace := s.trace ++ cs false ++ [Event.pin Pin.dc false, Event.spi [0x01]] ++ cs true ++ [Event.delay 150] })

/-- `SLEEP_MODE` and `INVERSION_MODE` (45_lifecycle.md R207, R208). -/
def Obligations.ModesComplete : Prop :=
  ∀ (flag : Bool) (s : State), s.configured = true → HalQuiet s →
    exec (.sleepMode flag) s = .next { s with
      pc := s.pc + 1, trace := s.trace ++ commandEvents s.display (if flag then 0x10 else 0x11) [] } ∧
    exec (.inversionMode flag) s = .next { s with
      pc := s.pc + 1
      display := { s.display with inversion := some flag }
      trace := s.trace ++ commandEvents s.display (if flag then 0x21 else 0x20) [] }

/-- `ON` and `OFF` (45_lifecycle.md R209, R210): the backlight pin if it is connected, and 10 ms. -/
def Obligations.BacklightCompletes : Prop :=
  ∀ s : State, s.configured = true →
    exec .on s = .next { s with
      pc := s.pc + 1
      trace := s.trace ++ (if s.display.blPresent = some true then [Event.pin Pin.bl true] else []) ++
        [Event.delay 10] } ∧
    exec .off s = .next { s with
      pc := s.pc + 1
      trace := s.trace ++ (if s.display.blPresent = some true then [Event.pin Pin.bl false] else []) ++
        [Event.delay 10] }

/-- `VSCRDEF` and `VSCSAD` (45_lifecycle.md R211, R212): six and two bytes, each value high byte first. -/
def Obligations.ScrollCompletes : Prop :=
  ∀ (a b c : Word) (s : State), s.configured = true → HalQuiet s →
    exec (.vscrdef a b c) s = .next { s with
      pc := s.pc + 4
      trace := s.trace ++ commandEvents s.display 0x33
        [a.extractLsb' 8 8, a.extractLsb' 0 8, b.extractLsb' 8 8, b.extractLsb' 0 8, c.extractLsb' 8 8,
          c.extractLsb' 0 8] } ∧
    exec (.vscsad a) s = .next { s with
      pc := s.pc + 2
      trace := s.trace ++ commandEvents s.display 0x37 [a.extractLsb' 8 8, a.extractLsb' 0 8] }

/-! ## Colour -/

/-- `COLOR565` (46_color.md R231), in any state, by the arithmetic of its fields. -/
def Obligations.Color565Completes : Prop :=
  ∀ (r g b : Word) (s : State), exec (.color565 r g b) s = .next { s with
    pc := s.pc + 4
    results := { s.results with r0 := some (BitVec.ofNat 32
      (r.toNat % 256 / 8 * 2048 + g.toNat % 256 / 4 * 32 + b.toNat % 256 / 8)) } }

/-- The round trip of a colour (46_color.md R233): unpacking the packed 8-bit channels loses only their low bits. -/
def Obligations.ColorRoundTrip : Prop :=
  ∀ (r g b : Word) (s : State), r.toNat < 256 → g.toNat < 256 → b.toNat < 256 →
    ∃ (t : State) (c : DWord), exec (.color565 r g b) s = .next t ∧ t.results.r0 = some c ∧ c.toNat < 65536 ∧
      (c.extractLsb' 11 5).toNat = r.toNat / 8 ∧ (c.extractLsb' 5 6).toNat = g.toNat / 4 ∧
      (c.extractLsb' 0 5).toNat = b.toNat / 8 ∧
      r.toNat - 8 * (r.toNat / 8) ≤ 7 ∧ g.toNat - 4 * (g.toNat / 4) ≤ 3 ∧ b.toNat - 8 * (b.toNat / 8) ≤ 7

/-! ## Lit pixels -/

/-- A programmed window followed by its pixels lights exactly its rectangle in the operation's colour, whatever the observer
held before; and the lit set of every operation of the primitives and of `LINE`, when it completes with offsets whose sums
fit in 16 bits, is the set that 41_primitives.md R149 and 42_line.md R163 give, all in the operation's colour
(20_memory.md R82, R83). The deposit order rests on the spec's general knowledge; the model's observer takes it from there,
with an arbitrary start (log entries 10 and 22). -/
def Obligations.WindowLightsRectangle : Prop :=
  (∀ (o : Observer) (d : Display) (c r color : Word) (x0 y0 x1 y1 k : Nat) (dc : Option Bool) (delivered : Nat → Nat),
    d.colstart = some c → d.rowstart = some r → x0 ≤ x1 → y0 ≤ y1 → x1 + c.toNat < 65536 → y1 + r.toNat < 65536 →
    ∀ column row : Nat,
      (o.run (wireFrom delivered dc k
        (windowEvents d x0 y0 x1 y1 ++ pixelEvents d (fillChunks color ((x1 - x0 + 1) * (y1 - y0 + 1)))))).pixelAt
          column row =
        if x0 + c.toNat ≤ column ∧ column ≤ x1 + c.toNat ∧ y0 + r.toNat ≤ row ∧ row ≤ y1 + r.toNat then some color
        else o.pixelAt column row) ∧
  ∀ (o : Observer) (delivered : Nat → Nat) (s : State) (w h c r : Word) (options : Byte), Drawable s → HalQuiet s →
    s.display.width = some w → s.display.height = some h → s.display.colstart = some c → s.display.rowstart = some r →
    s.display.options = some options → c.toNat + w.toNat ≤ 65536 → r.toNat + h.toNat ≤ 65536 →
    (∀ (i : Instr) (color : Word) (points : List (Int × Int)), drawnPoints i = some (color, points) →
      LightsExactly o delivered i s color fun x y =>
        InArea w h x y ∧ ∃ p ∈ points, wrapPoint options w h p = (x, y)) ∧
    (∀ x0 y0 rw rh color : Word, LightsExactly o delivered (.fillRect x0 y0 rw rh color) s color fun x y =>
      (∀ u v : Int, x0.toInt ≤ u ∧ u < x0.toInt + rw.toInt ∧ y0.toInt ≤ v ∧ v < y0.toInt + rh.toInt → InArea w h u v) ∧
      x0.toInt ≤ x ∧ x < x0.toInt + rw.toInt ∧ y0.toInt ≤ y ∧ y < y0.toInt + rh.toInt) ∧
    (∀ color : Word, LightsExactly o delivered (.fill color) s color (InArea w h))

end Statements
end

