-- ==== Sys2Proof/Laws/Memory.lean ====
section
/-! SUPPORT. Buffer memory: a read after a write, reads elsewhere, and every memory operation keeps the canonical form. -/

namespace Sys2Proof.Laws

open Sys2Proof.Machine

/-! ## Reads of one byte -/

@[simp] theorem read_byte_nil (a : Nat) : readByte [] a = unlistedByte := rfl

/-- An address below every listed one reads as an unlisted address. -/
theorem read_byte_below (m : Memory) (a : Nat) (h : ∀ c ∈ m, a < c.1) : readByte m a = unlistedByte := by
  induction m with
  | nil => rfl
  | cons c m ih =>
    have hc := h c (by simp)
    simp only [readByte]
    rw [if_neg (by omega)]
    exact ih fun d hd => h d (by simp [hd])

/-- The addresses of a canonical memory rise strictly. -/
theorem wf_cons {c : Host.Cell} {m : Memory} (h : Memory.wf (c :: m) = true) :
    (∀ d ∈ m, c.1 < d.1) ∧ c.2 ≠ unlistedByte ∧ Memory.wf m = true := by
  simp only [Memory.wf, List.pairwise_cons, List.all_cons, Bool.and_eq_true, decide_eq_true_eq, bne_iff_ne] at h ⊢
  exact ⟨h.1.1, h.2.1, h.1.2, h.2.2⟩

theorem wf_of_cons {c : Host.Cell} {m : Memory} (h1 : ∀ d ∈ m, c.1 < d.1) (h2 : c.2 ≠ unlistedByte)
    (h3 : Memory.wf m = true) : Memory.wf (c :: m) = true := by
  simp only [Memory.wf, List.pairwise_cons, List.all_cons, Bool.and_eq_true, decide_eq_true_eq, bne_iff_ne] at h3 ⊢
  exact ⟨⟨h1, h3.1⟩, h2, h3.2⟩

/-! ## Writes of one byte -/

/-- What a written memory lists: the old cells and perhaps the written one. -/
theorem mem_write_byte {m : Memory} {a : Nat} {b : Byte} {c : Host.Cell} (h : c ∈ writeByte m a b) :
    c = (a, b) ∧ b ≠ unlistedByte ∨ c ∈ m := by
  induction m with
  | nil =>
    simp only [writeByte] at h
    split at h <;> simp_all
  | cons d m ih =>
    obtain ⟨a', b'⟩ := d
    simp only [writeByte] at h
    split at h <;> [split at h; (split at h <;> [split at h; skip])]
    · exact .inr h
    · rcases List.mem_cons.1 h with h | h
      · exact .inl ⟨h, by assumption⟩
      · exact .inr h
    · exact .inr (List.mem_cons_of_mem _ h)
    · rcases List.mem_cons.1 h with h | h
      · exact .inl ⟨h, by assumption⟩
      · exact .inr (List.mem_cons_of_mem _ h)
    · rcases List.mem_cons.1 h with h | h
      · exact .inr (by simp [h])
      · rcases ih h with h | h
        · exact .inl h
        · exact .inr (List.mem_cons_of_mem _ h)

/-- A write of one byte keeps the canonical form. -/
theorem write_byte_wf (m : Memory) (a : Nat) (b : Byte) (h : Memory.wf m = true) :
    Memory.wf (writeByte m a b) = true := by
  induction m with
  | nil =>
    simp only [writeByte]
    split
    · rfl
    · exact wf_of_cons (by simp) ‹_› rfl
  | cons c m ih =>
    obtain ⟨a', b'⟩ := c
    obtain ⟨h1, h2, h3⟩ := wf_cons h
    simp only [writeByte]
    split <;> [split; (split <;> [split; skip])]
    · exact h
    · refine wf_of_cons (fun d hd => ?_) ‹_› h
      rcases List.mem_cons.1 hd with hd | hd
      · simpa [hd] using ‹a < a'›
      · exact Nat.lt_trans ‹a < a'› (h1 d hd)
    · exact h3
    · refine wf_of_cons (fun d hd => ?_) ‹_› h3
      have := h1 d hd
      simp_all
    · refine wf_of_cons (fun d hd => ?_) h2 (ih h3)
      rcases mem_write_byte hd with ⟨hd, -⟩ | hd
      · simp only [hd]; omega
      · exact h1 d hd

/-- A read after a write, at any address: the canonical form is what makes a removed cell read as unlisted. -/
theorem read_write_byte (m : Memory) (a a' : Nat) (b : Byte) (h : Memory.wf m = true) :
    readByte (writeByte m a b) a' = if a' = a then b else readByte m a' := by
  induction m with
  | nil =>
    simp only [writeByte]
    split <;> simp_all [readByte]
  | cons c m ih =>
    obtain ⟨k, v⟩ := c
    obtain ⟨h1, h2, h3⟩ := wf_cons h
    have below : ∀ x, x ≤ k → readByte m x = unlistedByte := fun x hx =>
      read_byte_below m x fun c hc => Nat.lt_of_le_of_lt hx (h1 c hc)
    simp only [writeByte]
    split <;> [split; (split <;> [split; skip])]
    · by_cases e : a' = a
      · subst e; rw [if_pos rfl]; simp only [readByte]; rw [if_neg (by omega), below _ (by omega)]; exact Eq.symm ‹_›
      · rw [if_neg e]
    · by_cases e : a' = a
      · simp [readByte, e]
      · simp [readByte, e]
    · subst k
      by_cases e : a' = a
      · subst e; rw [if_pos rfl, below _ (Nat.le_refl _)]; exact Eq.symm ‹_›
      · simp [readByte, e]
    · subst k
      by_cases e : a' = a
      · simp [readByte, e]
      · simp [readByte, e]
    · have hk := ih h3
      by_cases e : a' = k
      · subst e
        rw [if_neg (by omega)]
        simp [readByte]
      · simp only [readByte, if_neg e]
        exact hk

/-- A write of one byte below `size` lists nothing at or above it. -/
theorem write_byte_within (m : Memory) (a : Nat) (b : Byte) (size : Nat) (h : Memory.within m size = true)
    (ha : a < size) : Memory.within (writeByte m a b) size = true := by
  simp only [Memory.within, List.all_eq_true, decide_eq_true_eq] at h ⊢
  intro c hc
  rcases mem_write_byte hc with ⟨hc, -⟩ | hc
  · simp [hc, ha]
  · exact h c hc

/-! ## Ranges -/

@[simp] theorem read_bytes_length (m : Memory) (addr n : Nat) : (readBytes m addr n).length = n := by
  simp [readBytes]

theorem read_bytes_get (m : Memory) (addr n i : Nat) (h : i < n) :
    (readBytes m addr n)[i]? = some (readByte m (addr + i)) := by
  simp [readBytes, h]

/-- A write of a range keeps the canonical form. -/
theorem write_bytes_wf (v : List Byte) (m : Memory) (addr : Nat) (h : Memory.wf m = true) :
    Memory.wf (writeBytes m addr v) = true := by
  induction v generalizing m addr with
  | nil => exact h
  | cons b bs ih => exact ih _ _ (write_byte_wf m addr b h)

/-- A write of a range below `size` lists nothing at or above it. -/
theorem write_bytes_within (v : List Byte) (m : Memory) (addr size : Nat) (h : Memory.within m size = true)
    (ha : addr + v.length ≤ size) : Memory.within (writeBytes m addr v) size = true := by
  induction v generalizing m addr with
  | nil => exact h
  | cons b bs ih =>
    rw [List.length_cons] at ha
    exact ih _ _ (write_byte_within m addr b size h (by omega)) (by omega)

/-- Every byte after a write of a range: the written byte inside it, the old byte outside. -/
theorem read_write_bytes (v : List Byte) (m : Memory) (addr a : Nat) (h : Memory.wf m = true) :
    readByte (writeBytes m addr v) a =
      if addr ≤ a ∧ a < addr + v.length then v.getD (a - addr) 0 else readByte m a := by
  induction v generalizing m addr with
  | nil => simp [writeBytes]
  | cons b bs ih =>
    rw [writeBytes, ih _ _ (write_byte_wf m addr b h), read_write_byte m addr a b h]
    simp only [List.length_cons]
    by_cases h1 : a = addr
    · subst h1
      rw [if_neg (by omega), if_pos rfl, if_pos (by omega)]; simp
    · by_cases h2 : addr + 1 ≤ a ∧ a < addr + 1 + bs.length
      · rw [if_pos h2, if_pos (by omega)]
        obtain ⟨k, rfl⟩ : ∃ k, a = addr + 1 + k := ⟨a - (addr + 1), by omega⟩
        rw [show addr + 1 + k - (addr + 1) = k by omega, show addr + 1 + k - addr = k + 1 by omega]
        simp
      · rw [if_neg h2, if_neg h1, if_neg (by omega)]

/-- The memory of the reset state is canonical. -/
theorem reset_memory_wf : Memory.wf State.reset.bmem = true := rfl

/-- Two canonical memories that read the same everywhere are the same list. -/
theorem wf_ext {m n : Memory} (hm : Memory.wf m = true) (hn : Memory.wf n = true)
    (h : ∀ a, readByte m a = readByte n a) : m = n := by
  induction m generalizing n with
  | nil =>
    cases n with
    | nil => rfl
    | cons d n =>
      obtain ⟨-, h2, -⟩ := wf_cons hn
      have := h d.1
      simp only [readByte] at this
      exact absurd this.symm h2
  | cons c m ih =>
    obtain ⟨c1, c2, c3⟩ := wf_cons hm
    cases n with
    | nil =>
      have := h c.1
      simp only [readByte] at this
      exact absurd this c2
    | cons d n =>
      obtain ⟨d1, d2, d3⟩ := wf_cons hn
      have hc : c.2 = if c.1 = d.1 then d.2 else readByte n c.1 := by simpa [readByte] using h c.1
      have hd : (if d.1 = c.1 then c.2 else readByte m d.1) = d.2 := by simpa [readByte] using h d.1
      have e : c.1 = d.1 := by
        rcases Nat.lt_trichotomy c.1 d.1 with lt | eq | gt
        · rw [if_neg (by omega), read_byte_below n c.1 fun x hx => Nat.lt_trans lt (d1 x hx)] at hc
          exact absurd hc c2
        · exact eq
        · rw [if_neg (by omega), read_byte_below m d.1 fun x hx => Nat.lt_trans gt (c1 x hx)] at hd
          exact absurd hd.symm d2
      rw [if_pos e] at hc
      have hcd : c = d := Prod.ext e (by simpa using hc)
      subst hcd
      congr 1
      refine ih c3 d3 fun a => ?_
      by_cases ha : a ≤ c.1
      · rw [read_byte_below m a fun x hx => Nat.lt_of_le_of_lt ha (c1 x hx),
          read_byte_below n a fun x hx => Nat.lt_of_le_of_lt ha (d1 x hx)]
      · have := h a
        simpa only [readByte, if_neg (show ¬ a = c.1 by omega)] using this

end Sys2Proof.Laws
end

