-- ==== Sys2Proof/Laws/State.lean ====
section
/-! SUPPORT. One lemma for each field and each update of the state and of the Display, true by unfolding the update. -/

namespace Sys2Proof.Laws

open Sys2Proof.Machine Sys2Proof.Safety

/-! ## Events appended -/

@[simp] theorem emitted_pc (s : State) (es : List Event) : (s.emitted es).pc = s.pc := rfl
@[simp] theorem emitted_results (s : State) (es : List Event) : (s.emitted es).results = s.results := rfl
@[simp] theorem emitted_configured (s : State) (es : List Event) : (s.emitted es).configured = s.configured := rfl
@[simp] theorem emitted_geom_valid (s : State) (es : List Event) : (s.emitted es).geomValid = s.geomValid := rfl
@[simp] theorem emitted_fault (s : State) (es : List Event) : (s.emitted es).fault = s.fault := rfl
@[simp] theorem emitted_cause (s : State) (es : List Event) : (s.emitted es).cause = s.cause := rfl
@[simp] theorem emitted_info (s : State) (es : List Event) : (s.emitted es).info = s.info := rfl
@[simp] theorem emitted_display (s : State) (es : List Event) : (s.emitted es).display = s.display := rfl
@[simp] theorem emitted_bmem (s : State) (es : List Event) : (s.emitted es).bmem = s.bmem := rfl
@[simp] theorem emitted_trace (s : State) (es : List Event) : (s.emitted es).trace = s.trace ++ es := rfl
@[simp] theorem emitted_prog (s : State) (es : List Event) : (s.emitted es).prog = s.prog := rfl
@[simp] theorem emitted_params (s : State) (es : List Event) : (s.emitted es).params = s.params := rfl

/-! ## Fault entry -/

@[simp] theorem enter_fault_pc (c : Cause) (n : Nat) (s : State) : (enterFault c n s).pc = s.pc := rfl
@[simp] theorem enter_fault_results (c : Cause) (n : Nat) (s : State) : (enterFault c n s).results = s.results := rfl
@[simp] theorem enter_fault_configured (c : Cause) (n : Nat) (s : State) : (enterFault c n s).configured = s.configured := rfl
@[simp] theorem enter_fault_geom_valid (c : Cause) (n : Nat) (s : State) : (enterFault c n s).geomValid = s.geomValid := rfl
@[simp] theorem enter_fault_fault (c : Cause) (n : Nat) (s : State) : (enterFault c n s).fault = true := rfl
@[simp] theorem enter_fault_cause (c : Cause) (n : Nat) (s : State) : (enterFault c n s).cause = c.code := rfl
@[simp] theorem enter_fault_info (c : Cause) (n : Nat) (s : State) : (enterFault c n s).info = infoWord n := rfl
@[simp] theorem enter_fault_display (c : Cause) (n : Nat) (s : State) : (enterFault c n s).display = s.display := rfl
@[simp] theorem enter_fault_bmem (c : Cause) (n : Nat) (s : State) : (enterFault c n s).bmem = s.bmem := rfl
@[simp] theorem enter_fault_trace (c : Cause) (n : Nat) (s : State) : (enterFault c n s).trace = s.trace := rfl
@[simp] theorem enter_fault_prog (c : Cause) (n : Nat) (s : State) : (enterFault c n s).prog = s.prog := rfl
@[simp] theorem enter_fault_params (c : Cause) (n : Nat) (s : State) : (enterFault c n s).params = s.params := rfl

/-! ## Completion -/

@[simp] theorem completed_pc (s : State) (len : Nat) : (completed s len).pc = s.pc + len := rfl
@[simp] theorem completed_results (s : State) (len : Nat) : (completed s len).results = s.results := rfl
@[simp] theorem completed_configured (s : State) (len : Nat) : (completed s len).configured = s.configured := rfl
@[simp] theorem completed_geom_valid (s : State) (len : Nat) : (completed s len).geomValid = s.geomValid := rfl
@[simp] theorem completed_fault (s : State) (len : Nat) : (completed s len).fault = s.fault := rfl
@[simp] theorem completed_cause (s : State) (len : Nat) : (completed s len).cause = s.cause := rfl
@[simp] theorem completed_info (s : State) (len : Nat) : (completed s len).info = s.info := rfl
@[simp] theorem completed_display (s : State) (len : Nat) : (completed s len).display = s.display := rfl
@[simp] theorem completed_bmem (s : State) (len : Nat) : (completed s len).bmem = s.bmem := rfl
@[simp] theorem completed_trace (s : State) (len : Nat) : (completed s len).trace = s.trace := rfl
@[simp] theorem completed_prog (s : State) (len : Nat) : (completed s len).prog = s.prog := rfl
@[simp] theorem completed_params (s : State) (len : Nat) : (completed s len).params = s.params := rfl

/-! ## Hardware reset -/

@[simp] theorem hardware_reset_pc (s : State) : (s.hardwareReset).pc = 0 := rfl
@[simp] theorem hardware_reset_results (s : State) : (s.hardwareReset).results = State.reset.results := rfl
@[simp] theorem hardware_reset_configured (s : State) : (s.hardwareReset).configured = false := rfl
@[simp] theorem hardware_reset_geom_valid (s : State) : (s.hardwareReset).geomValid = false := rfl
@[simp] theorem hardware_reset_fault (s : State) : (s.hardwareReset).fault = false := rfl
@[simp] theorem hardware_reset_cause (s : State) : (s.hardwareReset).cause = 0 := rfl
@[simp] theorem hardware_reset_info (s : State) : (s.hardwareReset).info = 0 := rfl
@[simp] theorem hardware_reset_display (s : State) : (s.hardwareReset).display = Display.unset := rfl
@[simp] theorem hardware_reset_bmem (s : State) : (s.hardwareReset).bmem = s.bmem := rfl
@[simp] theorem hardware_reset_trace (s : State) : (s.hardwareReset).trace = [] := rfl
@[simp] theorem hardware_reset_prog (s : State) : (s.hardwareReset).prog = s.prog := rfl
@[simp] theorem hardware_reset_params (s : State) : (s.hardwareReset).params = s.params := rfl

/-! ## A programmed window -/

@[simp] theorem windowed_pc (s : State) (x0 y0 x1 y1 : Nat) : (windowed s x0 y0 x1 y1).pc = s.pc := rfl
@[simp] theorem windowed_results (s : State) (x0 y0 x1 y1 : Nat) : (windowed s x0 y0 x1 y1).results = s.results := rfl
@[simp] theorem windowed_configured (s : State) (x0 y0 x1 y1 : Nat) : (windowed s x0 y0 x1 y1).configured = s.configured := rfl
@[simp] theorem windowed_geom_valid (s : State) (x0 y0 x1 y1 : Nat) : (windowed s x0 y0 x1 y1).geomValid = s.geomValid := rfl
@[simp] theorem windowed_fault (s : State) (x0 y0 x1 y1 : Nat) : (windowed s x0 y0 x1 y1).fault = s.fault := rfl
@[simp] theorem windowed_cause (s : State) (x0 y0 x1 y1 : Nat) : (windowed s x0 y0 x1 y1).cause = s.cause := rfl
@[simp] theorem windowed_info (s : State) (x0 y0 x1 y1 : Nat) : (windowed s x0 y0 x1 y1).info = s.info := rfl
@[simp] theorem windowed_display (s : State) (x0 y0 x1 y1 : Nat) : (windowed s x0 y0 x1 y1).display = boxWith s.display x0 y0 x1 y1 := rfl
@[simp] theorem windowed_bmem (s : State) (x0 y0 x1 y1 : Nat) : (windowed s x0 y0 x1 y1).bmem = s.bmem := rfl
@[simp] theorem windowed_trace (s : State) (x0 y0 x1 y1 : Nat) : (windowed s x0 y0 x1 y1).trace = s.trace ++ windowEvents s.display x0 y0 x1 y1 := rfl
@[simp] theorem windowed_prog (s : State) (x0 y0 x1 y1 : Nat) : (windowed s x0 y0 x1 y1).prog = s.prog := rfl
@[simp] theorem windowed_params (s : State) (x0 y0 x1 y1 : Nat) : (windowed s x0 y0 x1 y1).params = s.params := rfl

/-! ## One draw -/

@[simp] theorem draw_one_pc (s : State) (g : Draw) : (drawOne s g).pc = s.pc := rfl
@[simp] theorem draw_one_results (s : State) (g : Draw) : (drawOne s g).results = s.results := rfl
@[simp] theorem draw_one_configured (s : State) (g : Draw) : (drawOne s g).configured = s.configured := rfl
@[simp] theorem draw_one_geom_valid (s : State) (g : Draw) : (drawOne s g).geomValid = s.geomValid := rfl
@[simp] theorem draw_one_fault (s : State) (g : Draw) : (drawOne s g).fault = s.fault := rfl
@[simp] theorem draw_one_cause (s : State) (g : Draw) : (drawOne s g).cause = s.cause := rfl
@[simp] theorem draw_one_info (s : State) (g : Draw) : (drawOne s g).info = s.info := rfl
@[simp] theorem draw_one_display (s : State) (g : Draw) : (drawOne s g).display = boxWith s.display g.x0 g.y0 g.x1 g.y1 := rfl
@[simp] theorem draw_one_bmem (s : State) (g : Draw) : (drawOne s g).bmem = s.bmem := rfl
@[simp] theorem draw_one_trace (s : State) (g : Draw) : (drawOne s g).trace = s.trace ++ windowEvents s.display g.x0 g.y0 g.x1 g.y1 ++ pixelEvents s.display g.chunks := rfl
@[simp] theorem draw_one_prog (s : State) (g : Draw) : (drawOne s g).prog = s.prog := rfl
@[simp] theorem draw_one_params (s : State) (g : Draw) : (drawOne s g).params = s.params := rfl

/-! ## A rotation record applied -/

@[simp] theorem apply_record_display_width (co : Byte) (rec : RotRec) (d : Display) : (applyRecord co rec d).displayWidth = d.displayWidth := rfl
@[simp] theorem apply_record_display_height (co : Byte) (rec : RotRec) (d : Display) : (applyRecord co rec d).displayHeight = d.displayHeight := rfl
@[simp] theorem apply_record_width (co : Byte) (rec : RotRec) (d : Display) : (applyRecord co rec d).width = some rec.width := rfl
@[simp] theorem apply_record_height (co : Byte) (rec : RotRec) (d : Display) : (applyRecord co rec d).height = some rec.height := rfl
@[simp] theorem apply_record_colstart (co : Byte) (rec : RotRec) (d : Display) : (applyRecord co rec d).colstart = some rec.colstart := rfl
@[simp] theorem apply_record_rowstart (co : Byte) (rec : RotRec) (d : Display) : (applyRecord co rec d).rowstart = some rec.rowstart := rfl
@[simp] theorem apply_record_rotation (co : Byte) (rec : RotRec) (d : Display) : (applyRecord co rec d).rotation = d.rotation := rfl
@[simp] theorem apply_record_rotations_len (co : Byte) (rec : RotRec) (d : Display) : (applyRecord co rec d).rotationsLen = d.rotationsLen := rfl
@[simp] theorem apply_record_color_order (co : Byte) (rec : RotRec) (d : Display) : (applyRecord co rec d).colorOrder = d.colorOrder := rfl
@[simp] theorem apply_record_madctl (co : Byte) (rec : RotRec) (d : Display) : (applyRecord co rec d).madctl = some (co.setWidth 16 ||| rec.madctl) := rfl
@[simp] theorem apply_record_inversion (co : Byte) (rec : RotRec) (d : Display) : (applyRecord co rec d).inversion = d.inversion := rfl
@[simp] theorem apply_record_options (co : Byte) (rec : RotRec) (d : Display) : (applyRecord co rec d).options = d.options := rfl
@[simp] theorem apply_record_bounding (co : Byte) (rec : RotRec) (d : Display) : (applyRecord co rec d).bounding = d.bounding := rfl
@[simp] theorem apply_record_min_x (co : Byte) (rec : RotRec) (d : Display) : (applyRecord co rec d).minX = d.minX := rfl
@[simp] theorem apply_record_min_y (co : Byte) (rec : RotRec) (d : Display) : (applyRecord co rec d).minY = d.minY := rfl
@[simp] theorem apply_record_max_x (co : Byte) (rec : RotRec) (d : Display) : (applyRecord co rec d).maxX = d.maxX := rfl
@[simp] theorem apply_record_max_y (co : Byte) (rec : RotRec) (d : Display) : (applyRecord co rec d).maxY = d.maxY := rfl
@[simp] theorem apply_record_cs_present (co : Byte) (rec : RotRec) (d : Display) : (applyRecord co rec d).csPresent = d.csPresent := rfl
@[simp] theorem apply_record_rst_present (co : Byte) (rec : RotRec) (d : Display) : (applyRecord co rec d).rstPresent = d.rstPresent := rfl
@[simp] theorem apply_record_bl_present (co : Byte) (rec : RotRec) (d : Display) : (applyRecord co rec d).blPresent = d.blPresent := rfl
@[simp] theorem apply_record_rot (co : Byte) (rec : RotRec) (d : Display) : (applyRecord co rec d).rot = d.rot := rfl
@[simp] theorem apply_record_cinit (co : Byte) (rec : RotRec) (d : Display) : (applyRecord co rec d).cinit = d.cinit := rfl

/-! ## A rotation record applied and the box reset -/

@[simp] theorem rotated_display_width (co : Byte) (rec : RotRec) (d : Display) : (rotated d co rec).displayWidth = d.displayWidth := rfl
@[simp] theorem rotated_display_height (co : Byte) (rec : RotRec) (d : Display) : (rotated d co rec).displayHeight = d.displayHeight := rfl
@[simp] theorem rotated_width (co : Byte) (rec : RotRec) (d : Display) : (rotated d co rec).width = some rec.width := rfl
@[simp] theorem rotated_height (co : Byte) (rec : RotRec) (d : Display) : (rotated d co rec).height = some rec.height := rfl
@[simp] theorem rotated_colstart (co : Byte) (rec : RotRec) (d : Display) : (rotated d co rec).colstart = some rec.colstart := rfl
@[simp] theorem rotated_rowstart (co : Byte) (rec : RotRec) (d : Display) : (rotated d co rec).rowstart = some rec.rowstart := rfl
@[simp] theorem rotated_rotation (co : Byte) (rec : RotRec) (d : Display) : (rotated d co rec).rotation = d.rotation := rfl
@[simp] theorem rotated_rotations_len (co : Byte) (rec : RotRec) (d : Display) : (rotated d co rec).rotationsLen = d.rotationsLen := rfl
@[simp] theorem rotated_color_order (co : Byte) (rec : RotRec) (d : Display) : (rotated d co rec).colorOrder = d.colorOrder := rfl
@[simp] theorem rotated_madctl (co : Byte) (rec : RotRec) (d : Display) : (rotated d co rec).madctl = some (co.setWidth 16 ||| rec.madctl) := rfl
@[simp] theorem rotated_inversion (co : Byte) (rec : RotRec) (d : Display) : (rotated d co rec).inversion = d.inversion := rfl
@[simp] theorem rotated_options (co : Byte) (rec : RotRec) (d : Display) : (rotated d co rec).options = d.options := rfl
@[simp] theorem rotated_bounding (co : Byte) (rec : RotRec) (d : Display) : (rotated d co rec).bounding = d.bounding := rfl
@[simp] theorem rotated_min_x (co : Byte) (rec : RotRec) (d : Display) : (rotated d co rec).minX = some rec.width := rfl
@[simp] theorem rotated_min_y (co : Byte) (rec : RotRec) (d : Display) : (rotated d co rec).minY = some rec.height := rfl
@[simp] theorem rotated_max_x (co : Byte) (rec : RotRec) (d : Display) : (rotated d co rec).maxX = some 0 := rfl
@[simp] theorem rotated_max_y (co : Byte) (rec : RotRec) (d : Display) : (rotated d co rec).maxY = some 0 := rfl
@[simp] theorem rotated_cs_present (co : Byte) (rec : RotRec) (d : Display) : (rotated d co rec).csPresent = d.csPresent := rfl
@[simp] theorem rotated_rst_present (co : Byte) (rec : RotRec) (d : Display) : (rotated d co rec).rstPresent = d.rstPresent := rfl
@[simp] theorem rotated_bl_present (co : Byte) (rec : RotRec) (d : Display) : (rotated d co rec).blPresent = d.blPresent := rfl
@[simp] theorem rotated_rot (co : Byte) (rec : RotRec) (d : Display) : (rotated d co rec).rot = d.rot := rfl
@[simp] theorem rotated_cinit (co : Byte) (rec : RotRec) (d : Display) : (rotated d co rec).cinit = d.cinit := rfl

/-! ## The Display of CONFIG -/

@[simp] theorem configured_display_display_width (f : ConfigFlags) (dw dh r o : Word) (t : List RotRec) (c : CustomInit) (d : Display) : (configuredDisplay f dw dh r o t c d).displayWidth = some dw := rfl
@[simp] theorem configured_display_display_height (f : ConfigFlags) (dw dh r o : Word) (t : List RotRec) (c : CustomInit) (d : Display) : (configuredDisplay f dw dh r o t c d).displayHeight = some dh := rfl
@[simp] theorem configured_display_width (f : ConfigFlags) (dw dh r o : Word) (t : List RotRec) (c : CustomInit) (d : Display) : (configuredDisplay f dw dh r o t c d).width = d.width := rfl
@[simp] theorem configured_display_height (f : ConfigFlags) (dw dh r o : Word) (t : List RotRec) (c : CustomInit) (d : Display) : (configuredDisplay f dw dh r o t c d).height = d.height := rfl
@[simp] theorem configured_display_colstart (f : ConfigFlags) (dw dh r o : Word) (t : List RotRec) (c : CustomInit) (d : Display) : (configuredDisplay f dw dh r o t c d).colstart = d.colstart := rfl
@[simp] theorem configured_display_rowstart (f : ConfigFlags) (dw dh r o : Word) (t : List RotRec) (c : CustomInit) (d : Display) : (configuredDisplay f dw dh r o t c d).rowstart = d.rowstart := rfl
@[simp] theorem configured_display_rotation (f : ConfigFlags) (dw dh r o : Word) (t : List RotRec) (c : CustomInit) (d : Display) : (configuredDisplay f dw dh r o t c d).rotation = some (BitVec.ofNat 8 (r.toNat % t.length)) := rfl
@[simp] theorem configured_display_rotations_len (f : ConfigFlags) (dw dh r o : Word) (t : List RotRec) (c : CustomInit) (d : Display) : (configuredDisplay f dw dh r o t c d).rotationsLen = some (BitVec.ofNat 8 t.length) := rfl
@[simp] theorem configured_display_color_order (f : ConfigFlags) (dw dh r o : Word) (t : List RotRec) (c : CustomInit) (d : Display) : (configuredDisplay f dw dh r o t c d).colorOrder = some (if f.bgr then orderBGR else orderRGB) := rfl
@[simp] theorem configured_display_madctl (f : ConfigFlags) (dw dh r o : Word) (t : List RotRec) (c : CustomInit) (d : Display) : (configuredDisplay f dw dh r o t c d).madctl = d.madctl := rfl
@[simp] theorem configured_display_inversion (f : ConfigFlags) (dw dh r o : Word) (t : List RotRec) (c : CustomInit) (d : Display) : (configuredDisplay f dw dh r o t c d).inversion = some f.inv := rfl
@[simp] theorem configured_display_options (f : ConfigFlags) (dw dh r o : Word) (t : List RotRec) (c : CustomInit) (d : Display) : (configuredDisplay f dw dh r o t c d).options = some (lowByte o) := rfl
@[simp] theorem configured_display_bounding (f : ConfigFlags) (dw dh r o : Word) (t : List RotRec) (c : CustomInit) (d : Display) : (configuredDisplay f dw dh r o t c d).bounding = some false := rfl
@[simp] theorem configured_display_min_x (f : ConfigFlags) (dw dh r o : Word) (t : List RotRec) (c : CustomInit) (d : Display) : (configuredDisplay f dw dh r o t c d).minX = d.minX := rfl
@[simp] theorem configured_display_min_y (f : ConfigFlags) (dw dh r o : Word) (t : List RotRec) (c : CustomInit) (d : Display) : (configuredDisplay f dw dh r o t c d).minY = d.minY := rfl
@[simp] theorem configured_display_max_x (f : ConfigFlags) (dw dh r o : Word) (t : List RotRec) (c : CustomInit) (d : Display) : (configuredDisplay f dw dh r o t c d).maxX = d.maxX := rfl
@[simp] theorem configured_display_max_y (f : ConfigFlags) (dw dh r o : Word) (t : List RotRec) (c : CustomInit) (d : Display) : (configuredDisplay f dw dh r o t c d).maxY = d.maxY := rfl
@[simp] theorem configured_display_cs_present (f : ConfigFlags) (dw dh r o : Word) (t : List RotRec) (c : CustomInit) (d : Display) : (configuredDisplay f dw dh r o t c d).csPresent = some f.cs := rfl
@[simp] theorem configured_display_rst_present (f : ConfigFlags) (dw dh r o : Word) (t : List RotRec) (c : CustomInit) (d : Display) : (configuredDisplay f dw dh r o t c d).rstPresent = some f.rst := rfl
@[simp] theorem configured_display_bl_present (f : ConfigFlags) (dw dh r o : Word) (t : List RotRec) (c : CustomInit) (d : Display) : (configuredDisplay f dw dh r o t c d).blPresent = some f.bl := rfl
@[simp] theorem configured_display_rot (f : ConfigFlags) (dw dh r o : Word) (t : List RotRec) (c : CustomInit) (d : Display) : (configuredDisplay f dw dh r o t c d).rot = some t := rfl
@[simp] theorem configured_display_cinit (f : ConfigFlags) (dw dh r o : Word) (t : List RotRec) (c : CustomInit) (d : Display) : (configuredDisplay f dw dh r o t c d).cinit = some c := rfl

/-! ## The box of a window: the fields it leaves -/

@[simp] theorem box_with_display_width (d : Display) (x0 y0 x1 y1 : Nat) : (boxWith d x0 y0 x1 y1).displayWidth = d.displayWidth := by
  unfold boxWith; split <;> rfl
@[simp] theorem box_with_display_height (d : Display) (x0 y0 x1 y1 : Nat) : (boxWith d x0 y0 x1 y1).displayHeight = d.displayHeight := by
  unfold boxWith; split <;> rfl
@[simp] theorem box_with_width (d : Display) (x0 y0 x1 y1 : Nat) : (boxWith d x0 y0 x1 y1).width = d.width := by
  unfold boxWith; split <;> rfl
@[simp] theorem box_with_height (d : Display) (x0 y0 x1 y1 : Nat) : (boxWith d x0 y0 x1 y1).height = d.height := by
  unfold boxWith; split <;> rfl
@[simp] theorem box_with_colstart (d : Display) (x0 y0 x1 y1 : Nat) : (boxWith d x0 y0 x1 y1).colstart = d.colstart := by
  unfold boxWith; split <;> rfl
@[simp] theorem box_with_rowstart (d : Display) (x0 y0 x1 y1 : Nat) : (boxWith d x0 y0 x1 y1).rowstart = d.rowstart := by
  unfold boxWith; split <;> rfl
@[simp] theorem box_with_rotation (d : Display) (x0 y0 x1 y1 : Nat) : (boxWith d x0 y0 x1 y1).rotation = d.rotation := by
  unfold boxWith; split <;> rfl
@[simp] theorem box_with_rotations_len (d : Display) (x0 y0 x1 y1 : Nat) : (boxWith d x0 y0 x1 y1).rotationsLen = d.rotationsLen := by
  unfold boxWith; split <;> rfl
@[simp] theorem box_with_color_order (d : Display) (x0 y0 x1 y1 : Nat) : (boxWith d x0 y0 x1 y1).colorOrder = d.colorOrder := by
  unfold boxWith; split <;> rfl
@[simp] theorem box_with_madctl (d : Display) (x0 y0 x1 y1 : Nat) : (boxWith d x0 y0 x1 y1).madctl = d.madctl := by
  unfold boxWith; split <;> rfl
@[simp] theorem box_with_inversion (d : Display) (x0 y0 x1 y1 : Nat) : (boxWith d x0 y0 x1 y1).inversion = d.inversion := by
  unfold boxWith; split <;> rfl
@[simp] theorem box_with_options (d : Display) (x0 y0 x1 y1 : Nat) : (boxWith d x0 y0 x1 y1).options = d.options := by
  unfold boxWith; split <;> rfl
@[simp] theorem box_with_bounding (d : Display) (x0 y0 x1 y1 : Nat) : (boxWith d x0 y0 x1 y1).bounding = d.bounding := by
  unfold boxWith; split <;> rfl
@[simp] theorem box_with_cs_present (d : Display) (x0 y0 x1 y1 : Nat) : (boxWith d x0 y0 x1 y1).csPresent = d.csPresent := by
  unfold boxWith; split <;> rfl
@[simp] theorem box_with_rst_present (d : Display) (x0 y0 x1 y1 : Nat) : (boxWith d x0 y0 x1 y1).rstPresent = d.rstPresent := by
  unfold boxWith; split <;> rfl
@[simp] theorem box_with_bl_present (d : Display) (x0 y0 x1 y1 : Nat) : (boxWith d x0 y0 x1 y1).blPresent = d.blPresent := by
  unfold boxWith; split <;> rfl
@[simp] theorem box_with_rot (d : Display) (x0 y0 x1 y1 : Nat) : (boxWith d x0 y0 x1 y1).rot = d.rot := by
  unfold boxWith; split <;> rfl
@[simp] theorem box_with_cinit (d : Display) (x0 y0 x1 y1 : Nat) : (boxWith d x0 y0 x1 y1).cinit = d.cinit := by
  unfold boxWith; split <;> rfl

/-! ## Pins: an update that leaves the pin flags leaves the pin events -/

theorem pin_events_congr {d e : Display} (hc : e.csPresent = d.csPresent) (hr : e.rstPresent = d.rstPresent)
    (hb : e.blPresent = d.blPresent) (p : Pin) (l : Bool) : pinEvents e p l = pinEvents d p l := by
  cases p <;> simp [pinEvents, Display.hasPin, hc, hr, hb]

theorem command_events_congr {d e : Display} (hc : e.csPresent = d.csPresent) (hr : e.rstPresent = d.rstPresent)
    (hb : e.blPresent = d.blPresent) (c : Byte) (data : List Byte) : commandEvents e c data = commandEvents d c data := by
  simp only [commandEvents, pin_events_congr hc hr hb]

theorem pixel_events_congr {d e : Display} (hc : e.csPresent = d.csPresent) (hr : e.rstPresent = d.rstPresent)
    (hb : e.blPresent = d.blPresent) (chunks : List (List Byte)) : pixelEvents e chunks = pixelEvents d chunks := by
  simp only [pixelEvents, pin_events_congr hc hr hb]

@[simp] theorem pin_events_box_with (d : Display) (x0 y0 x1 y1 : Nat) (p : Pin) (l : Bool) :
    pinEvents (boxWith d x0 y0 x1 y1) p l = pinEvents d p l := pin_events_congr (by simp) (by simp) (by simp) p l

@[simp] theorem command_events_box_with (d : Display) (x0 y0 x1 y1 : Nat) (c : Byte) (data : List Byte) :
    commandEvents (boxWith d x0 y0 x1 y1) c data = commandEvents d c data :=
  command_events_congr (by simp) (by simp) (by simp) c data

@[simp] theorem pixel_events_box_with (d : Display) (x0 y0 x1 y1 : Nat) (chunks : List (List Byte)) :
    pixelEvents (boxWith d x0 y0 x1 y1) chunks = pixelEvents d chunks :=
  pixel_events_congr (by simp) (by simp) (by simp) chunks

@[simp] theorem window_events_box_with (d : Display) (a b c e x0 y0 x1 y1 : Nat) :
    windowEvents (boxWith d a b c e) x0 y0 x1 y1 = windowEvents d x0 y0 x1 y1 := by
  simp [windowEvents]

end Sys2Proof.Laws
end

