-- ==== Sys2Proof/Laws/Ops.lean ====
section
/-! SUPPORT. What each shared operation can do, said once. An operation that only emits is equal, whatever the HAL answers,
to playing a fixed list of events (`Plays`), and playing a list has two outcomes (`play_cases`). -/

namespace Sys2Proof.Laws

open Sys2Proof.Machine Sys2Proof.Safety

/-! ## Sequencing -/

theorem bind_apply {α β : Type} (x : Op α) (f : α → Op β) (s : State) :
    (x >>= f) s = match x s with
      | .ok a t => f a t
      | .error e t => .error e t := by
  change EStateM.bind x f s = _
  unfold EStateM.bind
  rcases x s with ⟨_, _⟩ | ⟨_, _⟩ <;> rfl

theorem bind_ok {α β : Type} {x : Op α} {s t : State} {a : α} (h : x s = .ok a t) (f : α → Op β) :
    (x >>= f) s = f a t := by
  rw [bind_apply, h]

theorem bind_error {α β : Type} {x : Op α} {s t : State} {e : Raised} (h : x s = .error e t) (f : α → Op β) :
    (x >>= f) s = .error e t := by
  rw [bind_apply, h]

@[simp] theorem pure_apply {α : Type} (a : α) (s : State) : (pure a : Op α) s = .ok a s := rfl

@[simp] theorem raise_apply {α : Type} (c : Cause) (n : Nat) (s : State) : (raise c n : Op α) s = .error ⟨c, n⟩ s := rfl

theorem only_if_pos {c : Prop} [Decidable c] (h : c) (op : Op Unit) : onlyIf c op = op := if_pos h

theorem only_if_neg {c : Prop} [Decidable c] (h : ¬ c) (op : Op Unit) : onlyIf c op = pure () := if_neg h

theorem for_each_append {α : Type} (l m : List α) (f : α → Op Unit) (s : State) :
    forEach (l ++ m) f s = (forEach l f >>= fun _ => forEach m f) s := by
  induction l generalizing s with
  | nil => rfl
  | cons a l ih =>
    rw [List.cons_append, forEach, forEach, bind_apply, bind_apply, bind_apply]
    rcases f a s with ⟨_, t⟩ | ⟨e, t⟩
    · simpa [bind_apply] using ih t
    · rfl

theorem for_each_map {α β : Type} (g : α → β) (l : List α) (f : β → Op Unit) :
    forEach (l.map g) f = forEach l fun a => f (g a) := by
  induction l with
  | nil => rfl
  | cons a l ih => simp only [List.map_cons, forEach, ih]

/-! ## Field reads and writes -/

theorem need_some {α : Type} {f : Display → Option α} {s : State} {v : α} (sr : Nat) (h : f s.display = some v) :
    need sr f s = .ok v s := by
  simp only [need, h]

theorem need_none {α : Type} {f : Display → Option α} {s : State} (sr : Nat) (h : f s.display = none) :
    need sr f s = .error ⟨.unsetState, sr⟩ s := by
  simp only [need, h]

/-- A field read never changes the state. -/
theorem need_cases {α : Type} (sr : Nat) (f : Display → Option α) (s : State) :
    (∃ v, f s.display = some v ∧ need sr f s = .ok v s) ∨
    (f s.display = none ∧ need sr f s = .error ⟨.unsetState, sr⟩ s) := by
  cases h : f s.display with
  | some v => exact .inl ⟨v, rfl, need_some sr h⟩
  | none => exact .inr ⟨rfl, need_none sr h⟩

@[simp] theorem update_display_apply (f : Display → Display) (s : State) :
    updateDisplay f s = .ok () { s with display := f s.display } := rfl

@[simp] theorem update_results_apply (f : Results → Results) (s : State) :
    updateResults f s = .ok () { s with results := f s.results } := rfl

@[simp] theorem set_geom_valid_apply (s : State) : setGeomValid s = .ok () { s with geomValid := true } := rfl

@[simp] theorem set_configured_apply (s : State) : setConfigured s = .ok () { s with configured := true } := rfl

/-- The guard of a configured sequencer. -/
theorem guard_configured_apply (s : State) :
    guardConfigured s = if s.configured = true then .ok () s else .error ⟨.notConfigured, 0⟩ s := rfl

/-- The geometry guard. -/
theorem need_geom_apply (s : State) :
    needGeom s = if s.geomValid = true then .ok () s else .error ⟨.unsetState, 2⟩ s := rfl

/-! ## Whole operations -/

theorem perform_ok {len : Nat} {op : Op Unit} {s t : State} (h : op s = .ok () t) :
    perform len op s = .next (completed t len) := by
  simp only [perform, h, completed]

theorem perform_error {len : Nat} {op : Op Unit} {s t : State} {e : Raised} (h : op s = .error e t) :
    perform len op s = .next (enterFault e.cause e.info t) := by
  simp only [perform, h]

/-- Every operation answers a next state: completed, or faulted. -/
theorem perform_cases (len : Nat) (op : Op Unit) (s : State) :
    (∃ t, op s = .ok () t ∧ perform len op s = .next (completed t len)) ∨
    (∃ e t, op s = .error e t ∧ perform len op s = .next (enterFault e.cause e.info t)) := by
  rcases h : op s with ⟨_, t⟩ | ⟨e, t⟩
  · exact .inl ⟨t, rfl, perform_ok h⟩
  · exact .inr ⟨e, t, rfl, perform_error h⟩

/-! ## Relations that a transition keeps -/

/-- The state a transition leaves, whether it completed or raised. -/
def after {α : Type} (op : Op α) (s : State) : State :=
  match op s with
  | .ok _ t => t
  | .error _ t => t

/-- The transition relates every state to the state it leaves. -/
def Keeps {α : Type} (R : State → State → Prop) (op : Op α) : Prop := ∀ s, R s (after op s)

theorem after_ok {α : Type} {op : Op α} {s t : State} {a : α} (h : op s = .ok a t) : after op s = t := by
  simp only [after, h]

theorem after_error {α : Type} {op : Op α} {s t : State} {e : Raised} (h : op s = .error e t) : after op s = t := by
  simp only [after, h]

theorem keeps_pure {α : Type} {R : State → State → Prop} (hr : ∀ s, R s s) (a : α) : Keeps R (pure a : Op α) := hr

theorem keeps_raise {α : Type} {R : State → State → Prop} (hr : ∀ s, R s s) (c : Cause) (n : Nat) :
    Keeps R (raise c n : Op α) := hr

theorem keeps_bind {α β : Type} {R : State → State → Prop} (ht : ∀ s t u, R s t → R t u → R s u) {x : Op α}
    {f : α → Op β} (hx : Keeps R x) (hf : ∀ a, Keeps R (f a)) : Keeps R (x >>= f) := by
  intro s
  have h1 := hx s
  rcases h : x s with ⟨a, t⟩ | ⟨e, t⟩
  · rw [after_ok h] at h1
    have h2 := hf a t
    have e : after (x >>= f) s = after (f a) t := by simp only [after, bind_ok h]
    rw [e]
    exact ht s t _ h1 h2
  · rw [after_error h] at h1
    rw [after_error (bind_error h f)]
    exact h1

theorem keeps_only_if {R : State → State → Prop} (hr : ∀ s, R s s) {c : Prop} [Decidable c] {op : Op Unit}
    (h : Keeps R op) : Keeps R (onlyIf c op) := by
  unfold onlyIf
  split
  · exact h
  · exact hr

theorem keeps_for_each {α : Type} {R : State → State → Prop} (hr : ∀ s, R s s) (ht : ∀ s t u, R s t → R t u → R s u)
    {f : α → Op Unit} (l : List α) (h : ∀ a ∈ l, Keeps R (f a)) : Keeps R (forEach l f) := by
  induction l with
  | nil => exact hr
  | cons a l ih =>
    exact keeps_bind ht (h a (by simp)) fun _ => ih fun b hb => h b (by simp [hb])

theorem keeps_need {α : Type} {R : State → State → Prop} (hr : ∀ s, R s s) (sr : Nat) (f : Display → Option α) :
    Keeps R (need sr f) := by
  intro s
  rcases need_cases sr f s with ⟨v, -, h⟩ | ⟨-, h⟩
  · rw [after_ok h]; exact hr s
  · rw [after_error h]; exact hr s

theorem keeps_guard_configured {R : State → State → Prop} (hr : ∀ s, R s s) : Keeps R guardConfigured := by
  intro s
  simp only [after, guard_configured_apply]
  split <;> rename_i h <;> split at h <;> cases h <;> exact hr s

theorem keeps_need_geom {R : State → State → Prop} (hr : ∀ s, R s s) : Keeps R needGeom := by
  intro s
  simp only [after, need_geom_apply]
  split <;> rename_i h <;> split at h <;> cases h <;> exact hr s

/-! ## Events -/

@[simp] theorem emitted_nil (s : State) : s.emitted [] = s := by simp [State.emitted]

@[simp] theorem emitted_emitted (s : State) (es fs : List Event) : (s.emitted es).emitted fs = s.emitted (es ++ fs) := by
  simp [State.emitted]

@[simp] theorem emit_apply (e : Event) (s : State) : emit e s = .ok () (s.emitted [e]) := rfl

@[simp] theorem delay_apply (n : Nat) (s : State) : delay n s = .ok () (s.emitted [.delay n]) := rfl

@[simp] theorem pin_apply (p : Pin) (l : Bool) (s : State) :
    pin p l s = .ok () (s.emitted (pinEvents s.display p l)) := rfl

@[simp] theorem pin_events_dc (d : Display) (l : Bool) : pinEvents d .dc l = [.pin .dc l] := rfl

theorem spi_ok {s : State} (h : transferCount s.trace ∉ s.params.halFail) (b : List Byte) :
    spi b s = .ok () (s.emitted [.spi b]) := if_neg h

theorem spi_error {s : State} (h : transferCount s.trace ∈ s.params.halFail) (b : List Byte) :
    spi b s = .error ⟨.halError, transferCount s.trace⟩ (s.emitted (.spiFail b :: pinEvents s.display .cs true)) :=
  if_pos h

@[simp] theorem transfer_count_append (t u : List Event) :
    transferCount (t ++ u) = transferCount t + transferCount u := by simp [transferCount]

/-- A HAL with no failing transfer ahead stays so. -/
theorem hal_quiet_emitted {s : State} (h : HalQuiet s) (es : List Event) : HalQuiet (s.emitted es) := by
  intro k hk
  have := h k hk
  simp only [emitted_trace, transfer_count_append]
  omega

theorem hal_quiet_spi {s : State} (h : HalQuiet s) : transferCount s.trace ∉ s.params.halFail :=
  fun hk => Nat.lt_irrefl _ (h _ hk)

/-! ## Playing a list of events -/

/-- One event handed to the HAL. -/
def playOne : Event → Op Unit
  | .spi b => spi b
  | .pin p l => emit (.pin p l)
  | .delay n => emit (.delay n)
  | .spiFail b => emit (.spiFail b)

/-- A list of events handed to the HAL, up to the first failing transfer. -/
def play (es : List Event) : Op Unit := forEach es playOne

@[simp] theorem play_nil (s : State) : play [] s = .ok () s := rfl

theorem play_append (es fs : List Event) (s : State) : play (es ++ fs) s = (play es >>= fun _ => play fs) s :=
  for_each_append es fs playOne s

/-- EVERYTHING a list of events can do: all of it is emitted, or a transfer fails, the events before it stand, and CS is
released. -/
theorem play_cases (es : List Event) (s : State) :
    play es s = .ok () (s.emitted es) ∨
    ∃ pre b post, es = pre ++ .spi b :: post ∧ transferCount (s.trace ++ pre) ∈ s.params.halFail ∧
      play es s = .error ⟨.halError, transferCount (s.trace ++ pre)⟩
        (s.emitted (pre ++ .spiFail b :: pinEvents s.display .cs true)) := by
  induction es generalizing s with
  | nil => left; simp
  | cons e es ih =>
    have one : playOne e s = .ok () (s.emitted [e]) ∨
        ∃ b, e = .spi b ∧ transferCount s.trace ∈ s.params.halFail ∧
          playOne e s = .error ⟨.halError, transferCount s.trace⟩
            (s.emitted (.spiFail b :: pinEvents s.display .cs true)) := by
      cases e with
      | spi b =>
        by_cases h : transferCount s.trace ∈ s.params.halFail
        · exact .inr ⟨b, rfl, h, spi_error h b⟩
        · exact .inl (spi_ok h b)
      | pin p l => exact .inl rfl
      | delay n => exact .inl rfl
      | spiFail b => exact .inl rfl
    rcases one with h | ⟨b, rfl, hk, h⟩
    · have step : play (e :: es) s = play es (s.emitted [e]) := bind_ok h fun _ => play es
      rw [step]
      rcases ih (s.emitted [e]) with h2 | ⟨pre, b, post, rfl, hk, h2⟩
      · left; rw [h2]; simp
      · right
        refine ⟨e :: pre, b, post, rfl, ?_, ?_⟩
        · simpa [List.append_assoc] using hk
        · rw [h2]; simp [List.append_assoc, emitted_emitted]
    · right
      refine ⟨[], b, es, rfl, by simpa using hk, ?_⟩
      rw [List.append_nil]
      exact bind_error h fun _ => play es

/-- With a quiet HAL every event is emitted. -/
theorem play_quiet {s : State} (h : HalQuiet s) (es : List Event) : play es s = .ok () (s.emitted es) := by
  rcases play_cases es s with h2 | ⟨pre, b, post, -, hk, -⟩
  · exact h2
  · have := h _ hk
    simp only [transfer_count_append] at this
    omega

/-! ## Operations that only emit -/

/-- On every state with this display, the operation is the playing of `es`. -/
def Plays (op : Op Unit) (d : Display) (es : List Event) : Prop := ∀ s : State, s.display = d → op s = play es s

theorem plays_bind {a b : Op Unit} {d : Display} {es fs : List Event} (ha : Plays a d es) (hb : Plays b d fs) :
    Plays (a >>= fun _ => b) d (es ++ fs) := by
  intro s hs
  rw [play_append, bind_apply, bind_apply, ha s hs]
  rcases play_cases es s with h | ⟨pre, x, post, -, -, h⟩
  · rw [h]; exact hb _ hs
  · rw [h]

theorem plays_pure (d : Display) : Plays (pure ()) d [] := fun _ _ => rfl

theorem plays_emit_nonspi (d : Display) (e : Event) (h : ∀ b, e ≠ .spi b) : Plays (emit e) d [e] := by
  intro s _
  cases e with
  | spi b => exact absurd rfl (h b)
  | pin p l => rfl
  | delay n => rfl
  | spiFail b => rfl

theorem plays_delay (d : Display) (n : Nat) : Plays (delay n) d [.delay n] :=
  plays_emit_nonspi d (.delay n) (by simp)

theorem plays_spi (d : Display) (b : List Byte) : Plays (spi b) d [.spi b] := by
  intro s _
  change spi b s = (playOne (.spi b) >>= fun _ => play []) s
  rcases h : spi b s with ⟨_, t⟩ | ⟨e, t⟩
  · exact (bind_ok (show playOne (.spi b) s = _ from h) fun _ => play []).symm
  · exact (bind_error (show playOne (.spi b) s = _ from h) fun _ => play []).symm

theorem plays_pin (d : Display) (p : Pin) (l : Bool) : Plays (pin p l) d (pinEvents d p l) := by
  intro s hs
  rw [pin_apply, hs]
  unfold pinEvents
  split
  · rfl
  · simp

theorem plays_only_if {c : Prop} [Decidable c] {op : Op Unit} {d : Display} {es : List Event} (h : Plays op d es) :
    Plays (onlyIf c op) d (if c then es else []) := by
  unfold onlyIf
  split
  · exact h
  · exact plays_pure d

theorem plays_for_each {α : Type} {f : α → Op Unit} {d : Display} (g : α → List Event) (l : List α)
    (h : ∀ a ∈ l, Plays (f a) d (g a)) : Plays (forEach l f) d (l.flatMap g) := by
  induction l with
  | nil => exact plays_pure d
  | cons a l ih =>
    rw [List.flatMap_cons]
    exact plays_bind (h a (by simp)) (ih fun b hb => h b (by simp [hb]))

/-- The command writer. -/
theorem plays_write_cmd (d : Display) (cmd : Byte) (data : List Byte) :
    Plays (writeCmd cmd data) d (commandEvents d cmd data) := by
  have h := plays_bind (plays_pin d .cs false) (plays_bind
    (plays_only_if (c := cmd ≠ 0) (plays_bind (plays_pin d .dc false) (plays_spi d [cmd]))) (plays_bind
    (plays_only_if (c := data ≠ []) (plays_bind (plays_pin d .dc true) (plays_spi d data)))
    (plays_pin d .cs true)))
  have e : commandEvents d cmd data = _ := (by
    by_cases h1 : cmd = 0 <;> by_cases h2 : data = [] <;>
      simp [commandEvents, h1, h2, List.append_assoc] :
    commandEvents d cmd data = pinEvents d .cs false ++
      ((if cmd ≠ 0 then pinEvents d .dc false ++ [.spi [cmd]] else []) ++
      ((if data ≠ [] then pinEvents d .dc true ++ [.spi data] else []) ++ pinEvents d .cs true)))
  rw [e]
  exact h

/-- The pixel-data phase. -/
theorem plays_pixel_phase (d : Display) (chunks : List (List Byte)) :
    Plays (pixelPhase chunks) d (pixelEvents d chunks) := by
  have h := plays_bind (plays_pin d .cs false) (plays_bind (plays_pin d .dc true) (plays_bind
    (plays_for_each (fun c : List Byte => if c ≠ [] then [Event.spi c] else []) chunks fun c _ =>
      plays_only_if (c := c ≠ []) (plays_spi d c))
    (plays_pin d .cs true)))
  have e : (chunks.filter (· ≠ [])).map Event.spi =
      chunks.flatMap fun c : List Byte => if c ≠ [] then [Event.spi c] else [] := by
    clear h
    induction chunks with
    | nil => rfl
    | cons c l ih => by_cases hc : c = [] <;> simp_all
  simp only [pixelEvents, e, List.append_assoc]
  exact h

theorem plays_stream (d : Display) (color : Word) (n : Nat) :
    Plays (stream color n) d (pixelEvents d (fillChunks color n)) := plays_pixel_phase d _

/-- Programming a window whose offsets hold values. -/
theorem plays_program_window (d : Display) (x0 y0 x1 y1 : Int) {c r : Word} (hc : d.colstart = some c)
    (hr : d.rowstart = some r) :
    Plays (programWindow x0 y0 x1 y1) d (windowEvents d x0.toNat y0.toNat x1.toNat y1.toNat) := by
  intro s hs
  rw [programWindow, bind_ok (need_some 4 (by rw [hs]; exact hc)), bind_ok (need_some 5 (by rw [hs]; exact hr))]
  simp only [windowEvents, hc, hr, List.append_assoc]
  exact plays_bind (plays_write_cmd d _ _) (plays_bind (plays_write_cmd d _ _) (plays_write_cmd d _ _)) s hs

/-! ## Lifecycle procedures -/

theorem plays_hard_reset (d : Display) : Plays hardReset d (hardResetEvents d) := by
  have h := plays_bind (plays_pin d .cs false) (plays_bind (plays_pin d .rst true) (plays_bind (plays_delay d 50)
    (plays_bind (plays_pin d .rst false) (plays_bind (plays_delay d 50) (plays_bind (plays_pin d .rst true)
    (plays_bind (plays_delay d 150) (plays_pin d .cs true)))))))
  simp only [hardResetEvents, List.append_assoc]
  exact h

theorem plays_soft_reset (d : Display) : Plays softReset d (commandEvents d 0x01 [] ++ [.delay 150]) :=
  plays_bind (plays_write_cmd d _ _) (plays_delay d 150)

theorem plays_default_init (d : Display) {inversion : Bool} (hi : d.inversion = some inversion) :
    Plays defaultInit d (defaultInitEvents d inversion) := by
  have tail : Plays (do
      let inversion ← need 10 Display.inversion
      writeCmd (inversionCmd inversion) []
      writeCmd cmdNORON []
      delay delaySettle
      writeCmd cmdDISPON []
      delay delayDisplayOn) d (commandEvents d (if inversion then 0x21 else 0x20) [] ++ (commandEvents d 0x13 [] ++
        ([.delay 10] ++ (commandEvents d 0x29 [] ++ [.delay 150])))) := by
    intro s hs
    rw [bind_ok (need_some 10 (by rw [hs]; exact hi))]
    exact plays_bind (plays_write_cmd d _ _) (plays_bind (plays_write_cmd d _ _) (plays_bind (plays_delay d 10)
      (plays_bind (plays_write_cmd d _ _) (plays_delay d 150)))) s hs
  have h := plays_bind (plays_soft_reset d) (plays_bind (plays_write_cmd d cmdSLPOUT []) (plays_bind
    (plays_write_cmd d cmdCOLMOD [colmodValue]) (plays_bind (plays_delay d 10) tail)))
  simp only [defaultInitEvents, List.append_assoc] at h ⊢
  exact h

theorem plays_run_entry (d : Display) (e : ScriptEntry) : Plays (runEntry e) d (entryEvents d e) := by
  obtain ⟨cmd, data, delayed⟩ := e
  have h := plays_bind (plays_write_cmd d cmd data) (plays_bind (plays_delay d 10)
    (b := match delayed with | none => pure () | some n => delay n.toNat)
    (fs := delayed.toList.map fun n => Event.delay n.toNat) (by
      cases delayed with
      | none => exact plays_pure d
      | some n => exact plays_delay d n.toNat))
  simp only [entryEvents, List.append_assoc]
  exact h

theorem plays_panel_init_default (d : Display) {inversion : Bool} (hi : d.inversion = some inversion) :
    Plays (panelInit .absent) d (defaultInitEvents d inversion) := plays_default_init d hi

theorem plays_panel_init_script (d : Display) (entries : List ScriptEntry) :
    Plays (panelInit (.script entries)) d (entries.flatMap (entryEvents d)) :=
  plays_for_each _ entries fun e _ => plays_run_entry d e

/-! ## Buffer memory -/

/-- A buffer read faults before anything else, or answers exactly the bytes of the range. -/
theorem mem_read_apply (addr n : Nat) (s : State) :
    memRead addr n s = if addr + n > s.params.bmemSize then .error ⟨.bufRange, addr⟩ s
      else .ok (readBytes s.bmem addr n) s := rfl

theorem check_range_apply (addr n : Nat) (s : State) :
    checkRange addr n s = if addr + n > s.params.bmemSize then .error ⟨.bufRange, addr⟩ s else .ok () s := rfl

/-- A buffer write faults before anything else, or writes exactly the range. -/
theorem mem_write_apply (addr : Nat) (v : List Byte) (s : State) :
    memWrite addr v s = if addr + v.length > s.params.bmemSize then .error ⟨.bufRange, addr⟩ s
      else .ok () { s with bmem := writeBytes s.bmem addr v } := rfl

/-! ## The dirty box -/

/-- `box_reset()` in a state with a geometry. -/
theorem box_reset_apply {s : State} {w h : Word} (hw : s.display.width = some w) (hh : s.display.height = some h) :
    boxReset s = .ok () { s with display :=
      { s.display with minX := some w, minY := some h, maxX := some 0, maxY := some 0 } } := by
  rw [boxReset, bind_ok (need_some 2 hw), bind_ok (need_some 3 hh)]
  rfl

/-- `set_rotation()` with an index in range: the geometry is taken, and the MADCTL command is all the HAL sees. -/
theorem set_rotation_apply {s : State} {k n co : Byte} {table : List RotRec} {rec : RotRec}
    (hk : s.display.rotation = some k) (hn : s.display.rotationsLen = some n) (ht : s.display.rot = some table)
    (hc : s.display.colorOrder = some co) (hlt : k.toNat < n.toNat) (hrec : table[k.toNat]? = some rec) :
    setRotation s = play (commandEvents s.display 0x36 [lowByte (co.setWidth 16 ||| rec.madctl)])
      { s with display := rotated s.display co rec, geomValid := true } := by
  rw [setRotation, bind_ok (need_some 6 hk), bind_ok (need_some 7 hn), only_if_neg (by omega), bind_ok (pure_apply _ _),
    bind_ok (need_some 7 ht)]
  simp only [hrec]
  rw [bind_ok (need_some 8 hc), bind_ok (update_display_apply _ _), bind_ok (set_geom_valid_apply _),
    bind_ok (box_reset_apply rfl rfl)]
  have e : commandEvents s.display 0x36 [lowByte (co.setWidth 16 ||| rec.madctl)] =
      commandEvents (rotated s.display co rec) 0x36 [lowByte (co.setWidth 16 ||| rec.madctl)] :=
    (command_events_congr rfl rfl rfl _ _).symm
  rw [e]
  exact plays_write_cmd _ _ _ _ rfl

/-- `set_rotation()` with an index out of range changes nothing. -/
theorem set_rotation_range {s : State} {k n : Byte} (hk : s.display.rotation = some k)
    (hn : s.display.rotationsLen = some n) (hge : n.toNat ≤ k.toNat) :
    setRotation s = .error ⟨.rotRange, k.toNat⟩ s := by
  rw [setRotation, bind_ok (need_some 6 hk), bind_ok (need_some 7 hn), only_if_pos (by omega),
    bind_error (raise_apply _ _ _)]

end Sys2Proof.Laws
end

