-- ==== Sys2Proof/Laws/Draw.lean ====
section
/-! SUPPORT. What the drawing procedures can do: each is equal, whatever the HAL answers, to playing a list of draws that
the Display alone determines (`Draws`). -/

namespace Sys2Proof.Laws

open Sys2Proof.Machine Sys2Proof.Safety

/-! ## The fields a draw reads -/

/-- The fields that drawing reads hold values and the active area is not empty: the part of `Drawable` about the Display. -/
def DrawReady (d : Display) : Prop :=
  GeomFieldsSet d ∧ d.options.isSome ∧ d.bounding.isSome ∧ d.width ≠ some 0 ∧ d.height ≠ some 0

theorem draw_ready_of_drawable {s : State} (h : Drawable s) : DrawReady s.display := h.2.2

theorem draw_ready_box_with {d : Display} (h : DrawReady d) (x0 y0 x1 y1 : Nat) : DrawReady (boxWith d x0 y0 x1 y1) := by
  obtain ⟨⟨h1, h2, h3, h4, h5, h6, h7, h8, h9⟩, h10, h11, h12, h13⟩ := h
  refine ⟨⟨by simpa, by simpa, by simpa, by simpa, by simpa, ?_⟩, by simpa, by simpa, by simpa, by simpa⟩
  unfold boxWith
  split
  · exact ⟨by simpa, by simpa, by simpa, by simpa⟩
  · exact ⟨h6, h7, h8, h9⟩

/-! ## Operand conversions -/

theorem to_u16_nat (n : Nat) : toU16 (n : Int) = BitVec.ofNat 16 n := by
  simp [toU16]

theorem bit0_eq_and (o : Byte) : wrapH o = o.getLsbD 0 := by
  revert o; decide

theorem bit1_eq_and (o : Byte) : wrapV o = o.getLsbD 1 := by
  revert o; decide

theorem wrap_any_eq (o : Byte) : wrapAny o = wrapsAny o := by
  revert o; decide

/-! ## Windows -/

/-- Expanding the box under a programmed window. -/
theorem expand_box_apply {s : State} (h : DrawReady s.display) (hb : s.display.bounding = some true)
    {x0 y0 x1 y1 : Int} (hx0 : 0 ≤ x0) (hy0 : 0 ≤ y0) (hx1 : 0 ≤ x1) (hy1 : 0 ≤ y1) :
    expandBox x0 y0 x1 y1 s =
      .ok () { s with display := boxWith s.display x0.toNat y0.toNat x1.toNat y1.toNat } := by
  obtain ⟨⟨-, -, -, -, -, h6, h7, h8, h9⟩, -⟩ := h
  obtain ⟨a, ha⟩ := Option.isSome_iff_exists.1 h6
  obtain ⟨b, hb'⟩ := Option.isSome_iff_exists.1 h7
  obtain ⟨c, hc⟩ := Option.isSome_iff_exists.1 h8
  obtain ⟨d, hd⟩ := Option.isSome_iff_exists.1 h9
  rw [expandBox, bind_ok (need_some 13 ha), bind_ok (need_some 14 hb'), bind_ok (need_some 15 hc),
    bind_ok (need_some 16 hd), update_display_apply]
  lift x0 to Nat using hx0
  lift y0 to Nat using hy0
  lift x1 to Nat using hx1
  lift y1 to Nat using hy1
  simp only [boxWith, hb, ha, hb', hc, hd, if_pos, Int.toNat_natCast, Option.map_some, ← Nat.cast_min, ← Nat.cast_max,
    to_u16_nat]

/-- The playing of one draw: the box is expanded, then the window and the pixels go to the HAL. -/
def playDraw (g : Draw) : Op Unit := fun s =>
  play (windowEvents s.display g.x0 g.y0 g.x1 g.y1 ++ pixelEvents s.display g.chunks)
    { s with display := boxWith s.display g.x0 g.y0 g.x1 g.y1 }

/-- The playing of several draws, in order. -/
def playDraws (gs : List Draw) : Op Unit := forEach gs playDraw

@[simp] theorem play_draws_nil (s : State) : playDraws [] s = .ok () s := rfl

theorem play_draws_append (gs hs : List Draw) (s : State) :
    playDraws (gs ++ hs) s = (playDraws gs >>= fun _ => playDraws hs) s := for_each_append gs hs playDraw s

/-- EVERYTHING a draw can do. -/
theorem play_draw_cases (g : Draw) (s : State) :
    playDraw g s = .ok () (drawOne s g) ∨
    ∃ pre b post, windowEvents s.display g.x0 g.y0 g.x1 g.y1 ++ pixelEvents s.display g.chunks = pre ++ .spi b :: post ∧
      transferCount (s.trace ++ pre) ∈ s.params.halFail ∧
      playDraw g s = .error ⟨.halError, transferCount (s.trace ++ pre)⟩
        (({ s with display := boxWith s.display g.x0 g.y0 g.x1 g.y1 } : State).emitted
          (pre ++ .spiFail b :: pinEvents s.display .cs true)) := by
  rcases play_cases (windowEvents s.display g.x0 g.y0 g.x1 g.y1 ++ pixelEvents s.display g.chunks)
    { s with display := boxWith s.display g.x0 g.y0 g.x1 g.y1 } with h | ⟨pre, b, post, he, hk, h⟩
  · left
    rw [playDraw, h]
    simp [drawOne, windowed, State.emitted, List.append_assoc]
  · exact .inr ⟨pre, b, post, he, hk, by rw [playDraw, h]; simp⟩

/-- EVERYTHING several draws can do: all are drawn, or a transfer of one fails after the ones before it. -/
theorem play_draws_cases (gs : List Draw) (s : State) :
    playDraws gs s = .ok () (drawAll s gs) ∨
    ∃ done g rest, gs = done ++ g :: rest ∧ playDraws gs s = playDraw g (drawAll s done) ∧
      ∃ e t, playDraw g (drawAll s done) = .error e t := by
  induction gs generalizing s with
  | nil => exact .inl rfl
  | cons g gs ih =>
    rcases h : playDraw g s with ⟨_, t⟩ | ⟨e, t⟩
    · have ht : t = drawOne s g := by
        rcases play_draw_cases g s with h2 | ⟨_, _, _, -, -, h2⟩ <;> rw [h] at h2 <;> cases h2
        rfl
      subst ht
      have step : playDraws (g :: gs) s = playDraws gs (drawOne s g) := bind_ok h fun _ => playDraws gs
      rcases ih (drawOne s g) with h2 | ⟨done, g', rest, rfl, h2, h3⟩
      · left; rw [step, h2]; rfl
      · exact .inr ⟨g :: done, g', rest, rfl, by rw [step, h2]; rfl, h3⟩
    · exact .inr ⟨[], g, gs, rfl, by rw [show drawAll s [] = s from rfl, h]; exact bind_error h fun _ => playDraws gs,
        e, t, h⟩

theorem draw_all_append (s : State) (gs hs : List Draw) : drawAll s (gs ++ hs) = drawAll (drawAll s gs) hs := by
  simp [drawAll]

theorem hal_quiet_draw_one {s : State} (h : HalQuiet s) (g : Draw) : HalQuiet (drawOne s g) := by
  intro k hk
  have := h k hk
  simp only [draw_one_trace, transfer_count_append]
  omega

theorem hal_quiet_draw_all {s : State} (h : HalQuiet s) (gs : List Draw) : HalQuiet (drawAll s gs) := by
  induction gs generalizing s with
  | nil => exact h
  | cons g gs ih => exact ih (hal_quiet_draw_one h g)

/-- With a quiet HAL every draw is drawn. -/
theorem play_draws_quiet {s : State} (h : HalQuiet s) (gs : List Draw) : playDraws gs s = .ok () (drawAll s gs) := by
  rcases play_draws_cases gs s with h2 | ⟨done, g, -, -, -, e, t, h3⟩
  · exact h2
  · rcases play_draw_cases g (drawAll s done) with h4 | ⟨pre, b, post, -, hk, -⟩
    · rw [h3] at h4; cases h4
    · have := hal_quiet_draw_all h done _ hk
      simp only [transfer_count_append] at this
      omega

/-- A fact about the Display that no draw changes. -/
theorem draw_all_display {P : Display → Prop} (hP : ∀ d x0 y0 x1 y1, P d → P (boxWith d x0 y0 x1 y1)) {s : State}
    (h : P s.display) (gs : List Draw) : P (drawAll s gs).display := by
  induction gs generalizing s with
  | nil => exact h
  | cons g gs ih => exact ih (s := drawOne s g) (by simpa using hP _ _ _ _ _ h)

/-! ## Procedures that draw -/

/-- On every state whose Display is ready, the operation is the playing of the draws that the Display gives; a programmed
window does not change what it gives. -/
def Draws (op : Op Unit) (G : Display → List Draw) : Prop :=
  (∀ d x0 y0 x1 y1, G (boxWith d x0 y0 x1 y1) = G d) ∧
  ∀ s : State, DrawReady s.display → op s = playDraws (G s.display) s

theorem draws_pure : Draws (pure ()) fun _ => [] := ⟨fun _ _ _ _ _ => rfl, fun _ _ => rfl⟩

theorem draws_bind {a b : Op Unit} {F G : Display → List Draw} (ha : Draws a F) (hb : Draws b G) :
    Draws (a >>= fun _ => b) fun d => F d ++ G d := by
  refine ⟨fun d x0 y0 x1 y1 => by simp only [ha.1, hb.1], fun s hs => ?_⟩
  rw [play_draws_append, bind_apply, bind_apply, ha.2 s hs]
  rcases play_draws_cases (F s.display) s with h | ⟨_, _, _, -, h1, e, t, h2⟩
  · rw [h]
    have hd : DrawReady (drawAll s (F s.display)).display :=
      draw_all_display (P := DrawReady) (fun _ _ _ _ _ h => draw_ready_box_with h _ _ _ _) hs _
    have hG : G (drawAll s (F s.display)).display = G s.display :=
      draw_all_display (P := fun d => G d = G s.display) (fun d _ _ _ _ h => by rw [hb.1, h]) rfl _
    simpa only [hG] using hb.2 _ hd
  · rw [h1, h2]

theorem draws_for_each {α : Type} {f : α → Op Unit} {F : α → Display → List Draw} (l : List α)
    (h : ∀ a ∈ l, Draws (f a) (F a)) : Draws (forEach l f) fun d => l.flatMap fun a => F a d := by
  induction l with
  | nil => exact draws_pure
  | cons a l ih =>
    exact draws_bind (h a (by simp)) (ih fun b hb => h b (by simp [hb]))

/-- A window whose corners pass the test is programmed, one that fails it is dropped. -/
theorem set_window_apply {s : State} (h : DrawReady s.display) {w hh : Word} (hw : s.display.width = some w)
    (hhh : s.display.height = some hh) (x0 y0 x1 y1 : Int) :
    setWindow x0 y0 x1 y1 s =
      if windowFits w hh x0 y0 x1 y1 = true then
        (play (windowEvents s.display x0.toNat y0.toNat x1.toNat y1.toNat) >>= fun _ => pure true)
          { s with display := boxWith s.display x0.toNat y0.toNat x1.toNat y1.toNat }
      else .ok false s := by
  rw [setWindow, bind_ok (need_some 2 hw), bind_ok (need_some 3 hhh)]
  by_cases hf : windowFits w hh x0 y0 x1 y1 = true
  · rw [if_pos hf, if_pos hf]
    obtain ⟨b, hb⟩ := Option.isSome_iff_exists.1 h.2.2.1
    obtain ⟨c, hc⟩ := Option.isSome_iff_exists.1 h.1.2.2.1
    obtain ⟨r, hr⟩ := Option.isSome_iff_exists.1 h.1.2.2.2.1
    rw [bind_ok (need_some 12 hb)]
    simp only [windowFits, decide_eq_true_eq] at hf
    have hbox : onlyIf (b = true) (expandBox x0 y0 x1 y1) s =
        .ok () { s with display := boxWith s.display x0.toNat y0.toNat x1.toNat y1.toNat } := by
      cases b with
      | true =>
        rw [only_if_pos rfl]
        exact expand_box_apply h hb (by omega) (by omega) (by omega) (by omega)
      | false =>
        rw [only_if_neg (by decide), pure_apply]
        simp [boxWith, hb]
    rw [bind_ok hbox, bind_apply, bind_apply,
      plays_program_window (boxWith s.display x0.toNat y0.toNat x1.toNat y1.toNat) x0 y0 x1 y1 (c := c) (r := r)
        (by simpa) (by simpa) _ rfl, window_events_box_with]
  · rw [if_neg hf, if_neg hf, pure_apply]

/-- "Program the window, then stream": one draw, or nothing. -/
theorem window_then_apply {s : State} (h : DrawReady s.display) {w hh : Word} (hw : s.display.width = some w)
    (hhh : s.display.height = some hh) (x0 y0 x1 y1 : Int) (chunks : List (List Byte)) :
    windowThen x0 y0 x1 y1 (pixelPhase chunks) s =
      playDraws (if windowFits w hh x0 y0 x1 y1 = true then [⟨x0.toNat, y0.toNat, x1.toNat, y1.toNat, chunks⟩] else [])
        s := by
  rw [windowThen, bind_apply, set_window_apply h hw hhh]
  by_cases hf : windowFits w hh x0 y0 x1 y1 = true
  · rw [if_pos hf, if_pos hf]
    have e : playDraws [⟨x0.toNat, y0.toNat, x1.toNat, y1.toNat, chunks⟩] s =
        (play (windowEvents s.display x0.toNat y0.toNat x1.toNat y1.toNat) >>= fun _ =>
          play (pixelEvents s.display chunks))
          { s with display := boxWith s.display x0.toNat y0.toNat x1.toNat y1.toNat } := by
      change (playDraw _ >>= fun _ => pure ()) s = _
      rw [← play_append, bind_apply, playDraw]
      rcases play (windowEvents s.display x0.toNat y0.toNat x1.toNat y1.toNat ++ pixelEvents s.display chunks)
        { s with display := boxWith s.display x0.toNat y0.toNat x1.toNat y1.toNat } with ⟨_, _⟩ | ⟨_, _⟩ <;> rfl
    rw [e, bind_apply, bind_apply]
    rcases play_cases (windowEvents s.display x0.toNat y0.toNat x1.toNat y1.toNat)
      { s with display := boxWith s.display x0.toNat y0.toNat x1.toNat y1.toNat } with h2 | ⟨_, _, _, -, -, h2⟩
    · rw [h2]
      change onlyIf (true = true) (pixelPhase chunks) _ = play _ _
      rw [only_if_pos rfl, ← pixel_events_box_with s.display x0.toNat y0.toNat x1.toNat y1.toNat]
      exact plays_pixel_phase _ _ _ rfl
    · rw [h2]
  · rw [if_neg hf, if_neg hf]
    rfl

/-- The wrap of one coordinate: the modulo of any value, an inside one being its own. -/
theorem wrap_coord_eq (wrap : Bool) (v : Int) (size : Word) :
    wrapCoord wrap v size = if wrap then v % (size.toNat : Int) else v := by
  unfold wrapCoord
  cases wrap with
  | false => simp
  | true =>
    simp only [true_and, if_true]
    split
    · rfl
    · rw [Int.emod_eq_of_lt] <;> omega

@[simp] theorem pixel_draws_box_with (d : Display) (a b c e : Nat) (x y : Int) (color : Word) :
    pixelDraws (boxWith d a b c e) x y color = pixelDraws d x y color := by simp [pixelDraws]

@[simp] theorem hline_draws_box_with (d : Display) (a b c e : Nat) (x y w : Int) (color : Word) :
    hlineDraws (boxWith d a b c e) x y w color = hlineDraws d x y w color := by simp [hlineDraws]

@[simp] theorem vline_draws_box_with (d : Display) (a b c e : Nat) (x y h : Int) (color : Word) :
    vlineDraws (boxWith d a b c e) x y h color = vlineDraws d x y h color := by simp [vlineDraws]

/-- A pixel (41_primitives.md R140). -/
theorem draws_draw_pixel (x y : Int) (color : Word) : Draws (drawPixel x y color) fun d => pixelDraws d x y color := by
  refine ⟨fun _ _ _ _ _ => pixel_draws_box_with _ _ _ _ _ _ _ _, fun s hs => ?_⟩
  obtain ⟨o, ho⟩ := Option.isSome_iff_exists.1 hs.2.1
  obtain ⟨w, hw⟩ := Option.isSome_iff_exists.1 hs.1.1
  obtain ⟨h, hh⟩ := Option.isSome_iff_exists.1 hs.1.2.1
  rw [drawPixel, bind_ok (need_some 11 ho), bind_ok (need_some 2 hw), bind_ok (need_some 3 hh)]
  simp only [pixelDraws, ho, hw, hh, wrap_coord_eq, bit0_eq_and, bit1_eq_and]
  generalize (if o.getLsbD 0 = true then x % (w.toNat : Int) else x) = x'
  generalize (if o.getLsbD 1 = true then y % (h.toNat : Int) else y) = y'
  by_cases hin : 0 ≤ x' ∧ x' < (w.toNat : Int) ∧ 0 ≤ y' ∧ y' < (h.toNat : Int)
  · rw [only_if_pos hin, if_pos hin, window_then_apply hs hw hh, if_pos]
    simp only [windowFits, decide_eq_true_eq]
    omega
  · rw [only_if_neg hin, if_neg hin]
    rfl

/-- A horizontal line (41_primitives.md R142). -/
theorem draws_fast_hline (x y w : Int) (color : Word) : Draws (fastHline x y w color) fun d => hlineDraws d x y w color := by
  refine ⟨fun _ _ _ _ _ => hline_draws_box_with _ _ _ _ _ _ _ _ _, fun s hs => ?_⟩
  obtain ⟨o, ho⟩ := Option.isSome_iff_exists.1 hs.2.1
  obtain ⟨width, hw⟩ := Option.isSome_iff_exists.1 hs.1.1
  obtain ⟨height, hh⟩ := Option.isSome_iff_exists.1 hs.1.2.1
  rw [fastHline, bind_ok (need_some 11 ho), bind_ok (need_some 2 hw), bind_ok (need_some 3 hh)]
  simp only [hlineDraws, ho, hw, hh, wrap_any_eq]
  cases hwrap : wrapsAny o with
  | true =>
    simp only [Bool.true_eq_false, if_false, if_true]
    exact (draws_for_each (List.range w.toNat) fun d _ => draws_draw_pixel (x + (d : Int)) y color).2 s hs
  | false =>
    simp only [if_true, Bool.false_eq_true, if_false]
    by_cases hin : 0 ≤ y ∧ y < (height.toNat : Int) ∧ x < (width.toNat : Int)
    · rw [only_if_pos hin]
      have e1 : (clipRun x w width).1 = max x 0 := by simp only [clipRun]; split <;> simp <;> omega
      have e2 : (clipRun x w width).2 = min (x + w) width.toNat - max x 0 := by
        simp only [clipRun]; split <;> simp only <;> split <;> omega
      by_cases hp : (clipRun x w width).2 > 0
      · rw [only_if_pos hp, stream, window_then_apply hs hw hh, if_pos, if_pos (by omega)]
        · simp only [e1, e2]
          congr 3
          · omega
          · congr 1; omega
        · simp only [windowFits, decide_eq_true_eq]
          omega
      · rw [only_if_neg hp, if_neg (by omega)]
        rfl
    · rw [only_if_neg hin, if_neg (by omega)]
      rfl

/-- A vertical line (41_primitives.md R144). -/
theorem draws_fast_vline (x y h : Int) (color : Word) : Draws (fastVline x y h color) fun d => vlineDraws d x y h color := by
  refine ⟨fun _ _ _ _ _ => vline_draws_box_with _ _ _ _ _ _ _ _ _, fun s hs => ?_⟩
  obtain ⟨o, ho⟩ := Option.isSome_iff_exists.1 hs.2.1
  obtain ⟨width, hw⟩ := Option.isSome_iff_exists.1 hs.1.1
  obtain ⟨height, hh⟩ := Option.isSome_iff_exists.1 hs.1.2.1
  rw [fastVline, bind_ok (need_some 11 ho), bind_ok (need_some 2 hw), bind_ok (need_some 3 hh)]
  simp only [vlineDraws, ho, hw, hh, wrap_any_eq]
  cases hwrap : wrapsAny o with
  | true =>
    simp only [Bool.true_eq_false, if_false, if_true]
    exact (draws_for_each (List.range h.toNat) fun d _ => draws_draw_pixel x (y + (d : Int)) color).2 s hs
  | false =>
    simp only [if_true, Bool.false_eq_true, if_false]
    by_cases hin : 0 ≤ x ∧ x < (width.toNat : Int) ∧ y < (height.toNat : Int)
    · rw [only_if_pos hin]
      have e1 : (clipRun y h height).1 = max y 0 := by simp only [clipRun]; split <;> simp <;> omega
      have e2 : (clipRun y h height).2 = min (y + h) height.toNat - max y 0 := by
        simp only [clipRun]; split <;> simp only <;> split <;> omega
      by_cases hp : (clipRun y h height).2 > 0
      · rw [only_if_pos hp, stream, window_then_apply hs hw hh, if_pos, if_pos (by omega)]
        · simp only [e1, e2]
          congr 3
          · omega
          · congr 1; omega
        · simp only [windowFits, decide_eq_true_eq]
          omega
      · rw [only_if_neg hp, if_neg (by omega)]
        rfl
    · rw [only_if_neg hin, if_neg (by omega)]
      rfl

/-- A rectangle outline (41_primitives.md R146). -/
theorem draws_draw_rect (x y w h : Int) (color : Word) : Draws (drawRect x y w h color) fun d => rectDraws d x y w h color := by
  have e := draws_bind (draws_fast_hline x y w color) (draws_bind (draws_fast_vline x y h color)
    (draws_bind (draws_fast_hline x (y + h - 1) w color) (draws_fast_vline (x + w - 1) y h color)))
  simp only [rectDraws, List.append_assoc]
  exact e

/-- A filled rectangle (41_primitives.md R147). -/
theorem draws_fill_rect (x y w h : Int) (color : Word) :
    Draws (fillRectBody x y w h color) fun d => fillRectDraws d x y w h color := by
  refine ⟨fun d a b c e => by simp [fillRectDraws], fun s hs => ?_⟩
  obtain ⟨width, hw⟩ := Option.isSome_iff_exists.1 hs.1.1
  obtain ⟨height, hh⟩ := Option.isSome_iff_exists.1 hs.1.2.1
  rw [fillRectBody, bind_ok (need_some 2 hw), bind_ok (need_some 3 hh)]
  simp only [fillRectDraws, hw, hh]
  by_cases hin : x < (width.toNat : Int) ∧ y < (height.toNat : Int)
  · rw [only_if_pos hin, stream, window_then_apply hs hw hh]
    by_cases hf : 0 ≤ x ∧ 1 ≤ w ∧ x + w ≤ width.toNat ∧ 0 ≤ y ∧ 1 ≤ h ∧ y + h ≤ height.toNat
    · rw [if_pos hf, if_pos (by simp only [windowFits, decide_eq_true_eq]; omega)]
      congr 4 <;> omega
    · rw [if_neg hf, if_neg (by simp only [windowFits, decide_eq_true_eq]; omega)]
  · rw [only_if_neg hin, if_neg (by omega)]
    rfl

/-- The whole active area (41_primitives.md R148). -/
theorem draws_fill_screen (color : Word) : Draws (fillScreen color) fun d => fillDraws d color := by
  refine ⟨fun d a b c e => by simp [fillDraws], fun s hs => ?_⟩
  obtain ⟨width, hw⟩ := Option.isSome_iff_exists.1 hs.1.1
  obtain ⟨height, hh⟩ := Option.isSome_iff_exists.1 hs.1.2.1
  rw [fillScreen, bind_ok (need_some 2 hw), bind_ok (need_some 3 hh)]
  have pos : ∀ v : Word, v ≠ 0 → 1 ≤ v.toNat := fun v hv => Nat.one_le_iff_ne_zero.2 fun e =>
    hv (BitVec.eq_of_toNat_eq (by simpa using e))
  have h1 := pos width fun e => hs.2.2.2.1 (by rw [hw, e])
  have h2 := pos height fun e => hs.2.2.2.2 (by rw [hh, e])
  rw [stream, window_then_apply hs hw hh, if_pos (by simp only [windowFits, decide_eq_true_eq]; omega)]
  simp only [fillDraws, hw, hh]
  congr 3 <;> omega

/-- A raw blit whose buffer lies in memory (43_buffers.md R171). -/
theorem blit_body_apply {s : State} (hs : DrawReady s.display) {addr len : Nat}
    (hm : addr + len ≤ s.params.bmemSize) (x y w h : Int) :
    blitBody addr len x y w h s = playDraws (blitDraws s.display (readBytes s.bmem addr len) x y w h) s := by
  obtain ⟨width, hw⟩ := Option.isSome_iff_exists.1 hs.1.1
  obtain ⟨height, hh⟩ := Option.isSome_iff_exists.1 hs.1.2.1
  rw [blitBody, bind_ok (by rw [mem_read_apply, if_neg (by omega)]), window_then_apply hs hw hh]
  simp only [blitDraws, hw, hh]
  have e : (readBytes s.bmem addr len).take (min len (w * h * 2).toNat) =
      (readBytes s.bmem addr len).take (w * h * 2).toNat := by
    have hl := read_bytes_length s.bmem addr len
    rw [Nat.min_comm, ← List.take_take, List.take_of_length_le (l := readBytes s.bmem addr len) (by omega)]
  rw [e]
  by_cases hf : 0 ≤ x ∧ 1 ≤ w ∧ x + w ≤ width.toNat ∧ 0 ≤ y ∧ 1 ≤ h ∧ y + h ≤ height.toNat
  · rw [if_pos hf, if_pos (by simp only [windowFits, decide_eq_true_eq]; omega)]
  · rw [if_neg hf, if_neg (by simp only [windowFits, decide_eq_true_eq]; omega)]

/-! ## Lines -/

/-- A one-pixel horizontal line draws what the pixel draws. -/
theorem hline_draws_one (d : Display) (x y : Int) (color : Word) :
    hlineDraws d x y 1 color = pixelDraws d x y color := by
  unfold hlineDraws pixelDraws
  rcases d.options with _ | o <;> rcases d.width with _ | w <;> rcases d.height with _ | h <;> try rfl
  simp only
  by_cases hw : wrapsAny o = true
  · rw [if_pos hw]
    simp [List.range_succ]
  · simp only [wrapsAny, Bool.or_eq_true, not_or, Bool.not_eq_true] at hw
    simp only [wrapsAny, hw.1, hw.2, Bool.or_self, Bool.false_eq_true, if_false]
    by_cases hin : 0 ≤ x ∧ x < (w.toNat : Int) ∧ 0 ≤ y ∧ y < (h.toNat : Int)
    · rw [if_pos hin, if_pos (by omega)]
      have e1 : max x 0 = x := by omega
      have e2 : min (x + 1) (w.toNat : Int) - 1 = x := by omega
      rw [e1, e2, show x - x + 1 = 1 by omega]
      simp [fillChunks, stagePixels, repeatPixel]
    · rw [if_neg hin, if_neg (by omega)]

/-- A one-pixel vertical line draws what the pixel draws. -/
theorem vline_draws_one (d : Display) (x y : Int) (color : Word) :
    vlineDraws d x y 1 color = pixelDraws d x y color := by
  unfold vlineDraws pixelDraws
  rcases d.options with _ | o <;> rcases d.width with _ | w <;> rcases d.height with _ | h <;> try rfl
  simp only
  by_cases hw : wrapsAny o = true
  · rw [if_pos hw]
    simp [List.range_succ]
  · simp only [wrapsAny, Bool.or_eq_true, not_or, Bool.not_eq_true] at hw
    simp only [wrapsAny, hw.1, hw.2, Bool.or_self, Bool.false_eq_true, if_false]
    by_cases hin : 0 ≤ x ∧ x < (w.toNat : Int) ∧ 0 ≤ y ∧ y < (h.toNat : Int)
    · rw [if_pos hin, if_pos (by omega)]
      have e1 : max y 0 = y := by omega
      have e2 : min (y + 1) (h.toNat : Int) - 1 = y := by omega
      rw [e1, e2, show y - y + 1 = 1 by omega]
      simp [fillChunks, stagePixels, repeatPixel]
    · rw [if_neg hin, if_neg (by omega)]

/-- One run of a line (42_line.md R162). -/
theorem draws_flush_run (steep : Bool) (color : Word) (r : Run) :
    Draws (flushRun steep color r) fun d => runDraws d steep color r := by
  unfold flushRun runDraws
  cases steep with
  | false =>
    simp only [if_true, Bool.false_eq_true, if_false]
    split
    · rename_i h
      simp only [h, Nat.cast_one, hline_draws_one]
      exact draws_draw_pixel _ _ _
    · exact draws_fast_hline _ _ _ _
  | true =>
    simp only [Bool.true_eq_false, if_false, if_true]
    split
    · rename_i h
      simp only [h, Nat.cast_one, vline_draws_one]
      exact draws_draw_pixel _ _ _
    · exact draws_fast_vline _ _ _ _

/-- A whole line (42_line.md R161). -/
theorem draws_draw_line (l : Line) (color : Word) :
    Draws (drawLine l color) fun d => l.runs.flatMap (runDraws d l.steep color) :=
  draws_for_each l.runs fun r _ => draws_flush_run l.steep color r

/-! ## Whole operations -/

/-- A guarded body of a drawable state is performed as the draws it is equal to there. -/
theorem perform_drawing {s : State} (h : Drawable s) {body : Op Unit} {gs : List Draw} (hb : body s = playDraws gs s)
    (len : Nat) :
    perform len (guardConfigured >>= fun _ => needGeom >>= fun _ => body) s = perform len (playDraws gs) s := by
  have e : (guardConfigured >>= fun _ => needGeom >>= fun _ => body) s = playDraws gs s := by
    rw [bind_ok (by rw [guard_configured_apply, if_pos h.1]), bind_ok (by rw [need_geom_apply, if_pos h.2.1]), hb]
  simp only [perform, e]

/-- EVERYTHING a drawing operation can do in a drawable state, whatever the HAL answers: its draws, in order. A blit's
buffer is to lie in memory. -/
theorem exec_drawing {s : State} (h : Drawable s) {i : Instr}
    (hi : i.opcode ∈ [Opcode.pixel, .hline, .vline, .rect, .fillRect, .fill, .line, .blit])
    (hm : ∀ addr len x y w hh, i = .blit addr len x y w hh → addr.toNat + len.toNat ≤ s.params.bmemSize) :
    exec i s = perform i.words (playDraws (drawsOf s i)) s := by
  have hd := draw_ready_of_drawable h
  cases i with
  | pixel x y color => exact perform_drawing h ((draws_draw_pixel _ _ _).2 s hd) _
  | hline x y w color => exact perform_drawing h ((draws_fast_hline _ _ _ _).2 s hd) _
  | vline x y hh color => exact perform_drawing h ((draws_fast_vline _ _ _ _).2 s hd) _
  | rect x y w hh color => exact perform_drawing h ((draws_draw_rect _ _ _ _ _).2 s hd) _
  | fillRect x y w hh color => exact perform_drawing h ((draws_fill_rect _ _ _ _ _).2 s hd) _
  | fill color => exact perform_drawing h ((draws_fill_screen _).2 s hd) _
  | line x0 y0 x1 y1 color => exact perform_drawing h ((draws_draw_line _ _).2 s hd) _
  | blit addr len x y w hh => exact perform_drawing h (blit_body_apply hd (hm _ _ _ _ _ _ rfl) _ _ _ _) _
  | _ => simp [Instr.opcode] at hi

end Sys2Proof.Laws
end

