-- ==== Sys2Proof/Laws/PerInstr.lean ====
section
/-! SUPPORT. The family `EncodeLength`: a well-formed instruction's encoding has the length of its descriptor
(30_encoding.md R95). -/

namespace Sys2Proof.Laws

/-- The words of a table of records. -/
theorem table_words_length (table : List RotRec) : (table.flatMap recordWords).length = 5 * table.length := by
  induction table with
  | nil => rfl
  | cons r table ih => simp only [List.flatMap_cons, List.length_append, ih, recordWords, List.length_cons, List.length_nil]; omega

end Sys2Proof.Laws

namespace Sys2Proof.Laws.EncodeLength

/-- The encoding of a well-formed instruction has the length of its descriptor. -/
def Statement (i : Instr) : Prop := i.wellFormed = true → (encode i).length = i.words

theorem writeCmd (a : Byte) (b : DWord) (c : DWord) : Statement (.writeCmd a b c) := fun _ => rfl

theorem setWindow (a : Word) (b : Word) (c : Word) (d : Word) : Statement (.setWindow a b c d) := fun _ => rfl

theorem fillBuf (a : Word) (b : DWord) : Statement (.fillBuf a b) := fun _ => rfl

theorem pixel (a : Word) (b : Word) (c : Word) : Statement (.pixel a b c) := fun _ => rfl

theorem hline (a : Word) (b : Word) (c : Word) (d : Word) : Statement (.hline a b c d) := fun _ => rfl

theorem vline (a : Word) (b : Word) (c : Word) (d : Word) : Statement (.vline a b c d) := fun _ => rfl

theorem rect (a : Word) (b : Word) (c : Word) (d : Word) (e : Word) : Statement (.rect a b c d e) := fun _ => rfl

theorem fillRect (a : Word) (b : Word) (c : Word) (d : Word) (e : Word) : Statement (.fillRect a b c d e) := fun _ => rfl

theorem fill (a : Word) : Statement (.fill a) := fun _ => rfl

theorem line (a : Word) (b : Word) (c : Word) (d : Word) (e : Word) : Statement (.line a b c d e) := fun _ => rfl

theorem blit (a : DWord) (b : DWord) (c : Word) (d : Word) (e : Word) (f : Word) : Statement (.blit a b c d e f) := fun _ => rfl

theorem mapbits (a : DWord) (b : DWord) (c : DWord) (d : DWord) (e : Word) (f : Word) (g : Word) : Statement (.mapbits a b c d e f g) := fun _ => rfl

theorem rotation (a : Byte) : Statement (.rotation a) := fun _ => rfl

theorem offset (a : Word) (b : Word) : Statement (.offset a b) := fun _ => rfl

theorem madctlGet : Statement .madctlGet := fun _ => rfl

theorem madctlSet (a : Word) : Statement (.madctlSet a) := fun _ => rfl

theorem boundingGet (a : Bool) : Statement (.boundingGet a) := fun _ => rfl

theorem boundingSet (a : Bool) (b : Bool) : Statement (.boundingSet a b) := fun _ => rfl

theorem config (f : ConfigFlags) (dw dh rot opts nrec : Word) (a l : DWord) (table : List RotRec) :
    Statement (.config f dw dh rot opts nrec a l table) := by
  intro h
  simp only [Instr.wellFormed, tableMatches] at h
  simp only [encode, Instr.operandWords, Instr.words, Instr.opcode, Opcode.words, List.length_cons, List.length_append,
    List.length_nil, table_words_length]
  change _ = if nrec.toNat ≤ 255 then 10 + 5 * nrec.toNat else 10
  split at h <;> rename_i hn
  · rw [if_pos hn, eq_of_beq h]; omega
  · rw [if_neg hn, List.isEmpty_iff.1 h]; rfl

theorem init : Statement .init := fun _ => rfl

theorem hardReset : Statement .hardReset := fun _ => rfl

theorem softReset : Statement .softReset := fun _ => rfl

theorem sleepMode (a : Bool) : Statement (.sleepMode a) := fun _ => rfl

theorem inversionMode (a : Bool) : Statement (.inversionMode a) := fun _ => rfl

theorem on : Statement .on := fun _ => rfl

theorem off : Statement .off := fun _ => rfl

theorem vscrdef (a : Word) (b : Word) (c : Word) : Statement (.vscrdef a b c) := fun _ => rfl

theorem vscsad (a : Word) : Statement (.vscsad a) := fun _ => rfl

theorem color565 (a : Word) (b : Word) (c : Word) : Statement (.color565 a b c) := fun _ => rfl

end Sys2Proof.Laws.EncodeLength
end

