-- ==== Sys2Proof/Laws/Encoding.lean ====
section
/-! SUPPORT. The fields of descriptors: joining and cutting words, headers, flags and tables of records. -/

namespace Sys2Proof.Laws

@[simp] theorem header_op_header (op f : Byte) : headerOp (header op f) = op := by
  apply BitVec.eq_of_getLsbD_eq
  intro i hi
  simp only [headerOp, header, BitVec.getLsbD_append, BitVec.getLsbD_extractLsb']
  simp [hi]

@[simp] theorem header_imm_header (op f : Byte) : headerImm (header op f) = f := by
  apply BitVec.eq_of_getLsbD_eq
  intro i hi
  simp only [headerImm, header, BitVec.getLsbD_append, BitVec.getLsbD_extractLsb']
  simp [hi]

theorem header_fields (h : Word) : header (headerOp h) (headerImm h) = h := by
  apply BitVec.eq_of_getLsbD_eq
  intro i hi
  simp only [header, headerOp, headerImm, BitVec.getLsbD_append, BitVec.getLsbD_extractLsb']
  by_cases h8 : i < 8
  · simp [h8]
  · have : i - 8 < 8 := by omega
    simp [h8, this, show 8 + (i - 8) = i by omega]

@[simp] theorem join_words_cut (v : DWord) : joinWords (highWord v) (lowWord v) = v := by
  apply BitVec.eq_of_getLsbD_eq
  intro i hi
  simp only [joinWords, highWord, lowWord, BitVec.getLsbD_append, BitVec.getLsbD_extractLsb']
  by_cases h16 : i < 16
  · simp [h16]
  · have : i - 16 < 16 := by omega
    simp [h16, this, show 16 + (i - 16) = i by omega]

@[simp] theorem high_word_join (hi lo : Word) : highWord (joinWords hi lo) = hi := by
  apply BitVec.eq_of_getLsbD_eq
  intro i h
  simp only [highWord, joinWords, BitVec.getLsbD_append, BitVec.getLsbD_extractLsb']
  simp [h]

@[simp] theorem low_word_join (hi lo : Word) : lowWord (joinWords hi lo) = lo := by
  apply BitVec.eq_of_getLsbD_eq
  intro i h
  simp only [lowWord, joinWords, BitVec.getLsbD_append, BitVec.getLsbD_extractLsb']
  simp [h]

/-- Every opcode is found by its own code: the 29 codes differ. -/
theorem find_code (o : Opcode) : Opcode.all.find? (fun p => p.code == o.code) = some o := by
  cases o <;> rfl

/-- A header with no reserved bit set is legal. -/
theorem legal_header_header (o : Opcode) (f : Byte) (h : f &&& ~~~ o.usedBits = 0) :
    legalHeader (header o.code f) = some o := by
  simp only [legalHeader, header_op_header, header_imm_header, find_code, h, if_true]

/-- A legal header is its opcode's code and a field with no reserved bit set. -/
theorem legal_header_some {h : Word} {o : Opcode} (e : legalHeader h = some o) :
    h = header o.code (headerImm h) ∧ headerImm h &&& ~~~ o.usedBits = 0 := by
  unfold legalHeader at e
  split at e
  · cases e
  · rename_i p hp
    split at e
    · cases e
      refine ⟨?_, ‹_›⟩
      have := List.find?_some hp
      rw [eq_of_beq this, header_fields]
    · cases e

/-- The records of a table are read back from its words. -/
theorem take_records_words (table : List RotRec) (rest : List Word) :
    takeRecords table.length (table.flatMap recordWords ++ rest) = some (table, rest) := by
  induction table with
  | nil => rfl
  | cons r table ih =>
    simp only [List.flatMap_cons, recordWords, List.length_cons, List.cons_append, List.nil_append, takeRecords, ih]

/-- Whatever records are read are the words they were read from. -/
theorem take_records_some {n : Nat} {ws rest : List Word} {table : List RotRec}
    (h : takeRecords n ws = some (table, rest)) : table.length = n ∧ ws = table.flatMap recordWords ++ rest := by
  induction n generalizing ws table with
  | zero => simp only [takeRecords, Option.some.injEq, Prod.mk.injEq] at h; obtain ⟨rfl, rfl⟩ := h; exact ⟨rfl, rfl⟩
  | succ n ih =>
    match ws, h with
    | a :: b :: c :: d :: e :: ws, h =>
      simp only [takeRecords] at h
      split at h
      · rename_i recs r hr
        simp only [Option.some.injEq, Prod.mk.injEq] at h
        obtain ⟨rfl, rfl⟩ := h
        obtain ⟨h1, h2⟩ := ih hr
        exact ⟨by simp [h1], by simp [recordWords, h2]⟩
      · cases h

/-- The flags of a `CONFIG` header are read back. -/
theorem config_flags_imm (f : ConfigFlags) (dw dh rot opts nrec : Word) (a l : DWord) (table : List RotRec) :
    configFlags (Instr.config f dw dh rot opts nrec a l table).imm = f := by
  obtain ⟨f0, f1, f2, f3, f4, f5, f6⟩ := f
  simp only [Instr.imm]
  revert f0 f1 f2 f3 f4 f5 f6
  decide

/-- The header field of an instruction sets no reserved bit. -/
theorem imm_used (i : Instr) : i.imm &&& ~~~ i.opcode.usedBits = 0 := by
  cases i with
  | writeCmd cmd a l => simp only [Instr.imm, Instr.opcode, Opcode.usedBits]; revert cmd; decide
  | rotation v => simp only [Instr.imm, Instr.opcode, Opcode.usedBits]; revert v; decide
  | boundingGet b => revert b; decide
  | boundingSet b c => revert b c; decide
  | sleepMode b => revert b; decide
  | inversionMode b => revert b; decide
  | config f =>
    obtain ⟨f0, f1, f2, f3, f4, f5, f6⟩ := f
    simp only [Instr.imm, Instr.opcode, Opcode.usedBits]
    revert f0 f1 f2 f3 f4 f5 f6
    decide
  | _ => simp only [Instr.imm, Instr.opcode, Opcode.usedBits]; decide

end Sys2Proof.Laws
end

