-- ==== Sys2Proof/Laws/Frames.lean ====
section
/-! SUPPORT. Frames of the shared procedures, whatever the HAL answers and whatever the state holds: a relation that holds
between a state and itself, composes, and admits the writes a procedure makes, holds between the state before the procedure
and the state it leaves. -/

namespace Sys2Proof.Laws

open Sys2Proof.Machine Sys2Proof.Safety

/-- A relation that composes and that appending events keeps. -/
structure Composes (R : State → State → Prop) : Prop where
  refl  : ∀ s, R s s
  trans : ∀ s t u, R s t → R t u → R s u
  emits : ∀ s es, R s (State.emitted s es)

/-- A relation that also admits writes of the four box fields. -/
structure AdmitsBox (R : State → State → Prop) : Prop extends Composes R where
  box : ∀ (s : State) (a b c d : Option Word),
    R s { s with display := { s.display with minX := a, minY := b, maxX := c, maxY := d } }

/-! ## Operations that only emit -/

theorem keeps_emit {R : State → State → Prop} (h : Composes R) (e : Event) : Keeps R (emit e) := fun s => h.emits s [e]

theorem keeps_delay {R : State → State → Prop} (h : Composes R) (n : Nat) : Keeps R (delay n) := keeps_emit h _

theorem keeps_pin {R : State → State → Prop} (h : Composes R) (p : Pin) (l : Bool) : Keeps R (pin p l) :=
  fun s => h.emits s _

theorem keeps_spi {R : State → State → Prop} (h : Composes R) (b : List Byte) : Keeps R (spi b) := by
  intro s
  by_cases hk : transferCount s.trace ∈ s.params.halFail
  · rw [after_error (spi_error hk b)]
    exact h.emits s _
  · rw [after_ok (spi_ok hk b)]
    exact h.emits s _

theorem keeps_write_cmd {R : State → State → Prop} (h : Composes R) (cmd : Byte) (data : List Byte) :
    Keeps R (writeCmd cmd data) := by
  intro s
  have e : after (writeCmd cmd data) s = after (play (commandEvents s.display cmd data)) s := by
    simp only [after, plays_write_cmd s.display cmd data s rfl]
  rw [e]
  rcases play_cases (commandEvents s.display cmd data) s with h2 | ⟨_, _, _, -, -, h2⟩
  · rw [after_ok h2]; exact h.emits s _
  · rw [after_error h2]; exact h.emits s _

theorem keeps_pixel_phase {R : State → State → Prop} (h : Composes R) (chunks : List (List Byte)) :
    Keeps R (pixelPhase chunks) := by
  intro s
  have e : after (pixelPhase chunks) s = after (play (pixelEvents s.display chunks)) s := by
    simp only [after, plays_pixel_phase s.display chunks s rfl]
  rw [e]
  rcases play_cases (pixelEvents s.display chunks) s with h2 | ⟨_, _, _, -, -, h2⟩
  · rw [after_ok h2]; exact h.emits s _
  · rw [after_error h2]; exact h.emits s _

theorem keeps_stream {R : State → State → Prop} (h : Composes R) (color : Word) (n : Nat) : Keeps R (stream color n) :=
  keeps_pixel_phase h _

theorem keeps_hard_reset {R : State → State → Prop} (h : Composes R) : Keeps R hardReset :=
  keeps_bind h.trans (keeps_pin h _ _) fun _ => keeps_bind h.trans (keeps_pin h _ _) fun _ =>
  keeps_bind h.trans (keeps_delay h _) fun _ => keeps_bind h.trans (keeps_pin h _ _) fun _ =>
  keeps_bind h.trans (keeps_delay h _) fun _ => keeps_bind h.trans (keeps_pin h _ _) fun _ =>
  keeps_bind h.trans (keeps_delay h _) fun _ => keeps_pin h _ _

theorem keeps_soft_reset {R : State → State → Prop} (h : Composes R) : Keeps R softReset :=
  keeps_bind h.trans (keeps_write_cmd h _ _) fun _ => keeps_delay h _

theorem keeps_default_init {R : State → State → Prop} (h : Composes R) : Keeps R defaultInit :=
  keeps_bind h.trans (keeps_soft_reset h) fun _ => keeps_bind h.trans (keeps_write_cmd h _ _) fun _ =>
  keeps_bind h.trans (keeps_write_cmd h _ _) fun _ => keeps_bind h.trans (keeps_delay h _) fun _ =>
  keeps_bind h.trans (keeps_need h.refl _ _) fun _ => keeps_bind h.trans (keeps_write_cmd h _ _) fun _ =>
  keeps_bind h.trans (keeps_write_cmd h _ _) fun _ => keeps_bind h.trans (keeps_delay h _) fun _ =>
  keeps_bind h.trans (keeps_write_cmd h _ _) fun _ => keeps_delay h _

theorem keeps_run_entry {R : State → State → Prop} (h : Composes R) (e : ScriptEntry) : Keeps R (runEntry e) := by
  refine keeps_bind h.trans (keeps_write_cmd h _ _) fun _ => keeps_bind h.trans (keeps_delay h _) fun _ => ?_
  cases e.delay with
  | none => exact h.refl
  | some d => exact keeps_delay h _

theorem keeps_panel_init {R : State → State → Prop} (h : Composes R) (c : CustomInit) : Keeps R (panelInit c) := by
  cases c with
  | absent => exact keeps_default_init h
  | script es => exact keeps_for_each h.refl h.trans es fun e _ => keeps_run_entry h e

theorem keeps_mem_read {R : State → State → Prop} (h : Composes R) (addr n : Nat) : Keeps R (memRead addr n) := by
  intro s
  by_cases hm : addr + n > s.params.bmemSize
  · rw [after_error (by rw [mem_read_apply, if_pos hm])]; exact h.refl s
  · rw [after_ok (by rw [mem_read_apply, if_neg hm])]; exact h.refl s

theorem keeps_check_range {R : State → State → Prop} (h : Composes R) (addr n : Nat) : Keeps R (checkRange addr n) := by
  intro s
  by_cases hm : addr + n > s.params.bmemSize
  · rw [after_error (by rw [check_range_apply, if_pos hm])]; exact h.refl s
  · rw [after_ok (by rw [check_range_apply, if_neg hm])]; exact h.refl s

/-! ## Windows and drawing -/

theorem keeps_expand_box {R : State → State → Prop} (h : AdmitsBox R) (x0 y0 x1 y1 : Int) :
    Keeps R (expandBox x0 y0 x1 y1) :=
  keeps_bind h.trans (keeps_need h.refl _ _) fun _ => keeps_bind h.trans (keeps_need h.refl _ _) fun _ =>
  keeps_bind h.trans (keeps_need h.refl _ _) fun _ => keeps_bind h.trans (keeps_need h.refl _ _) fun _ =>
  fun s => h.box s _ _ _ _

theorem keeps_box_reset {R : State → State → Prop} (h : AdmitsBox R) : Keeps R boxReset :=
  keeps_bind h.trans (keeps_need h.refl _ _) fun _ => keeps_bind h.trans (keeps_need h.refl _ _) fun _ =>
  fun s => h.box s _ _ _ _

theorem keeps_program_window {R : State → State → Prop} (h : Composes R) (x0 y0 x1 y1 : Int) :
    Keeps R (programWindow x0 y0 x1 y1) :=
  keeps_bind h.trans (keeps_need h.refl _ _) fun _ => keeps_bind h.trans (keeps_need h.refl _ _) fun _ =>
  keeps_bind h.trans (keeps_write_cmd h _ _) fun _ => keeps_bind h.trans (keeps_write_cmd h _ _) fun _ =>
  keeps_write_cmd h _ _

theorem keeps_set_window {R : State → State → Prop} (h : AdmitsBox R) (x0 y0 x1 y1 : Int) :
    Keeps R (setWindow x0 y0 x1 y1) := by
  refine keeps_bind h.trans (keeps_need h.refl _ _) fun _ => keeps_bind h.trans (keeps_need h.refl _ _) fun _ => ?_
  split
  · exact keeps_bind h.trans (keeps_need h.refl _ _) fun _ =>
      keeps_bind h.trans (keeps_only_if h.refl (keeps_expand_box h _ _ _ _)) fun _ =>
      keeps_bind h.trans (keeps_program_window h.toComposes _ _ _ _) fun _ => keeps_pure h.refl _
  · exact keeps_pure h.refl _

theorem keeps_window_then {R : State → State → Prop} (h : AdmitsBox R) (x0 y0 x1 y1 : Int) {pixels : Op Unit}
    (hp : Keeps R pixels) : Keeps R (windowThen x0 y0 x1 y1 pixels) :=
  keeps_bind h.trans (keeps_set_window h _ _ _ _) fun _ => keeps_only_if h.refl hp

theorem keeps_draw_pixel {R : State → State → Prop} (h : AdmitsBox R) (x y : Int) (color : Word) :
    Keeps R (drawPixel x y color) :=
  keeps_bind h.trans (keeps_need h.refl _ _) fun _ => keeps_bind h.trans (keeps_need h.refl _ _) fun _ =>
  keeps_bind h.trans (keeps_need h.refl _ _) fun _ =>
  keeps_only_if h.refl (keeps_window_then h _ _ _ _ (keeps_pixel_phase h.toComposes _))

theorem keeps_fast_hline {R : State → State → Prop} (h : AdmitsBox R) (x y w : Int) (color : Word) :
    Keeps R (fastHline x y w color) := by
  refine keeps_bind h.trans (keeps_need h.refl _ _) fun _ => keeps_bind h.trans (keeps_need h.refl _ _) fun _ =>
    keeps_bind h.trans (keeps_need h.refl _ _) fun _ => ?_
  split
  · exact keeps_only_if h.refl (keeps_only_if h.refl (keeps_window_then h _ _ _ _ (keeps_stream h.toComposes _ _)))
  · exact keeps_for_each h.refl h.trans _ fun _ _ => keeps_draw_pixel h _ _ _

theorem keeps_fast_vline {R : State → State → Prop} (h : AdmitsBox R) (x y w : Int) (color : Word) :
    Keeps R (fastVline x y w color) := by
  refine keeps_bind h.trans (keeps_need h.refl _ _) fun _ => keeps_bind h.trans (keeps_need h.refl _ _) fun _ =>
    keeps_bind h.trans (keeps_need h.refl _ _) fun _ => ?_
  split
  · exact keeps_only_if h.refl (keeps_only_if h.refl (keeps_window_then h _ _ _ _ (keeps_stream h.toComposes _ _)))
  · exact keeps_for_each h.refl h.trans _ fun _ _ => keeps_draw_pixel h _ _ _

theorem keeps_draw_rect {R : State → State → Prop} (h : AdmitsBox R) (x y w hh : Int) (color : Word) :
    Keeps R (drawRect x y w hh color) :=
  keeps_bind h.trans (keeps_fast_hline h _ _ _ _) fun _ => keeps_bind h.trans (keeps_fast_vline h _ _ _ _) fun _ =>
  keeps_bind h.trans (keeps_fast_hline h _ _ _ _) fun _ => keeps_fast_vline h _ _ _ _

theorem keeps_fill_rect {R : State → State → Prop} (h : AdmitsBox R) (x y w hh : Int) (color : Word) :
    Keeps R (fillRectBody x y w hh color) :=
  keeps_bind h.trans (keeps_need h.refl _ _) fun _ => keeps_bind h.trans (keeps_need h.refl _ _) fun _ =>
  keeps_only_if h.refl (keeps_window_then h _ _ _ _ (keeps_stream h.toComposes _ _))

theorem keeps_fill_screen {R : State → State → Prop} (h : AdmitsBox R) (color : Word) : Keeps R (fillScreen color) :=
  keeps_bind h.trans (keeps_need h.refl _ _) fun _ => keeps_bind h.trans (keeps_need h.refl _ _) fun _ =>
  keeps_window_then h _ _ _ _ (keeps_stream h.toComposes _ _)

theorem keeps_draw_line {R : State → State → Prop} (h : AdmitsBox R) (l : Line) (color : Word) :
    Keeps R (drawLine l color) := by
  refine keeps_for_each h.refl h.trans _ fun r _ => ?_
  unfold flushRun
  split <;> split
  · exact keeps_draw_pixel h _ _ _
  · exact keeps_fast_hline h _ _ _ _
  · exact keeps_draw_pixel h _ _ _
  · exact keeps_fast_vline h _ _ _ _

theorem keeps_blit_body {R : State → State → Prop} (h : AdmitsBox R) (addr len : Nat) (x y w hh : Int) :
    Keeps R (blitBody addr len x y w hh) :=
  keeps_bind h.trans (keeps_mem_read h.toComposes _ _) fun _ =>
  keeps_window_then h _ _ _ _ (keeps_pixel_phase h.toComposes _)

/-! ## Operations that write state -/

/-- `set_rotation()`: besides the box, only the fields of a record and the geometry flag. -/
theorem keeps_set_rotation {R : State → State → Prop} (h : AdmitsBox R)
    (hrec : ∀ (s : State) (co : Byte) (rec : RotRec), R s { s with display := applyRecord co rec s.display })
    (hflag : ∀ s : State, R s { s with geomValid := true }) : Keeps R setRotation := by
  refine keeps_bind h.trans (keeps_need h.refl _ _) fun _ => keeps_bind h.trans (keeps_need h.refl _ _) fun _ =>
    keeps_bind h.trans (keeps_only_if h.refl (keeps_raise h.refl _ _)) fun _ =>
    keeps_bind h.trans (keeps_need h.refl _ _) fun _ => ?_
  split
  · exact keeps_raise h.refl _ _
  · exact keeps_bind h.trans (keeps_need h.refl _ _) fun _ => keeps_bind h.trans (fun s => hrec s _ _) fun _ =>
      keeps_bind h.trans hflag fun _ => keeps_bind h.trans (keeps_box_reset h) fun _ =>
      keeps_write_cmd h.toComposes _ _

/-- The box read writes nothing but the result registers. -/
theorem keeps_read_box {R : State → State → Prop} (h : Composes R)
    (hres : ∀ (s : State) (r : Results), R s { s with results := r }) (asSize : Bool) : Keeps R (readBox asSize) :=
  keeps_bind h.trans (keeps_need h.refl _ _) fun _ => keeps_bind h.trans (keeps_need h.refl _ _) fun _ =>
  keeps_bind h.trans (keeps_need h.refl _ _) fun _ => keeps_bind h.trans (keeps_need h.refl _ _) fun _ =>
  fun s => hres s _

/-- The body of `INIT`. -/
theorem keeps_init_body {R : State → State → Prop} (h : AdmitsBox R)
    (hrec : ∀ (s : State) (co : Byte) (rec : RotRec), R s { s with display := applyRecord co rec s.display })
    (hflag : ∀ s : State, R s { s with geomValid := true }) : Keeps R initBody :=
  keeps_bind h.trans (keeps_hard_reset h.toComposes) fun _ => keeps_bind h.trans (keeps_need h.refl _ _) fun _ =>
  keeps_bind h.trans (keeps_panel_init h.toComposes _) fun _ =>
  keeps_bind h.trans (keeps_set_rotation h hrec hflag) fun _ => keeps_bind h.trans (keeps_delay h.toComposes _) fun _ =>
  keeps_bind h.trans (keeps_fill_screen h _) fun _ => keeps_pin h.toComposes _ _

/-- A script parse reads memory and changes nothing. -/
theorem keeps_parse_script {R : State → State → Prop} (h : Composes R) (addr len : Nat) :
    Keeps R (parseScript addr len) := by
  refine keeps_bind h.trans (keeps_check_range h _ _) fun _ => keeps_bind h.trans (fun s => ?_) fun _ =>
    keeps_bind h.trans (keeps_mem_read h _ _) fun _ => ?_
  · simp only [after, checkScriptCap]
    split <;> rename_i h2 <;> split at h2 <;> cases h2 <;> exact h.refl s
  · split
    · exact keeps_pure h.refl _
    · exact keeps_raise h.refl _ _

theorem keeps_choose_script {R : State → State → Prop} (h : Composes R) (ci : Bool) (ciAddr ciLen : Nat) :
    Keeps R (chooseScript ci ciAddr ciLen) := by
  unfold chooseScript
  split
  · exact keeps_bind h.trans (keeps_parse_script h _ _) fun _ => keeps_pure h.refl _
  · exact keeps_pure h.refl _

/-- The body of `CONFIG`: one write of the Display, after every test, and the flag. -/
theorem keeps_config_body {R : State → State → Prop} (h : Composes R) (f : ConfigFlags) (dw dh rotation options nrec : Word)
    (ciAddr ciLen : Nat) (recs : List RotRec)
    (hwrite : ∀ (s : State) (table : List RotRec) (script : CustomInit),
      R s { s with display := configuredDisplay f dw dh rotation options table script s.display })
    (hflag : ∀ s : State, R s { s with configured := true }) :
    Keeps R (configBody f dw dh rotation options nrec ciAddr ciLen recs) := by
  refine keeps_bind h.trans (fun s => ?_) fun _ =>
    keeps_bind h.trans (keeps_only_if h.refl (keeps_raise h.refl _ _)) fun _ =>
    keeps_bind h.trans (keeps_only_if h.refl (keeps_raise h.refl _ _)) fun _ =>
    keeps_bind h.trans ?_ fun table => keeps_bind h.trans ?_ fun _ =>
    keeps_bind h.trans (keeps_choose_script h _ _ _) fun script =>
    keeps_bind h.trans (fun s => hwrite s table script) fun _ => hflag
  · simp only [after, guardUnconfigured]
    split <;> rename_i h2 <;> split at h2 <;> cases h2 <;> exact h.refl s
  · unfold chooseTable
    split
    · intro s
      simp only [after, presetTable]
      split <;> rename_i h2 <;> split at h2 <;> cases h2 <;> exact h.refl s
    · exact keeps_pure h.refl _
  · unfold checkTable
    split
    · exact keeps_raise h.refl _ _
    · exact keeps_pure h.refl _

/-- The body of `MAPBITS`: one write of memory, after every test, and the result. -/
theorem keeps_mapbits_body {R : State → State → Prop} (h : Composes R) (src srclen dst dstcap width : Nat) (fg bg : Word)
    (hmem : ∀ (s : State) (v : List Byte), dst + v.length ≤ s.params.bmemSize →
      R s { s with bmem := writeBytes s.bmem dst v })
    (hres : ∀ (s : State) (r : Results), R s { s with results := r }) :
    Keeps R (mapbitsBody src srclen dst dstcap width fg bg) := by
  refine keeps_bind h.trans (keeps_only_if h.refl (keeps_raise h.refl _ _)) fun _ =>
    keeps_bind h.trans (keeps_check_range h _ _) fun _ => keeps_bind h.trans (keeps_check_range h _ _) fun _ =>
    keeps_bind h.trans (keeps_mem_read h _ _) fun _ =>
    keeps_bind h.trans (keeps_only_if h.refl (keeps_raise h.refl _ _)) fun _ =>
    keeps_bind h.trans (fun s => ?_) fun _ => fun s => hres s _
  generalize expand _ width fg bg = v
  by_cases hm : dst + v.length > s.params.bmemSize
  · rw [after_error (by rw [mem_write_apply, if_pos hm])]; exact h.refl s
  · rw [after_ok (by rw [mem_write_apply, if_neg hm])]; exact hmem s v (by omega)

/-! ## Whole operations -/

/-- A guarded operation: what the guards and the body keep, the operation keeps up to `pc` and the fault fields. -/
theorem perform_frame {R : State → State → Prop} {len : Nat} {op : Op Unit} (h : Keeps R op) {s t : State}
    (ht : perform len op s = .next t) :
    ∃ u, R s u ∧ (t = completed u len ∨ ∃ e : Raised, t = enterFault e.cause e.info u) := by
  have hs := h s
  rcases perform_cases len op s with ⟨u, h1, h2⟩ | ⟨e, u, h1, h2⟩
  · rw [after_ok h1] at hs
    rw [h2] at ht
    cases ht
    exact ⟨u, hs, .inl rfl⟩
  · rw [after_error h1] at hs
    rw [h2] at ht
    cases ht
    exact ⟨u, hs, .inr ⟨e, rfl⟩⟩

theorem keeps_guarded {R : State → State → Prop} (h : Composes R) {op : Op Unit} (ho : Keeps R op) :
    Keeps R (guardConfigured >>= fun _ => op) :=
  keeps_bind h.trans (keeps_guard_configured h.refl) fun _ => ho

theorem keeps_guarded_geom {R : State → State → Prop} (h : Composes R) {op : Op Unit} (ho : Keeps R op) :
    Keeps R (guardConfigured >>= fun _ => needGeom >>= fun _ => op) :=
  keeps_guarded h (keeps_bind h.trans (keeps_need_geom h.refl) fun _ => ho)

/-- An instruction whose configuration guard fails. -/
theorem perform_unconfigured {s : State} (h : s.configured = false) (len : Nat) (op : Op Unit) :
    perform len (guardConfigured >>= fun _ => op) s = .next (enterFault .notConfigured 0 s) :=
  perform_error (e := ⟨.notConfigured, 0⟩)
    (bind_error (by rw [guard_configured_apply, if_neg (by simp [h])]) _)

/-! ## The built-in tables -/

/-- EVERYTHING the lookup of a built-in table can answer (44_orientation_dirtybox.md R181). -/
theorem find_preset_eq_some_iff (presets : List Preset) (dw dh : Word) (table : List RotRec) :
    findPreset presets dw dh = some table ↔ IsBuiltIn presets dw dh table := by
  induction presets with
  | nil => simp [findPreset, IsBuiltIn]
  | cons p ps ih =>
    by_cases h : p.displayWidth = dw ∧ p.displayHeight = dh
    · rw [findPreset, if_pos h]
      constructor
      · rintro ⟨⟩
        exact ⟨[], p, ps, rfl, h.1, h.2, rfl, by simp⟩
      · rintro ⟨_ | ⟨q, before⟩, entry, later, he, -, -, rfl, hb⟩
        · cases he; rfl
        · cases he; exact absurd h (hb _ (by simp))
    · rw [findPreset, if_neg h, ih]
      constructor
      · rintro ⟨before, entry, later, rfl, h1, h2, h3, hb⟩
        exact ⟨p :: before, entry, later, rfl, h1, h2, h3, List.forall_mem_cons.2 ⟨h, hb⟩⟩
      · rintro ⟨_ | ⟨q, before⟩, entry, later, he, h1, h2, h3, hb⟩
        · cases he; exact absurd ⟨h1, h2⟩ h
        · cases he; exact ⟨before, entry, later, rfl, h1, h2, h3, fun q hq => hb q (by simp [hq])⟩

end Sys2Proof.Laws
end

