-- ==== Sys2Proof/Laws/Observer.lean ====
section
/-! SUPPORT. What the wire and the observer do with the events of one shared operation, said once: a list of events carries
a fixed wire (`Carries`) wherever it stands in a trace, a wire composes, and a pixel phase is a list of deposits. -/

namespace Sys2Proof.Laws

open Sys2Proof.Machine Sys2Proof.Safety

/-! ## The wire of a longer trace -/

/-- The level of DC after a list of events. -/
def levelAfter (dc : Option Bool) : List Event → Option Bool
  | [] => dc
  | .pin .dc l :: t => levelAfter (some l) t
  | .pin .cs _ :: t => levelAfter dc t
  | .pin .rst _ :: t => levelAfter dc t
  | .pin .bl _ :: t => levelAfter dc t
  | .delay _ :: t => levelAfter dc t
  | .spi _ :: t => levelAfter dc t
  | .spiFail _ :: t => levelAfter dc t

theorem wire_from_append (delivered : Nat → Nat) (dc : Option Bool) (k : Nat) (a b : List Event) :
    wireFrom delivered dc k (a ++ b) =
      wireFrom delivered dc k a ++ wireFrom delivered (levelAfter dc a) (k + transferCount a) b := by
  induction a generalizing dc k with
  | nil => rfl
  | cons e a ih =>
    cases e with
    | pin p l =>
      cases p <;> simp only [List.cons_append, wireFrom, levelAfter, ih] <;> rfl
    | delay n => simp only [List.cons_append, wireFrom, levelAfter, ih]; rfl
    | spi bytes =>
      have e : transferCount (.spi bytes :: a) = transferCount a + 1 := List.countP_cons_of_pos rfl
      simp only [List.cons_append, wireFrom, levelAfter, ih, e, List.append_assoc, Nat.add_assoc, Nat.add_comm 1]
    | spiFail bytes =>
      have e : transferCount (.spiFail bytes :: a) = transferCount a + 1 := List.countP_cons_of_pos rfl
      simp only [List.cons_append, wireFrom, levelAfter, ih, e, List.append_assoc, Nat.add_assoc, Nat.add_comm 1]

/-- The wire between two states is that of the events between them. -/
theorem wire_between_eq (delivered : Nat → Nat) {s t : State} {es : List Event} (h : t.trace = s.trace ++ es) :
    wireBetween delivered s t =
      wireFrom delivered (levelAfter none s.trace) (0 + transferCount s.trace) es := by
  rw [wireBetween, h, wire, wire, wire_from_append, List.drop_left]

/-! ## Events with a fixed wire -/

/-- Whatever the level of DC and the number of transfers before them, the events put exactly this on the wire. -/
def Carries (es : List Event) (ws : List (Option Bool × Byte)) : Prop :=
  ∀ (delivered : Nat → Nat) (dc : Option Bool) (k : Nat), wireFrom delivered dc k es = ws

theorem carries_nil : Carries [] [] := fun _ _ _ => rfl

theorem carries_append {a b : List Event} {v w : List (Option Bool × Byte)} (ha : Carries a v) (hb : Carries b w) :
    Carries (a ++ b) (v ++ w) := fun delivered dc k => by
  rw [wire_from_append, ha, hb]

theorem carries_delay (n : Nat) : Carries [.delay n] [] := fun _ _ _ => rfl

/-- A pin write other than DC's carries nothing. -/
theorem carries_pin_events (d : Display) {p : Pin} (hp : p ≠ .dc) (level : Bool) : Carries (pinEvents d p level) [] := by
  intro delivered dc k
  unfold pinEvents
  split
  · cases p with
    | dc => exact absurd rfl hp
    | cs => rfl
    | rst => rfl
    | bl => rfl
  · rfl

/-- Transfers after a level of DC. -/
theorem carries_transfers (level : Bool) (chunks : List (List Byte)) :
    Carries (Event.pin .dc level :: chunks.map Event.spi) (chunks.flatten.map fun b => (some level, b)) := by
  intro delivered dc k
  simp only [wireFrom]
  induction chunks generalizing k with
  | nil => rfl
  | cons c cs ih => simp [wireFrom, ih]

/-- A command with its data (40_command_window_fill.md R120). -/
theorem carries_command (d : Display) (cmd : Byte) (data : List Byte) :
    Carries (commandEvents d cmd data)
      ((if cmd = 0 then [] else [(some false, cmd)]) ++ data.map fun b => (some true, b)) := by
  have h1 : Carries (if cmd = 0 then [] else [Event.pin .dc false, Event.spi [cmd]])
      (if cmd = 0 then [] else [(some false, cmd)]) := by
    split
    · exact carries_nil
    · exact carries_transfers false [[cmd]]
  have h2 : Carries (if data = [] then [] else [Event.pin .dc true, Event.spi data]) (data.map fun b => (some true, b)) := by
    split
    · rename_i h; rw [h]; exact carries_nil
    · simpa using carries_transfers true [data]
  simpa [commandEvents] using carries_append (carries_append (carries_append
    (carries_pin_events d (p := .cs) (by decide) false) h1) h2) (carries_pin_events d (p := .cs) (by decide) true)

/-- A pixel phase (40_command_window_fill.md R121). -/
theorem carries_pixels (d : Display) (chunks : List (List Byte)) :
    Carries (pixelEvents d chunks) (chunks.flatten.map fun b => (some true, b)) := by
  have e : (chunks.filter (· ≠ [])).flatten = chunks.flatten := by
    induction chunks with
    | nil => rfl
    | cons c cs ih => by_cases h : c = [] <;> simp [h] at * <;> exact ih
  have h := carries_append (carries_append (carries_pin_events d (p := .cs) (by decide) false)
    (carries_transfers true (chunks.filter (· ≠ [])))) (carries_pin_events d (p := .cs) (by decide) true)
  rw [e] at h
  simpa [pixelEvents] using h

/-- A programmed window (40_command_window_fill.md R123). -/
theorem carries_window {d : Display} {c r : Word} (hc : d.colstart = some c) (hr : d.rowstart = some r)
    (x0 y0 x1 y1 : Nat) :
    Carries (windowEvents d x0 y0 x1 y1)
      ((some false, 0x2A) :: (be16 (x0 + c.toNat) ++ be16 (x1 + c.toNat)).map (fun b => (some true, b)) ++
        ((some false, 0x2B) :: (be16 (y0 + r.toNat) ++ be16 (y1 + r.toNat)).map (fun b => (some true, b))) ++
        [(some false, 0x2C)]) := by
  simp only [windowEvents, hc, hr]
  exact carries_append (carries_append (carries_command d 0x2A _) (carries_command d 0x2B _))
    (carries_command d 0x2C [])

/-! ## The observer on a wire -/

theorem observer_run_append (o : Observer) (a b : List (Option Bool × Byte)) : o.run (a ++ b) = (o.run a).run b :=
  List.foldl_append

/-- The two bytes of a coordinate that fits in 16 bits give it back. -/
theorem join_be16 {v : Nat} (h : v < 65536) : (joinBytes (hiByte v) (loByte v)).toNat = v := by
  simp only [joinBytes, hiByte, loByte, BitVec.toNat_append, BitVec.toNat_ofNat, Nat.shiftRight_eq_div_pow]
  rw [← Nat.shiftLeft_add_eq_or_of_lt (Nat.mod_lt _ (by decide)), Nat.shiftLeft_eq]
  omega

/-- The two bytes of a pixel give its colour back. -/
theorem join_pixel (color : Word) : joinBytes (hiByte color.toNat) (loByte color.toNat) = color :=
  BitVec.eq_of_toNat_eq (join_be16 color.isLt)

/-- The observer after a programmed window: the window, the pointer at its first corner, ready for pixels. -/
theorem observer_window (o : Observer) {a b c d : Nat} (ha : a < 65536) (hb : b < 65536) (hc : c < 65536)
    (hd : d < 65536) :
    o.run ((some false, 0x2A) :: (be16 a ++ be16 b).map (fun v => (some true, v)) ++
      ((some false, 0x2B) :: (be16 c ++ be16 d).map (fun v => (some true, v))) ++ [(some false, 0x2C)]) =
      { xs := a, xe := b, ys := c, ye := d, cx := a, cy := c, cmd := some cmdRAMWR, buf := [], fb := o.fb } := by
  simp [Observer.run, Observer.byte, Observer.command, Observer.data, be16, cmdCASET, cmdRASET, cmdRAMWR,
    join_be16 ha, join_be16 hb, join_be16 hc, join_be16 hd]

/-- One deposit at the write pointer. -/
def putPixel (color : Word) (o : Observer) : Observer := Observer.advance { o with fb := ((o.cx, o.cy), color) :: o.fb }

/-- A deposit moves nothing but the pointer and `FB`. -/
theorem put_pixel_frame (color : Word) (o : Observer) :
    (putPixel color o).xs = o.xs ∧ (putPixel color o).xe = o.xe ∧ (putPixel color o).ys = o.ys ∧
    (putPixel color o).ye = o.ye ∧ (putPixel color o).cmd = o.cmd ∧ (putPixel color o).buf = o.buf ∧
    (putPixel color o).fb = ((o.cx, o.cy), color) :: o.fb := by
  unfold putPixel Observer.advance
  split <;> exact ⟨rfl, rfl, rfl, rfl, rfl, rfl, rfl⟩

/-- An observer waiting for pixels makes one deposit for each pixel it is sent. -/
theorem observer_pixels (color : Word) (n : Nat) (o : Observer) (hc : o.cmd = some cmdRAMWR) (hb : o.buf = []) :
    o.run ((repeatPixel color n).map fun b => (some true, b)) = (putPixel color)^[n] o := by
  induction n generalizing o with
  | zero => rfl
  | succ n ih =>
    obtain ⟨-, -, -, -, h5, h6, -⟩ := put_pixel_frame color o
    have e : Observer.run o ((pixelBytes color).map fun b => (some true, b)) = putPixel color o := by
      simp [pixelBytes, be16, Observer.run, Observer.byte, Observer.data, hc, hb, cmdCASET, cmdRASET, cmdRAMWR,
        putPixel, join_pixel]
    rw [repeatPixel, List.replicate_succ, List.flatten_cons, List.map_append, observer_run_append, e,
      Function.iterate_succ_apply]
    exact ih _ (by rw [h5, hc]) (by rw [h6, hb])

end Sys2Proof.Laws
end

