-- ==== Sys2Proof/Machine/Assembly.lean ====
section
/-! DEFINITION. The assembler's text of an operation (30_encoding.md R100) and the document's call spellings (R101). Both
only name descriptors; the sequencer does not read them. -/

namespace Sys2Proof.Machine

/-! ## Text (R100) -/

/-- The mnemonic of an opcode (30_encoding.md R96). -/
def mnemonic : Opcode → String
  | .writeCmd => "WRITE_CMD" | .setWindow => "SET_WINDOW" | .fillBuf => "FILL_BUF"
  | .pixel => "PIXEL" | .hline => "HLINE" | .vline => "VLINE" | .rect => "RECT" | .fillRect => "FILL_RECT"
  | .fill => "FILL" | .line => "LINE" | .blit => "BLIT" | .mapbits => "MAPBITS"
  | .rotation => "ROTATION" | .offset => "OFFSET" | .madctlGet => "MADCTL_GET" | .madctlSet => "MADCTL_SET"
  | .boundingGet => "BOUNDING_GET" | .boundingSet => "BOUNDING_SET"
  | .config => "CONFIG" | .init => "INIT" | .hardReset => "HARD_RESET" | .softReset => "SOFT_RESET"
  | .sleepMode => "SLEEP_MODE" | .inversionMode => "INVERSION_MODE" | .on => "ON" | .off => "OFF"
  | .vscrdef => "VSCRDEF" | .vscsad => "VSCSAD" | .color565 => "COLOR565"

/-- A flag, `name=value`. -/
def textFlag (name : String) (b : Bool) : String := name ++ (if b then "=1" else "=0")

/-- A signed operand. -/
def textS (w : Word) : String := toString (sext16 w)

/-- An unsigned operand. -/
def textU {n : Nat} (w : BitVec n) : String := toString w.toNat

/-- A rotation record, five numbers. -/
def textRecord (r : RotRec) : String :=
  "(" ++ ", ".intercalate [textU r.madctl, textU r.width, textU r.height, textU r.colstart, textU r.rowstart] ++ ")"

/-- The operand texts in the order the assembler writes them: `f` immediates and flags first, then the operands in
descriptor order; the table of `CONFIG` stands for `nrec`, and the script's address and length are written only with
`ci=1`. DESIGN CHOICE: a `CONFIG` with `nrec` above 255, which has no records, is written with `[]`, as one with `nrec = 0`
is, so that its text does not name its `nrec` (log entry 18). -/
def operandTexts : Instr → List String
  | .writeCmd cmd addr len => [textU cmd, textU addr, textU len]
  | .setWindow x0 y0 x1 y1 => [textS x0, textS y0, textS x1, textS y1]
  | .fillBuf color n => [textU color, textU n]
  | .pixel x y color => [textS x, textS y, textU color]
  | .hline x y w color => [textS x, textS y, textS w, textU color]
  | .vline x y h color => [textS x, textS y, textS h, textU color]
  | .rect x y w h color => [textS x, textS y, textS w, textS h, textU color]
  | .fillRect x y w h color => [textS x, textS y, textS w, textS h, textU color]
  | .fill color => [textU color]
  | .line x0 y0 x1 y1 color => [textS x0, textS y0, textS x1, textS y1, textU color]
  | .blit addr len x y w h => [textU addr, textU len, textS x, textS y, textS w, textS h]
  | .mapbits src srclen dst dstcap width fg bg =>
    [textU src, textU srclen, textU dst, textU dstcap, textU width, textU fg, textU bg]
  | .rotation value => [textU value]
  | .offset col row => [textU col, textU row]
  | .madctlGet => []
  | .madctlSet value => [textU value]
  | .boundingGet asSize => [textFlag "as_size" asSize]
  | .boundingSet asSize enable => [textFlag "as_size" asSize, textFlag "enable" enable]
  | .config f dw dh rotation options _ ciAddr ciLen table =>
    [textFlag "cs" f.cs, textFlag "rst" f.rst, textFlag "bl" f.bl, textFlag "dc" f.dc, textFlag "bgr" f.bgr,
      textFlag "inv" f.inv, textFlag "ci" f.ci, textU dw, textU dh, textU rotation, textU options] ++
      (if f.ci then [textU ciAddr, textU ciLen] else []) ++
      ["[" ++ ", ".intercalate (table.map textRecord) ++ "]"]
  | .init => []
  | .hardReset => []
  | .softReset => []
  | .sleepMode asleep => [textFlag "on" asleep]
  | .inversionMode inverted => [textFlag "on" inverted]
  | .on => []
  | .off => []
  | .vscrdef tfa vsa bfa => [textU tfa, textU vsa, textU bfa]
  | .vscsad vssa => [textU vssa]
  | .color565 r g b => [textU r, textU g, textU b]

/-- One line of assembler text: the mnemonic, then the operands separated by commas (30_encoding.md R100). -/
def assemblyText (i : Instr) : String :=
  match operandTexts i with
  | [] => mnemonic i.opcode
  | texts => mnemonic i.opcode ++ " " ++ ", ".intercalate texts

/-! ## The document's calls (R101) -/

/-- The document's API spellings; a byte buffer is its address and length in `BMEM` (R101). -/
inductive ApiCall where
  | pixel (x y c : Word)
  | hline (x y w c : Word)
  | vline (x y h c : Word)
  | rect (x y w h c : Word)
  | fillRect (x y w h c : Word)
  | fill (c : Word)
  | line (x0 y0 x1 y1 c : Word)
  | blitBuffer (addr len : DWord) (x y w h : Word)
  | mapBitarrayToRgb565 (src srclen dst dstcap : DWord) (width fg bg : Word)
  | rotation (r : Byte)
  /-- `bounding()` and `bounding(as_size=…)` with no enable argument -/
  | boundingRead (asSize : Bool)
  /-- `bounding(e)` and `bounding(e, s)` -/
  | bounding (enable asSize : Bool)
  /-- `madctl()` -/
  | madctlRead
  /-- `madctl(v)` -/
  | madctl (v : Word)
  | sleepMode (asleep : Bool)
  | inversionMode (inverted : Bool)
deriving DecidableEq, Repr

/-- The single descriptor a call stands for (30_encoding.md R101). -/
def ApiCall.toInstr : ApiCall → Instr
  | .pixel x y c => .pixel x y c
  | .hline x y w c => .hline x y w c
  | .vline x y h c => .vline x y h c
  | .rect x y w h c => .rect x y w h c
  | .fillRect x y w h c => .fillRect x y w h c
  | .fill c => .fill c
  | .line x0 y0 x1 y1 c => .line x0 y0 x1 y1 c
  | .blitBuffer addr len x y w h => .blit addr len x y w h
  | .mapBitarrayToRgb565 src srclen dst dstcap width fg bg => .mapbits src srclen dst dstcap width fg bg
  | .rotation r => .rotation r
  | .boundingRead asSize => .boundingGet asSize
  | .bounding enable asSize => .boundingSet asSize enable
  | .madctlRead => .madctlGet
  | .madctl v => .madctlSet v
  | .sleepMode asleep => .sleepMode asleep
  | .inversionMode inverted => .inversionMode inverted

end Sys2Proof.Machine
end

