-- ==== Sys2Proof/Tests/Slice0.lean ====
section
/-! SUPPORT. Tests, each on fixed values: ill-formed terms refused, a word of every instruction written out from
30_encoding.md R96 and R99, one or two steps of every instruction, and a witness for the hypotheses of every statement.
Expected events, results and faults are those of spec/95_test_vectors.md, by the vector named in each docstring. -/

namespace Sys2Proof.Tests

open Sys2Proof.Machine Sys2Proof.Safety

-- one theorem after another: many kernel evaluations at once need more threads than a limited machine gives
set_option Elab.async false

/-! ## WellFormed: an ill-formed term for each check -/

theorem test_table_length_mismatch_refused :
    (Instr.config ⟨true, true, true, true, false, false, false⟩ 8 4 0 0 2 0 0 [⟨0, 8, 4, 0, 0⟩]).wellFormed = false := by
  decide

theorem test_table_above_255_refused :
    (Instr.config ⟨true, true, true, true, false, false, false⟩ 8 4 0 0 256 0 0 [⟨0, 8, 4, 0, 0⟩]).wellFormed = false := by
  decide

/-! ## Decoding: words from the spec's encodings -/

theorem test_decode_write_cmd : decode [0x103A, 0x0000, 0x0040, 0x0000, 0x0001] = .ok (.writeCmd 0x3A 64 1) [] := by decide
theorem test_decode_set_window : decode [0x1100, 3, 4, 7, 9] = .ok (.setWindow 3 4 7 9) [] := by decide
theorem test_decode_fill_buf : decode [0x1200, 0xF800, 0x0001, 0x0000] = .ok (.fillBuf 0xF800 65536) [] := by decide
theorem test_decode_pixel : decode [0x2000, 0xFF0F, 5, 0x1234] = .ok (.pixel 0xFF0F 5 0x1234) [] := by decide
theorem test_decode_hline : decode [0x2100, 0xFFFB, 10, 20, 0xFFFF] = .ok (.hline 0xFFFB 10 20 0xFFFF) [] := by decide
theorem test_decode_vline : decode [0x2200, 3, 0xFFFE, 5, 0xFFFF] = .ok (.vline 3 0xFFFE 5 0xFFFF) [] := by decide
theorem test_decode_rect : decode [0x2300, 1, 2, 3, 4, 0xF800] = .ok (.rect 1 2 3 4 0xF800) [] := by decide
theorem test_decode_fill_rect : decode [0x2400, 1, 2, 3, 4, 0x07E0] = .ok (.fillRect 1 2 3 4 0x07E0) [] := by decide
theorem test_decode_fill : decode [0x2500, 0x1234, 0x4600] = .ok (.fill 0x1234) [0x4600] := by decide
theorem test_decode_line : decode [0x2600, 1, 2, 3, 4, 5] = .ok (.line 1 2 3 4 5) [] := by decide
theorem test_decode_blit :
    decode [0x2700, 1, 2, 3, 4, 5, 6, 7, 8] = .ok (.blit 0x00010002 0x00030004 5 6 7 8) [] := by decide
theorem test_decode_mapbits : decode [0x2800, 0, 16, 0, 1, 0, 32, 0, 6, 3, 0xFFFF, 0] =
    .ok (.mapbits 16 1 32 6 3 0xFFFF 0) [] := by decide
theorem test_decode_rotation : decode [0x30FF] = .ok (.rotation 255) [] := by decide
theorem test_decode_offset : decode [0x3100, 0x0034, 0x0028] = .ok (.offset 52 40) [] := by decide
theorem test_decode_madctl_get : decode [0x3200] = .ok .madctlGet [] := by decide
theorem test_decode_madctl_set : decode [0x3300, 0x01C8] = .ok (.madctlSet 0x01C8) [] := by decide
theorem test_decode_bounding_get : decode [0x3401] = .ok (.boundingGet true) [] := by decide
theorem test_decode_bounding_set : decode [0x3502] = .ok (.boundingSet false true) [] := by decide
theorem test_decode_config : decode [0x4061, 8, 4, 5, 3, 1, 0, 64, 0, 12, 0xC0, 8, 4, 1, 2] =
    .ok (.config ⟨true, false, false, false, false, true, true⟩ 8 4 5 3 1 64 12 [⟨0xC0, 8, 4, 1, 2⟩]) [] := by decide
theorem test_decode_config_long_table : decode [0x4008, 8, 4, 0, 0, 256, 0, 0, 0, 0, 7] =
    .ok (.config ⟨false, false, false, true, false, false, false⟩ 8 4 0 0 256 0 0 []) [7] := by decide
theorem test_decode_init : decode [0x4100] = .ok .init [] := by decide
theorem test_decode_hard_reset : decode [0x4200] = .ok .hardReset [] := by decide
theorem test_decode_soft_reset : decode [0x4300] = .ok .softReset [] := by decide
theorem test_decode_sleep_mode : decode [0x4401] = .ok (.sleepMode true) [] := by decide
theorem test_decode_inversion_mode : decode [0x4501] = .ok (.inversionMode true) [] := by decide
theorem test_decode_on : decode [0x4600] = .ok .on [] := by decide
theorem test_decode_off : decode [0x4700] = .ok .off [] := by decide
theorem test_decode_vscrdef : decode [0x4800, 0x1234, 0x5678, 0x9ABC] = .ok (.vscrdef 0x1234 0x5678 0x9ABC) [] := by decide
theorem test_decode_vscsad : decode [0x4900, 0x0102] = .ok (.vscsad 0x0102) [] := by decide
theorem test_decode_color565 : decode [0x5000, 0x12, 0x34, 0x56] = .ok (.color565 0x12 0x34 0x56) [] := by decide

/-- Headers that are no operation's, and headers with a reserved bit set (30_encoding.md R93, R97). -/
theorem test_illegal_headers :
    [0x0000, 0xFFFF, 0x1300, 0x2900, 0x3600, 0x4A00, 0x5100, 0x2001, 0x3402, 0x3504, 0x4080, 0x4402, 0x4180].all
      (fun h => decode [h, 0, 0, 0, 0, 0] == .illegal h) = true := by decide

theorem test_truncated_line : decode [0x2600, 1, 2, 3, 4] = .truncated := by decide
theorem test_truncated_config_table : decode [0x4008, 8, 4, 0, 0, 1, 0, 0, 0, 0, 0, 8, 4, 0] = .truncated := by decide

/-- The table's bits, numbered from the first word, give the instruction; operand bits above `nbits` are 0. -/
theorem test_table_word_fill : decodeTableWord 32 0x12342500 = some (.fill 0x1234) := by decide
theorem test_table_word_line_header : decodeTableWord 16 0x2600 = some (.line 0 0 0 0 0) := by decide
theorem test_table_word_illegal : decodeTableWord 16 0x2601 = none := by decide

/-! ## Small states -/

/-- A 240 by 320 panel after `CONFIG` with a four-record table and `ROTATION 0`: 95_test_vectors.md's `STD`, with given
options, tracking flag and memory, and an empty trace. -/
def std (options : Byte) (tracking : Bool) (bmem : Memory) : State :=
  { State.reset with
    configured := true
    geomValid := true
    bmem := bmem
    display :=
      { displayWidth := some 240, displayHeight := some 320, width := some 240, height := some 320
        colstart := some 0, rowstart := some 0, rotation := some 0, rotationsLen := some 4, colorOrder := some 0
        madctl := some 0, inversion := some false, options := some options, bounding := some tracking
        minX := some 240, minY := some 320, maxX := some 0, maxY := some 0
        csPresent := some true, rstPresent := some true, blPresent := some true
        rot := some [⟨0, 240, 320, 0, 0⟩, ⟨0x60, 320, 240, 0, 0⟩, ⟨0xC0, 240, 320, 0, 0⟩, ⟨0xA0, 320, 240, 0, 0⟩]
        cinit := some .absent } }

/-- The flags of a `CONFIG` with every pin, RGB order, no inversion and no script. -/
def allPins : ConfigFlags := ⟨true, true, true, true, false, false, false⟩

/-- An 8 by 4 panel right after `CONFIG` (95_test_vectors.md's `cfg`). -/
def cfg : State :=
  match exec (.config allPins 8 4 0 0 1 0 0 [⟨0, 8, 4, 0, 0⟩]) State.reset with
  | .next t => t
  | _ => State.reset

/-- The same panel after `ROTATION 0`, with tracking on or off, and an empty trace. -/
def cfgGeom (tracking : Bool) : State :=
  { cfg with
    geomValid := true
    display := { rotated cfg.display 0 ⟨0, 8, 4, 0, 0⟩ with bounding := some tracking } }

/-- What a step leaves, or nothing when there is none. -/
def left (o : Host.Outcome State Fault Refusal) : Option State :=
  match o with
  | .next t => some t
  | .fault _ => none
  | .refused _ => none

/-- The trace an instruction leaves. -/
def traceOf (i : Instr) (s : State) : Option (List Event) := (left (exec i s)).map State.trace

/-- The fault fields and `pc` an instruction leaves. -/
def faultOf (i : Instr) (s : State) : Option (Bool × Byte × DWord × Nat) :=
  (left (exec i s)).map fun t => (t.fault, t.cause, t.info, t.pc)

/-- The results an instruction leaves. -/
def resultsOf (i : Instr) (s : State) : Option Results := (left (exec i s)).map State.results

/-- A command with all pins connected (95_test_vectors.md's `CMD`). -/
def cmdE (c : Byte) (data : List Byte) : List Event :=
  [Event.pin .cs false, Event.pin .dc false, Event.spi [c]] ++
    (if data.isEmpty then [] else [Event.pin .dc true, Event.spi data]) ++ [Event.pin .cs true]

/-- A window, by its column and row bytes (95_test_vectors.md's `WIN`). -/
def winE (columns rows : List Byte) : List Event := cmdE 0x2A columns ++ cmdE 0x2B rows ++ cmdE 0x2C []

/-- A pixel phase (95_test_vectors.md's `PIX`). -/
def pixE (chunks : List (List Byte)) : List Event :=
  [Event.pin .cs false, Event.pin .dc true] ++ chunks.map Event.spi ++ [Event.pin .cs true]

/-! ## One step of every instruction -/

/-- T40.13 -/
theorem test_write_cmd : traceOf (.writeCmd 0x3A 0x40 1) (std 0 false [(0x40, 0x55)]) = some (cmdE 0x3A [0x55]) := by decide +kernel
/-- T40.19 -/
theorem test_write_cmd_range : faultOf (.writeCmd 0x2A 0xFE 4) cfg = some (true, 8, 254, 15) := by decide +kernel

/-- T40.6 -/
theorem test_set_window : traceOf (.setWindow 3 4 7 9) (std 0 true []) = some (winE [0, 3, 0, 7] [0, 4, 0, 9]) := by decide +kernel
/-- T40.3 -/
theorem test_set_window_dropped : traceOf (.setWindow 0 0 240 319) (std 0 false []) = some [] := by decide +kernel

/-- T40.11 -/
theorem test_fill_buf_none : traceOf (.fillBuf 0xFFFF 0) cfg = some (pixE []) := by decide +kernel
/-- T40.7 -/
theorem test_fill_buf_remainder : (fillChunks 0x07E0 130).map List.length = [256, 4] := by decide +kernel

/-- T41.6 -/
theorem test_pixel_wrap : traceOf (.pixel 240 5 0x1234) (std 1 false []) =
    some (winE [0, 0, 0, 0] [0, 5, 0, 5] ++ pixE [[0x12, 0x34]]) := by decide +kernel
/-- T41.4 -/
theorem test_pixel_dropped : traceOf (.pixel 0xFFFF 0xFFFF 0xFFFF) (std 0 false []) = some [] := by decide +kernel

/-- T41.16, its neighbour one pixel longer -/
theorem test_hline_clip : traceOf (.hline 0xFFF6 5 11 0xFFFF) (std 0 false []) =
    some (winE [0, 0, 0, 0] [0, 5, 0, 5] ++ pixE [[0xFF, 0xFF]]) := by decide +kernel
/-- T41.20 -/
theorem test_hline_fallback : traceOf (.hline 238 5 4 0xABCD) (std 2 false []) =
    some (winE [0, 238, 0, 238] [0, 5, 0, 5] ++ pixE [[0xAB, 0xCD]] ++
      (winE [0, 239, 0, 239] [0, 5, 0, 5] ++ pixE [[0xAB, 0xCD]])) := by decide +kernel

/-- T41.21 -/
theorem test_vline_clip : traceOf (.vline 3 318 5 0xFFFF) (std 0 false []) =
    some (winE [0, 3, 0, 3] [0x01, 0x3E, 0x01, 0x3F] ++ pixE [[0xFF, 0xFF, 0xFF, 0xFF]]) := by decide +kernel
/-- T41.23 -/
theorem test_vline_dropped : traceOf (.vline 0xFFFF 0 5 0xFFFF) (std 0 false []) = some [] := by decide +kernel

/-- T41.27 -/
theorem test_rect_partly_visible : traceOf (.rect 0xFFFF 0xFFFF 4 4 0xFFFF) (std 0 false []) =
    some (winE [0, 0, 0, 2] [0, 2, 0, 2] ++ pixE [[0xFF, 0xFF, 0xFF, 0xFF, 0xFF, 0xFF]] ++
      (winE [0, 2, 0, 2] [0, 0, 0, 2] ++ pixE [[0xFF, 0xFF, 0xFF, 0xFF, 0xFF, 0xFF]])) := by decide +kernel

/-- T41.31 -/
theorem test_fill_rect_last_column : traceOf (.fillRect 238 318 2 2 0x07E0) (std 0 false []) =
    some (winE [0, 0xEE, 0, 0xEF] [0x01, 0x3E, 0x01, 0x3F] ++
      pixE [[0x07, 0xE0, 0x07, 0xE0, 0x07, 0xE0, 0x07, 0xE0]]) := by decide +kernel
/-- T41.32 -/
theorem test_fill_rect_dropped : traceOf (.fillRect 238 0 3 1 0x07E0) (std 0 false []) = some [] := by decide +kernel

/-- 41_primitives.md R148 on a 1 by 1 area -/
theorem test_fill : traceOf (.fill 0x1234)
    { cfgGeom false with display := { (cfgGeom false).display with width := some 1, height := some 1 } } =
      some (winE [0, 0, 0, 0] [0, 0, 0, 0] ++ pixE [[0x12, 0x34]]) := by decide +kernel

/-- T42.10 -/
theorem test_line_tie : (orientLine 0 0 2 1).runs = [⟨0, 0, 2⟩, ⟨2, 1, 1⟩] := by decide +kernel
/-- T42.17 -/
theorem test_line_clipped : traceOf (.line 0xFFFE 1 3 0xFFFF 0xF800) (std 0 false []) =
    some (winE [0, 0, 0, 1] [0, 0, 0, 0] ++ pixE [[0xF8, 0, 0xF8, 0]]) := by decide +kernel

/-- T43.4 -/
theorem test_blit_short : traceOf (.blit 100 3 4 5 2 2) (std 0 false [(100, 1), (101, 2), (102, 3)]) =
    some (winE [0, 4, 0, 5] [0, 5, 0, 6] ++ pixE [[1, 2, 3]]) := by decide +kernel
/-- T43.6 -/
theorem test_blit_dropped : traceOf (.blit 100 8 239 5 2 2) (std 0 false []) = some [] := by decide +kernel

/-- T43.12 -/
theorem test_mapbits : (left (exec (.mapbits 16 1 32 6 3 0xFFFF 0) { State.reset with bmem := [(16, 0xA0)] })).map
    (fun t => (readBytes t.bmem 32 7, t.results.r0)) = some ([0xFF, 0xFF, 0, 0, 0xFF, 0xFF, 0], some 3) := by decide +kernel
/-- T43.22 -/
theorem test_mapbits_order : faultOf (.mapbits 255 2 32 32 0 1 2) State.reset = some (true, 10, 0, 0) := by decide +kernel

/-- T44.2 -/
theorem test_rotation : (left (exec (.rotation 1) (std 0 false []))).map
    (fun t => (t.trace, t.display.width, t.display.minX, t.display.madctl)) =
      some (cmdE 0x36 [0x60], some 320, some 320, some 0x60) := by decide +kernel
/-- T44.9, with a one-record table -/
theorem test_rotation_range : (left (exec (.rotation 2) cfg)).map
    (fun t => (t.fault, t.cause, t.info, t.display.rotation)) = some (true, 7, 2, some 2) := by decide +kernel

/-- T44.15 -/
theorem test_offset : (left (exec (.offset 1 2) cfg)).map
    (fun t => (t.display.colstart, t.display.rowstart, t.geomValid, t.pc)) =
      some (some 1, some 2, false, 18) := by decide +kernel

/-- T44.7 -/
theorem test_madctl_get_unset : faultOf .madctlGet cfg = some (true, 3, 9, 15) := by decide +kernel
/-- T44.17 -/
theorem test_madctl_set : (left (exec (.madctlSet 0x01C8) cfg)).map (fun t => (t.trace, t.results.r0)) =
    some (cmdE 0x36 [0xC8], some 456) := by decide +kernel

/-- T44.21 -/
theorem test_bounding_get : resultsOf (.boundingGet true) (std 0 false []) =
    some ⟨some 240, some 320, some (BitVec.ofInt 32 (-239)), some (BitVec.ofInt 32 (-319))⟩ := by decide +kernel
/-- T44.22 -/
theorem test_bounding_set : (left (exec (.boundingSet false true) (std 0 false []))).map
    (fun t => (t.results.r0, t.display.bounding, t.display.minX)) = some (some 240, some true, some 240) := by decide +kernel

/-- T44.7: `rotation = 6` with four records -/
theorem test_config_rotation : (left (exec (.config allPins 8 4 6 0x0103 4 0 0
    [⟨0, 8, 4, 0, 0⟩, ⟨0, 4, 8, 0, 0⟩, ⟨0, 8, 4, 0, 0⟩, ⟨0, 4, 8, 0, 0⟩]) State.reset)).map
      (fun t => (t.display.rotation, t.display.options, t.pc)) = some (some 2, some 3, 30) := by decide +kernel
/-- 45_lifecycle.md R202: the example script -/
theorem test_config_script : parseEntries [1, 1, 0x11, 0, 0x78, 2, 0, 0x3A, 0x55, 1, 0, 0x29] 12 0 =
    .ok [⟨0x11, [], some 120⟩, ⟨0x3A, [0x55], none⟩, ⟨0x29, [], none⟩] := by rfl

/-- T45.20: an empty script replaces the default sequence -/
theorem test_init_empty_script :
    traceOf .init { cfg with display := { cfg.display with cinit := some (.script []) } } =
      some ([Event.pin .cs false, Event.pin .rst true, Event.delay 50, Event.pin .rst false, Event.delay 50,
        Event.pin .rst true, Event.delay 150, Event.pin .cs true] ++ cmdE 0x36 [0] ++ [Event.delay 10] ++
        winE [0, 0, 0, 7] [0, 0, 0, 3] ++ pixE [List.replicate 64 0] ++ [Event.pin .bl true]) := by decide +kernel

/-- T45.4 -/
theorem test_hard_reset_no_cs :
    traceOf .hardReset { cfg with display := { cfg.display with csPresent := some false } } =
      some [.pin .rst true, .delay 50, .pin .rst false, .delay 50, .pin .rst true, .delay 150] := by decide +kernel

/-- T45.5 -/
theorem test_soft_reset : traceOf .softReset cfg = some (cmdE 0x01 [] ++ [Event.delay 150]) := by decide +kernel
/-- 20_memory.md R64: the first transfer fails -/
theorem test_soft_reset_hal_error :
    (left (exec .softReset { cfg with params := { Params.atReset with halFail := [0] } })).map
      (fun t => (t.trace, t.cause, t.info)) =
        some ([.pin .cs false, .pin .dc false, .spiFail [0x01], .pin .cs true], 11, 0) := by decide +kernel

/-- T45.7 -/
theorem test_sleep_mode : traceOf (.sleepMode true) cfg = some (cmdE 0x10 []) := by decide +kernel
theorem test_sleep_mode_out : traceOf (.sleepMode false) cfg = some (cmdE 0x11 []) := by decide +kernel

/-- T45.8 -/
theorem test_inversion_mode : (left (exec (.inversionMode true) cfg)).map (fun t => (t.trace, t.display.inversion)) =
    some (cmdE 0x21 [], some true) := by decide +kernel

/-- 45_lifecycle.md R208: the flag is already updated when its command fails -/
theorem test_inversion_mode_hal_error :
    (left (exec (.inversionMode true) { cfg with params := { Params.atReset with halFail := [0] } })).map
      (fun t => (t.cause, t.display.inversion)) = some (11, some true) := by decide +kernel

/-- T45.10 -/
theorem test_on : traceOf .on cfg = some [.pin .bl true, .delay 10] := by decide +kernel
theorem test_off : traceOf .off cfg = some [.pin .bl false, .delay 10] := by decide +kernel

/-- T45.13 -/
theorem test_vscrdef : traceOf (.vscrdef 0x1234 0x5678 0x9ABC) cfg =
    some (cmdE 0x33 [0x12, 0x34, 0x56, 0x78, 0x9A, 0xBC]) := by decide +kernel
/-- T45.14 -/
theorem test_vscsad : traceOf (.vscsad 0x0102) cfg = some (cmdE 0x37 [1, 2]) := by decide +kernel

/-- 46_color.md R231's examples -/
theorem test_color565 : (resultsOf (.color565 0x12 0x34 0x56) State.reset).map Results.r0 = some (some 0x11AA) := by decide +kernel
theorem test_color565_masked : (resultsOf (.color565 0x0107 3 7) State.reset).map Results.r0 = some (some 0) := by decide +kernel

/-! ## Lit pixels -/

/-- An observer with nothing in `FB`. -/
def darkObserver : Observer := ⟨0, 0, 0, 0, 0, 0, none, [], []⟩

/-- T42.13: the lit set of a line, and two neighbours outside it -/
theorem test_line_lit :
    ([(4, 12), (5, 12), (6, 11), (7, 11), (8, 11), (9, 10), (10, 10), (6, 12), (11, 10)].map fun p : Int × Int =>
      operationLit darkObserver (fun _ => 0) (.line 10 10 4 12 0xF800) (std 0 false []) p.1 p.2) =
        List.replicate 7 (some 0xF800) ++ [none, none] := by decide +kernel

/-- T43.1, with the panel's offsets at 2 and 1 (20_memory.md R83): a blit's colours at their logical pixels -/
theorem test_blit_lit :
    ([(4, 5), (5, 5), (4, 6), (5, 6), (6, 6)].map fun p : Int × Int =>
      operationLit darkObserver (fun _ => 0) (.blit 100 8 4 5 2 2)
        { std 0 false [(100, 1), (101, 2), (102, 3), (103, 4), (104, 5), (105, 6), (106, 7), (107, 8)] with
          display := { (std 0 false []).display with colstart := some 2, rowstart := some 1 } } p.1 p.2) =
        [some 0x0102, some 0x0304, some 0x0506, some 0x0708, none] := by decide +kernel

/-! ## Other definitions -/

theorem test_named_colors :
    [colorBLACK, colorBLUE, colorRED, colorGREEN, colorCYAN, colorMAGENTA, colorYELLOW, colorWHITE].map BitVec.toNat =
      [pack565 0 0 0, pack565 0 0 255, pack565 255 0 0, pack565 0 255 0, pack565 0 255 255, pack565 255 0 255,
        pack565 255 255 0, pack565 255 255 255] := by decide +kernel

/-- The read port shows fields when the stream is used up and nothing while there is a step. -/
theorem test_host_port : (hostReadSR cfg 2, hostReadSR cfg 0, hostReadSR { cfg with prog := List.replicate 16 0x4600 } 0,
    hostReadFlag cfg 0) = (.unset, .value 8, .busy, .value 1) := by decide +kernel

/-- `ROTATION r` is the one descriptor of the call `rotation(r)`. -/
theorem test_api_call : (ApiCall.bounding true false).toInstr = .boundingSet false true := by decide +kernel

/-- `withFetchWord` places an instruction where the step fetches it: from reset `COLOR565` runs first. -/
theorem test_with_fetch_word : (left (step (State.reset.withFetchWord 16 0x5000))).map
    (fun t => (t.results.r0, t.pc, t.fault)) = some (some 0, 4, false) := by decide +kernel

theorem test_illegal_step : (left (step (State.reset.withFetchWord 16 0x2601))).map
    (fun t => (t.fault, t.cause, t.info, t.pc)) = some (true, 1, 0x2601, 0) := by decide +kernel

/-! ## Witnesses: a state and operands that meet the hypotheses of each statement -/

/-- A state with a command stream. -/
def running (s : State) (prog : List Word) : State := { s with prog := prog, pc := 0 }

/-- A state whose HAL answers the transfers with the given numbers with an error. -/
def failing (s : State) (ks : List Nat) : State := { s with params := { s.params with halFail := ks } }

/-- An instruction that leaves a state with a property answers a next state with it. -/
theorem next_of_left {o : Host.Outcome State Fault Refusal} (P : State → Prop) [DecidablePred P]
    (h : (left o).any (fun t => decide (P t)) = true) : ∃ t, o = .next t ∧ P t := by
  cases o with
  | next t => exact ⟨t, rfl, of_decide_eq_true h⟩
  | fault r => cases h
  | refused r => cases h

/-- A Display whose box is the sentinel, or whose geometry is unset, has a legal box. -/
theorem box_ok_of_sentinel {d : Display} (h : d.minX = d.width ∧ d.minY = d.height ∧ (d.width = none ∨
    d.maxX = some 0 ∧ d.maxY = some 0)) : BoxOk d := by
  intro w hw hh hhh x0 hx0 y0 hy0 x1 hx1 y1 hy1
  simp only [Option.mem_def] at *
  rcases h with ⟨h1, h2, h3 | ⟨h3, h4⟩⟩
  · rw [h3] at hw; cases hw
  · rw [h1, hw] at hx0; rw [h2, hhh] at hy0; rw [h3] at hx1; rw [h4] at hy1
    cases hx0; cases hy0; cases hx1; cases hy1
    exact .inl ⟨rfl, rfl, rfl, rfl⟩

theorem trace_ok_of_nil {s : State} (h : s.trace = []) : TraceOk s := by
  intro e he
  rw [h] at he
  cases he

theorem running_inv : Inv (running (cfgGeom true) [0x2500, 0x1234]) where
  params := by decide +kernel
  pc := by decide +kernel
  memory := by decide +kernel
  config := by decide +kernel
  geom := by decide +kernel
  box := box_ok_of_sentinel (by decide +kernel)
  fault := by decide +kernel
  trace := trace_ok_of_nil (by decide +kernel)

/-- A configured panel with a table of two records. -/
def twoRecords : State := { running cfg [0x3002] with display := { cfg.display with
  rot := some [⟨0, 8, 4, 0, 0⟩, ⟨0x60, 4, 8, 0, 0⟩], rotationsLen := some 2 }, pc := 0 }

theorem two_records_inv : Inv twoRecords where
  params := by decide +kernel
  pc := by decide +kernel
  memory := by decide +kernel
  config := by decide +kernel
  geom := by decide +kernel
  box := box_ok_of_sentinel (by decide +kernel)
  fault := by decide +kernel
  trace := trace_ok_of_nil (by decide +kernel)

theorem witness_DecodeEncode :
    (Instr.config allPins 8 4 0 0 1 0 0 [⟨0, 8, 4, 0, 0⟩]).wellFormed = true ∧
    (Instr.config allPins 8 4 0 0 256 0 0 []).wellFormed = true := by decide

theorem witness_EncodeDecode : decode [0x3005, 0x4600] = .ok (.rotation 5) [0x4600] := by decide

theorem witness_IllegalHeaderFaults :
    (running cfg [0x4080]).fault = false ∧ (running cfg [0x4080]).prog[0]? = some 0x4080 ∧
    ¬ LegalHeaderNumber (0x4080 : Word).toNat ∧ LegalHeaderNumber (0x407F : Word).toNat ∧
    (running cfg [0x407F]).prog[0]? = some 0x407F := by decide +kernel

theorem witness_TruncatedIsStuck :
    (running cfg [0x4008, 8, 4, 0, 0, 1, 0, 0, 0, 0]).fault = false ∧ legalHeader 0x4008 = some .config ∧
    (running cfg [0x4008, 8, 4, 0, 0, 1, 0, 0, 0, 0]).prog.length < 0 + Opcode.config.words 1 ∧
    legalHeader 0x2500 = some .fill ∧ [(0x2500 : Word)].length < 0 + Opcode.fill.words 0 := by decide +kernel

theorem witness_StepRunsDecoded :
    ({ running cfg [0x4700, 0x4600, 0x4700] with pc := 1 } : State).fault = false ∧ Instr.on.wellFormed = true ∧
    [0x4700, 0x4600, 0x4700] = [0x4700] ++ encode .on ++ [0x4700] ∧ [(0x4700 : Word)].length = 1 := by decide +kernel

theorem witness_RunEnds :
    (running cfg []).pc ≤ (running cfg []).prog.length ∧ (running cfg [0x2500]).pc ≤ (running cfg [0x2500]).prog.length ∧
    fetch (running cfg [0x2500]) = .truncated := by decide +kernel

theorem witness_PcProgress :
    (∃ t, exec .on cfg = .next t ∧ t.fault = false) ∧ (∃ t, exec .on State.reset = .next t ∧ t.fault = true) ∧
    cfg.fault = false ∧ State.reset.fault = false ∧ Instr.on.wellFormed = true :=
  ⟨next_of_left _ (by decide +kernel), next_of_left _ (by decide +kernel), by decide +kernel⟩

theorem witness_HardwareReset :
    (∃ t, exec .on (faulted cfg 1 0) = .next t ∧ t.fault = true) ∧ (faulted cfg 1 0).configured = true ∧
    (faulted cfg 1 0).fault = true := ⟨next_of_left _ (by decide +kernel), by decide +kernel⟩

theorem witness_ResetEstablishesInv :
    ParamsOk (std 0 true [(3, 7), (9, 1)]).params ∧ MemoryOk (std 0 true [(3, 7), (9, 1)]) := by decide +kernel

theorem witness_StepKeepsInv :
    Inv (running (cfgGeom true) [0x2500, 0x1234]) ∧
    ∃ t, step (running (cfgGeom true) [0x2500, 0x1234]) = .next t ∧ t.fault = false :=
  ⟨running_inv, next_of_left _ (by decide +kernel)⟩

theorem witness_FlagsMeanDrawable :
    Inv (running (cfgGeom true) [0x2500, 0x1234]) ∧ (running (cfgGeom true) []).configured = true ∧
    (running (cfgGeom true) []).geomValid = true := ⟨running_inv, by decide +kernel⟩

theorem witness_OnlyMapbitsWrites :
    (∃ t, exec (.fill 1) (cfgGeom true) = .next t ∧ t.fault = false) ∧ (Instr.fill 1).opcode ≠ .mapbits :=
  ⟨next_of_left _ (by decide +kernel), by decide⟩

theorem witness_TraceGrowsWithKnownLevel : ∃ t, exec (.writeCmd 0 0 4) cfg = .next t ∧ t.fault = false :=
  next_of_left _ (by decide +kernel)

theorem witness_ResultWriters :
    Inv twoRecords ∧ twoRecords.fault = false ∧ (∃ t, exec .madctlGet twoRecords = .next t ∧ t.fault = true) ∧
    (∃ t, exec (.madctlSet 5) twoRecords = .next t ∧ t.fault = false) ∧
    (∃ t, exec .on twoRecords = .next t ∧ t.fault = false) :=
  ⟨two_records_inv, by decide +kernel, next_of_left _ (by decide +kernel), next_of_left _ (by decide +kernel),
    next_of_left _ (by decide +kernel)⟩

theorem witness_ResultsNeverRead :
    (∃ t, exec (.madctlSet 5) cfg = .next t ∧ t.fault = false) ∧ (∃ t, exec .on cfg = .next t ∧ t.fault = false) :=
  ⟨next_of_left _ (by decide +kernel), next_of_left _ (by decide +kernel)⟩

theorem witness_StatusFlagWriters :
    (∃ t, exec (.config allPins 8 4 0 0 1 0 0 [⟨0, 8, 4, 0, 0⟩]) State.reset = .next t ∧
      t.configured ≠ State.reset.configured ∧ t.fault = false) ∧
    (∃ t, exec (.rotation 0) cfg = .next t ∧ t.geomValid ≠ cfg.geomValid) ∧
    (∃ t, exec .on (cfgGeom true) = .next t ∧ (cfgGeom true).configured = true ∧ (cfgGeom true).geomValid = true) :=
  ⟨next_of_left (fun t => t.configured ≠ State.reset.configured ∧ t.fault = false) (by decide +kernel),
    next_of_left (fun t => t.geomValid ≠ cfg.geomValid) (by decide +kernel),
    next_of_left (fun _ => (cfgGeom true).configured = true ∧ (cfgGeom true).geomValid = true) (by decide +kernel)⟩

theorem witness_DisplayFieldWriters :
    (∃ t, exec (.fill 1) (cfgGeom false) = .next t ∧ t.fault = false) ∧
    (cfgGeom false).display.bounding = some false ∧ (∃ t, exec .on cfg = .next t ∧ t.fault = false) :=
  ⟨next_of_left _ (by decide +kernel), by decide +kernel, next_of_left _ (by decide +kernel)⟩

theorem witness_FaultEntry : (5 : Nat) < 2 ^ 32 ∧ (faulted cfg 1 0).fault = true := by decide

theorem witness_FaultsArePrecise :
    Inv twoRecords ∧ twoRecords.fault = false ∧
    (∃ t, exec (.writeCmd 0 255 2) twoRecords = .next t ∧ t.fault = true ∧
      t.cause ≠ 7 ∧ t.cause ≠ 11) ∧
    (∃ t, exec (.rotation 2) twoRecords = .next t ∧ t.fault = true ∧ t.cause = 7) :=
  ⟨two_records_inv, by decide +kernel,
    next_of_left (fun t => t.fault = true ∧ t.cause ≠ 7 ∧ t.cause ≠ 11) (by decide +kernel),
    next_of_left (fun t => t.fault = true ∧ t.cause = 7) (by decide +kernel)⟩

/-- The instruction ends in a `HAL_ERROR` on a small panel, from a state with or without geometry, when the transfer with
this number fails. -/
def halError (s : State) (k : Nat) (i : Instr) : Bool :=
  (left (exec i (failing s [k]))).any fun t => t.fault && t.cause == 11 && transferCount t.trace == k + 1

/-- One instruction and failing transfer for each clause; for `INIT` the last transfer of each stage and the first of the
next. -/
theorem witness_HalErrorShape :
    (failing cfg [1]).fault = false ∧ halError cfg 0 (.writeCmd 1 0 0) = true ∧
    halError cfg 0 (.inversionMode true) = true ∧ halError cfg 1 (.madctlSet 5) = true ∧
    halError cfg 1 (.rotation 0) = true ∧ halError (cfgGeom true) 4 (.setWindow 0 0 7 3) = true ∧
    Drawable (failing (cfgGeom true) [11]) ∧ halError (cfgGeom true) 11 (.rect 0 0 2 2 5) = true ∧
    cfg.display.rot = some [⟨0, 8, 4, 0, 0⟩] ∧ cfg.display.rotation = some 0 ∧ cfg.display.colorOrder = some 0 ∧
    (panelInitEvents cfg.display).map transferCount = some 7 ∧
    ([6, 7, 8, 9].all fun k => halError cfg k .init) = true := by decide +kernel

theorem witness_QuietHal :
    cfg.fault = false ∧ HalQuiet { failing cfg [0] with trace := [.spi [1]] } ∧
    ∃ t, exec .softReset { failing cfg [0] with trace := [.spi [1]] } = .next t ∧ t.fault = false :=
  ⟨by decide +kernel, by decide +kernel, next_of_left _ (by decide +kernel)⟩

theorem witness_NotConfigured :
    State.reset.configured = false ∧ State.reset.fault = false ∧ Instr.on.opcode ∉ [.config, .color565, .mapbits] ∧
    ∃ t, exec (.mapbits 0 0 0 0 0 0 0) State.reset = .next t ∧ t.fault = true :=
  ⟨rfl, rfl, by decide, next_of_left _ (by decide +kernel)⟩

theorem witness_UnsetState : cfg.configured = true ∧ cfg.geomValid = false ∧ cfg.display.madctl = none := by
  decide +kernel

theorem witness_BufferRange :
    (cfgGeom true).configured = true ∧ (cfgGeom true).geomValid = true ∧
    (cfgGeom true).params.bmemSize < (256 : DWord).toNat + (1 : DWord).toNat ∧
    (256 : DWord).toNat + (0 : DWord).toNat ≤ (cfgGeom true).params.bmemSize ∧ (1 : Word) ≠ 0 ∧
    State.reset.configured = false ∧ State.reset.params.bmemSize < (256 : DWord).toNat + (1 : DWord).toNat ∧
    (∀ r ∈ [(⟨0, 8, 4, 0, 0⟩ : RotRec)], r.width ≠ 0 ∧ r.height ≠ 0) := by decide +kernel

theorem witness_MapbitsFaults :
    (2 : Word) ≠ 0 ∧ (0 : DWord).toNat + (1 : DWord).toNat ≤ cfg.params.bmemSize ∧
    (0 : DWord).toNat + (3 : DWord).toNat ≤ cfg.params.bmemSize ∧
    (3 : DWord).toNat < 2 * expandedPixels (2 : Word).toNat (1 : DWord).toNat ∧
    2 * expandedPixels (2 : Word).toNat (1 : DWord).toNat < 2 ^ 32 ∧ Instr.on.opcode ≠ .mapbits ∧
    (left (exec .on State.reset)).map State.fault = some true := by decide +kernel

/-- The reset state with one built-in table, whose second record is empty. -/
def withPreset : State := { State.reset with params := { Params.atReset with presets :=
  [⟨128, 160, #v[⟨0, 128, 160, 0, 0⟩, ⟨0, 0, 128, 0, 0⟩, ⟨0, 128, 160, 0, 0⟩, ⟨0, 160, 128, 0, 0⟩]⟩] } }

theorem witness_ConfigFaults :
    cfg.configured = true ∧ State.reset.configured = false ∧ 255 < (256 : Word).toNat ∧ (255 : Word).toNat ≤ 255 ∧
    (∀ p ∈ withPreset.params.presets, ¬ (p.displayWidth = 128 ∧ p.displayHeight = 128)) ∧
    IsBuiltIn withPreset.params.presets 128 160 ([⟨0, 128, 160, 0, 0⟩] ++ ⟨0, 0, 128, 0, 0⟩ ::
      [⟨0, 128, 160, 0, 0⟩, ⟨0, 160, 128, 0, 0⟩]) :=
  ⟨by decide +kernel, rfl, by decide, by decide, by decide +kernel, [], _, [], rfl, rfl, rfl, rfl, by simp⟩

theorem witness_ScriptRoundTrip :
    (∀ e ∈ [(⟨0x11, [], some 120⟩ : ScriptEntry), ⟨0, List.replicate 254 1, none⟩], EntryFits e) ∧
    parseEntries [1, 1, 0x11, 0, 0x78] 5 0 = .ok [⟨0x11, [], some 120⟩] := ⟨by decide +kernel, rfl⟩

theorem witness_ConfigScriptFaults :
    State.reset.configured = false ∧ (∀ r ∈ [(⟨0, 8, 4, 0, 0⟩ : RotRec)], r.width ≠ 0 ∧ r.height ≠ 0) ∧
    (0 : DWord).toNat + (4 : DWord).toNat ≤ State.reset.params.bmemSize ∧ (3 : Nat) < (4 : DWord).toNat ∧
    (∀ cap ∈ State.reset.params.cinitCap, (4 : DWord).toNat ≤ cap) ∧
    readBytes [(0, 1), (2, 0x29)] 0 4 = scriptBytes [⟨0x29, [], none⟩] ++ [0] ∧
    (∀ (e : ScriptEntry) (later : List Byte), EntryFits e → [0] ≠ entryBytes e ++ later) :=
  ⟨rfl, by decide +kernel, by decide +kernel, by decide +kernel, by decide +kernel, by decide +kernel, fun e later _ h => by
    have := congrArg List.length h
    simp [entryBytes] at this⟩

theorem witness_RotationRange :
    twoRecords.configured = true ∧ twoRecords.display.rotationsLen = some 2 ∧
    (2 : Byte).toNat ≤ (6 : Byte).toNat % 4 ∧ Inv twoRecords ∧ twoRecords.fault = false ∧
    ∃ t, exec (.rotation 6) twoRecords = .next t ∧ t.fault = true ∧ t.cause = 7 :=
  ⟨by decide +kernel, by decide +kernel, by decide, two_records_inv, by decide +kernel,
    next_of_left (fun t => t.fault = true ∧ t.cause = 7) (by decide +kernel)⟩

/-- The hypotheses of every statement about a drawing operation, of `SET_WINDOW` and of `BLIT`. -/
theorem witness_Drawable :
    Drawable (cfgGeom true) ∧ HalQuiet (cfgGeom true) ∧ (cfgGeom true).display.width = some 8 ∧
    (cfgGeom true).display.height = some 4 ∧
    (256 : DWord).toNat + (0 : DWord).toNat ≤ (cfgGeom true).params.bmemSize := by decide +kernel

/-- The hypotheses of `WRITE_CMD`, `FILL_BUF`, `OFFSET`, `MADCTL_SET`, the panel commands, `ON` and `OFF`. -/
theorem witness_Configured :
    cfg.configured = true ∧ HalQuiet cfg ∧ (255 : DWord).toNat + (1 : DWord).toNat ≤ cfg.params.bmemSize ∧
    State.reset.configured = false ∧ (cfgGeom true).configured = true ∧
    (cfgGeom true).display.madctl = some 0 := by decide +kernel

theorem witness_MapbitsCompletes :
    MemoryOk (std 0 false [(16, 0xA0)]) ∧ (3 : Word) ≠ 0 ∧
    (16 : DWord).toNat + (1 : DWord).toNat ≤ (std 0 false [(16, 0xA0)]).params.bmemSize ∧
    (250 : DWord).toNat + (6 : DWord).toNat ≤ (std 0 false [(16, 0xA0)]).params.bmemSize ∧
    2 * expandedPixels (3 : Word).toNat (1 : DWord).toNat ≤ (6 : DWord).toNat := by decide +kernel

theorem witness_ExpandClosedForm : 1 ≤ (1 : Nat) := by decide

theorem witness_RotationCompletes :
    (std 0 false []).configured = true ∧ HalQuiet (std 0 false []) ∧
    (std 0 false []).display.rotationsLen = some 4 ∧ (std 0 false []).display.colorOrder = some 0 ∧
    (7 : Byte).toNat % 4 < (4 : Byte).toNat ∧
    (std 0 false []).display.rot.bind (fun t => t[(7 : Byte).toNat % 4]?) = some ⟨0xA0, 320, 240, 0, 0⟩ := by
  decide +kernel

theorem witness_BoundingCompletes :
    (cfgGeom true).configured = true ∧ (cfgGeom true).geomValid = true ∧ (cfgGeom true).display.minX = some 8 ∧
    (cfgGeom true).display.minY = some 4 ∧ (cfgGeom true).display.maxX = some 0 ∧
    (cfgGeom true).display.maxY = some 0 ∧ (cfgGeom true).display.width = some 8 ∧
    (cfgGeom true).display.height = some 4 := by decide +kernel

theorem witness_DirtyBoxIsUnion :
    Drawable (cfgGeom true) ∧ HalQuiet (cfgGeom true) ∧ (cfgGeom true).display.bounding = some true ∧
    (cfgGeom true).display.width = some 8 ∧ (cfgGeom true).display.height = some 4 ∧
    (cfgGeom true).display.minX = some 8 ∧ (cfgGeom true).display.minY = some 4 ∧
    (cfgGeom true).display.maxX = some 0 ∧ (cfgGeom true).display.maxY = some 0 := by decide +kernel

theorem witness_ConfigCompletes :
    (Instr.config allPins 8 4 0 0 1 0 4 [⟨0, 8, 4, 0, 0⟩]).wellFormed = true ∧ State.reset.configured = false ∧
    allPins.dc = true ∧ (1 : Word).toNat ≤ 255 ∧ (∀ r ∈ [(⟨0, 8, 4, 0, 0⟩ : RotRec)], r.width ≠ 0 ∧ r.height ≠ 0) ∧
    allPins.ci = false ∧ (⟨true, true, true, true, false, false, true⟩ : ConfigFlags).ci = true ∧
    (0 : DWord).toNat + (3 : DWord).toNat ≤ State.reset.params.bmemSize ∧
    (∀ cap ∈ State.reset.params.cinitCap, (3 : DWord).toNat ≤ cap) ∧
    (∀ e ∈ [(⟨0x29, [], none⟩ : ScriptEntry)], EntryFits e) ∧
    readBytes [(0, 1), (2, 0x29)] 0 3 = scriptBytes [⟨0x29, [], none⟩] := by decide +kernel

/-- The reset state with a built-in table without an empty record, the second entry of `PRESETS`. -/
def withGoodPreset : State := { State.reset with params := { Params.atReset with presets :=
  [⟨80, 160, Vector.replicate 4 ⟨0, 80, 160, 0, 0⟩⟩, ⟨128, 160, Vector.replicate 4 ⟨0, 128, 160, 0, 0⟩⟩] } }

/-- The hypotheses of a `CONFIG` that takes the built-in table. -/
theorem witness_ConfigCompletes_built_in :
    (Instr.config allPins 128 160 0 0 0 0 0 []).wellFormed = true ∧ withGoodPreset.configured = false ∧
    IsBuiltIn withGoodPreset.params.presets 128 160 (List.replicate 4 ⟨0, 128, 160, 0, 0⟩) ∧
    (∀ r ∈ List.replicate 4 (⟨0, 128, 160, 0, 0⟩ : RotRec), r.width ≠ 0 ∧ r.height ≠ 0) :=
  ⟨by decide, rfl, ⟨[_], _, [], rfl, rfl, rfl, rfl, by decide +kernel⟩, by decide +kernel⟩

theorem witness_InitCompletes :
    cfg.configured = true ∧ HalQuiet cfg ∧ (panelInitEvents cfg.display).isSome ∧
    (panelInitEvents { cfg.display with cinit := some (.script [⟨0x29, [], some 0⟩]) }).isSome ∧
    cfg.display.rotation = some 0 ∧ cfg.display.rotationsLen = some 1 ∧
    cfg.display.rot = some [⟨0, 8, 4, 0, 0⟩] ∧ cfg.display.colorOrder = some 0 ∧ (0 : Byte).toNat < (1 : Byte).toNat ∧
    [(⟨0, 8, 4, 0, 0⟩ : RotRec)][(0 : Byte).toNat]? = some ⟨0, 8, 4, 0, 0⟩ ∧ cfg.display.options.isSome ∧
    cfg.display.bounding.isSome := by decide +kernel

theorem witness_ColorRoundTrip : (255 : Word).toNat < 256 ∧ (0 : Word).toNat < 256 := by decide

theorem witness_WindowLightsRectangle :
    (cfgGeom true).display.colstart = some 0 ∧ (cfgGeom true).display.rowstart = some 0 ∧ 3 ≤ 3 ∧
    65535 + (0 : Word).toNat < 65536 ∧ Drawable (cfgGeom true) ∧ HalQuiet (cfgGeom true) ∧
    (cfgGeom true).display.width = some 8 ∧ (cfgGeom true).display.height = some 4 ∧
    (cfgGeom true).display.options = some 0 ∧ (0 : Word).toNat + (8 : Word).toNat ≤ 65536 ∧
    (65532 : Word).toNat + (4 : Word).toNat ≤ 65536 ∧
    drawnPoints (.hline 0xFFFF 1 2 7) = some (7, [(-1, 1), (0, 1)]) := by decide +kernel

end Sys2Proof.Tests
end

/-! PROOFS. Which headers are legal, as a condition on the header's number, and what the fetch and the step make of an
illegal one (30_encoding.md R90, R93, R96, R97; 60_exceptions.md R241). -/

namespace Sys2Proof.Proofs

open Sys2Proof.Machine Sys2Proof.Safety

/-! ## The fields of a header as numbers -/

theorem header_op_toNat (h : Word) : (headerOp h).toNat = h.toNat / 256 := by
  have := h.isLt
  rw [headerOp, BitVec.extractLsb'_toNat, Nat.shiftRight_eq_div_pow]
  omega

theorem header_imm_toNat (h : Word) : (headerImm h).toNat = h.toNat % 256 := by
  rw [headerImm, BitVec.extractLsb'_toNat, Nat.shiftRight_zero]

/-! ## Reserved bits -/

/-- The five sets of used bits (R93, R96, R99), each a run of low bits. -/
def usedMasks : List Byte := [0xFF, 0, 0x01, 0x03, 0x7F]

theorem used_bits_mem_masks (o : Opcode) : o.usedBits ∈ usedMasks := by
  cases o <;> decide

theorem used_mask_eq_low_run {m : Byte} (hm : m ∈ usedMasks) : ∃ k, m.toNat = 2 ^ k - 1 := by
  simp only [usedMasks, List.mem_cons, List.not_mem_nil, or_false] at hm
  obtain rfl | rfl | rfl | rfl | rfl := hm
  · exact ⟨8, rfl⟩
  · exact ⟨0, rfl⟩
  · exact ⟨1, rfl⟩
  · exact ⟨2, rfl⟩
  · exact ⟨7, rfl⟩

theorem and_not_eq_zero_iff_and_eq {w : Nat} (x m : BitVec w) : x &&& ~~~ m = 0 ↔ x &&& m = x := by
  simp only [BitVec.eq_of_getLsbD_eq_iff, BitVec.getLsbD_and, BitVec.getLsbD_not]
  refine forall₂_congr fun i hi => ?_
  cases x.getLsbD i <;> simp [hi]

/-- A used-bits mask is a run of low bits, so the bits above it are clear when the number is within it: both say that the
number is its own remainder by a power of two. -/
theorem reserved_clear_iff_le {m : Byte} (hm : m ∈ usedMasks) (f : Byte) :
    f &&& ~~~ m = 0 ↔ f.toNat ≤ m.toNat := by
  obtain ⟨k, hk⟩ := used_mask_eq_low_run hm
  calc f &&& ~~~ m = 0
    _ ↔ f &&& m = f := and_not_eq_zero_iff_and_eq f m
    _ ↔ f.toNat % 2 ^ k = f.toNat := by
      rw [← BitVec.toNat_inj, BitVec.toNat_and, hk, Nat.and_two_pow_sub_one_eq_mod]
    _ ↔ f.toNat < 2 ^ k := Nat.mod_eq_iff_lt (by positivity)
    _ ↔ f.toNat ≤ m.toNat := by rw [hk, Nat.le_sub_one_iff_lt (by positivity)]

/-! ## The opcodes by their used bits -/

/-- The codes of the opcodes whose used bits are `m`, in the table's order. -/
def codesUsing (m : Byte) : List Nat := (Opcode.all.filter fun o => o.usedBits == m).map fun o => o.code.toNat

theorem mem_opcode_all (o : Opcode) : o ∈ Opcode.all := by
  cases o <;> decide

theorem mem_codes_using {m : Byte} {c : Nat} : c ∈ codesUsing m ↔ ∃ o : Opcode, o.usedBits = m ∧ o.code.toNat = c := by
  simp [codesUsing, mem_opcode_all]

/-- The lists and bounds of `LegalHeaderNumber` are the model's opcode map, read by used bits. -/
theorem legal_header_number_iff_codes (n : Nat) :
    LegalHeaderNumber n ↔ ∃ m ∈ usedMasks, n / 256 ∈ codesUsing m ∧ n % 256 ≤ m.toNat := by
  have all_used : codesUsing 0xFF#8 = [0x10, 0x30] := by decide
  have none_used : codesUsing 0#8 = [0x11, 0x12, 0x20, 0x21, 0x22, 0x23, 0x24, 0x25, 0x26, 0x27, 0x28, 0x31, 0x32, 0x33,
    0x41, 0x42, 0x43, 0x46, 0x47, 0x48, 0x49, 0x50] := by decide
  have one_used : codesUsing 0x01#8 = [0x34, 0x44, 0x45] := by decide
  have two_used : codesUsing 0x03#8 = [0x35] := by decide
  have seven_used : codesUsing 0x7F#8 = [0x40] := by decide
  have imm_le : n % 256 ≤ 255 := by omega
  simp [LegalHeaderNumber, usedMasks, all_used, none_used, one_used, two_used, seven_used, imm_le, Nat.lt_succ_iff]

theorem legal_header_number_iff_opcode (n : Nat) :
    LegalHeaderNumber n ↔ ∃ o : Opcode, n / 256 = o.code.toNat ∧ n % 256 ≤ o.usedBits.toNat := by
  rw [legal_header_number_iff_codes]
  constructor
  · rintro ⟨m, -, hcode, himm⟩
    obtain ⟨o, rfl, ho⟩ := mem_codes_using.1 hcode
    exact ⟨o, ho.symm, himm⟩
  · rintro ⟨o, hcode, himm⟩
    exact ⟨o.usedBits, used_bits_mem_masks o, mem_codes_using.2 ⟨o, rfl, hcode.symm⟩, himm⟩

/-! ## Legal headers -/

theorem legal_header_eq_some_iff {h : Word} {o : Opcode} :
    legalHeader h = some o ↔ headerOp h = o.code ∧ headerImm h &&& ~~~ o.usedBits = 0 := by
  constructor
  · intro e
    obtain ⟨hh, hres⟩ := Laws.legal_header_some e
    exact ⟨by rw [hh, Laws.header_op_header], hres⟩
  · rintro ⟨hop, hres⟩
    have := Laws.legal_header_header o (headerImm h) hres
    rwa [← hop, Laws.header_fields] at this

/-- The decoder's legal headers are the legal numbers. -/
theorem legal_header_isSome_iff (h : Word) : (legalHeader h).isSome ↔ LegalHeaderNumber h.toNat := by
  rw [Option.isSome_iff_exists, legal_header_number_iff_opcode]
  refine exists_congr fun o => ?_
  rw [legal_header_eq_some_iff, reserved_clear_iff_le (used_bits_mem_masks o), ← BitVec.toNat_inj, header_op_toNat,
    header_imm_toNat]

/-! ## The decoder, the fetch and the step at a header word -/

/-- The decoder answers "illegal" at an illegal header alone, and names that header. -/
theorem decode_eq_illegal_iff {h g : Word} {ws : List Word} :
    decode (h :: ws) = .illegal g ↔ legalHeader h = none ∧ h = g := by
  cases hl : legalHeader h with
  | none => simp [decode, hl]
  | some o => cases ho : decodeOperands o (headerImm h) ws <;> simp [decode, hl, ho]

theorem fetch_eq_decode_cons {s : State} {h : Word} (hw : s.prog[s.pc]? = some h) :
    fetch s = decode (h :: s.prog.drop (s.pc + 1)) := by
  obtain ⟨hlt, rfl⟩ := List.getElem?_eq_some_iff.1 hw
  rw [fetch, List.drop_eq_getElem_cons hlt]

theorem step_of_fetch_illegal {s : State} {h : Word} (hs : s.fault = false) (hf : fetch s = .illegal h) :
    step s = illegalHeader h s := by
  simp [step, hs, hf]

/-- A header word fits in `info`, so the fault leaves exactly that word there. -/
theorem illegal_header_eq_faulted (h : Word) (s : State) :
    illegalHeader h s = .next (faulted s 1 (h.setWidth 32)) := by
  have hlt : h.toNat < 2 ^ 32 := by have := h.isLt; omega
  have hinfo : infoWord h.toNat = h.setWidth 32 := by
    rw [infoWord, if_pos hlt, BitVec.ofNat_toNat]
  rw [illegalHeader, enterFault, hinfo]
  rfl

/-- Settles O3: the fetch answers "illegal" exactly when the decoder finds the header illegal, which is when its number is
not a legal one. -/
theorem illegalHeaderFaults : Obligations.IllegalHeaderFaults := by
  intro s h hs hw
  have hfetch := fetch_eq_decode_cons hw
  constructor
  · intro hn
    have hnone : legalHeader h = none := by
      rwa [← legal_header_isSome_iff, Option.not_isSome_iff_eq_none] at hn
    rw [step_of_fetch_illegal hs (hfetch.trans (decode_eq_illegal_iff.2 ⟨hnone, rfl⟩)), illegal_header_eq_faulted]
  · intro hl g hg
    obtain ⟨hnone, -⟩ := decode_eq_illegal_iff.1 (hfetch.symm.trans hg)
    have hsome := (legal_header_isSome_iff h).2 hl
    rw [hnone] at hsome
    cases hsome

end Sys2Proof.Proofs

/-! PROOFS. What an operation can write: the registers and the trace for every instruction, buffer memory for `MAPBITS`
alone, the command stream and the parameters never (20_memory.md R61, R80; 43_buffers.md R170). -/

namespace Sys2Proof.Proofs

open Sys2Proof.Machine Sys2Proof.Safety Sys2Proof.Laws

/-! ## Relations that the register writes keep -/

/-- A relation that composes and admits an operation's every write but those of buffer memory, `pc` and the fault
fields. -/
structure AdmitsRegisters (R : State → State → Prop) : Prop extends Composes R where
  display : ∀ (s : State) (d : Display), R s { s with display := d }
  results : ∀ (s : State) (r : Results), R s { s with results := r }
  geomValid : ∀ s : State, R s { s with geomValid := true }
  configured : ∀ s : State, R s { s with configured := true }

theorem AdmitsRegisters.toAdmitsBox {R : State → State → Prop} (h : AdmitsRegisters R) : AdmitsBox R :=
  { h.toComposes with box := fun s _ _ _ _ => h.display s _ }

theorem keeps_update_display {R : State → State → Prop} (h : AdmitsRegisters R) (f : Display → Display) :
    Keeps R (updateDisplay f) := fun s => h.display s _

theorem keeps_update_results {R : State → State → Prop} (h : AdmitsRegisters R) (f : Results → Results) :
    Keeps R (updateResults f) := fun s => h.results s _

theorem keeps_rotate {R : State → State → Prop} (h : AdmitsRegisters R) : Keeps R setRotation :=
  keeps_set_rotation h.toAdmitsBox (fun s _ _ => h.display s _) h.geomValid

/-! ## The frame of every instruction -/

/-- What every instruction keeps, completed or faulted, up to `pc` and the fault fields: any relation that admits the
register writes and, for `MAPBITS`, writes of buffer memory. -/
theorem exec_frame {R : State → State → Prop} (h : AdmitsRegisters R) {i : Instr} {s t : State}
    (hmem : i.opcode = .mapbits → ∀ (s : State) (m : Memory), R s { s with bmem := m })
    (ht : exec i s = .next t) :
    ∃ u, R s u ∧ (t = completed u i.words ∨ ∃ e : Raised, t = enterFault e.cause e.info u) := by
  have hc := h.toComposes
  have hb := h.toAdmitsBox
  cases i with
  | writeCmd =>
    exact perform_frame
      (keeps_guarded hc (keeps_bind hc.trans (keeps_mem_read hc _ _) fun _ => keeps_write_cmd hc _ _)) ht
  | setWindow =>
    exact perform_frame (keeps_guarded_geom hc (keeps_window_then hb _ _ _ _ (keeps_pure hc.refl _))) ht
  | fillBuf => exact perform_frame (keeps_guarded hc (keeps_stream hc _ _)) ht
  | pixel => exact perform_frame (keeps_guarded_geom hc (keeps_draw_pixel hb _ _ _)) ht
  | hline => exact perform_frame (keeps_guarded_geom hc (keeps_fast_hline hb _ _ _ _)) ht
  | vline => exact perform_frame (keeps_guarded_geom hc (keeps_fast_vline hb _ _ _ _)) ht
  | rect => exact perform_frame (keeps_guarded_geom hc (keeps_draw_rect hb _ _ _ _ _)) ht
  | fillRect => exact perform_frame (keeps_guarded_geom hc (keeps_fill_rect hb _ _ _ _ _)) ht
  | fill => exact perform_frame (keeps_guarded_geom hc (keeps_fill_screen hb _)) ht
  | line => exact perform_frame (keeps_guarded_geom hc (keeps_draw_line hb _ _)) ht
  | blit => exact perform_frame (keeps_guarded_geom hc (keeps_blit_body hb _ _ _ _ _ _)) ht
  | mapbits =>
    exact perform_frame (keeps_mapbits_body hc _ _ _ _ _ _ _ (fun s _ _ => hmem rfl s _) h.results) ht
  | rotation =>
    exact perform_frame
      (keeps_guarded hc (keeps_bind hc.trans (keeps_update_display h _) fun _ => keeps_rotate h)) ht
  | offset => exact perform_frame (keeps_guarded hc (keeps_update_display h _)) ht
  | madctlGet =>
    exact perform_frame
      (keeps_guarded hc (keeps_bind hc.trans (keeps_need hc.refl _ _) fun _ => keeps_update_results h _)) ht
  | madctlSet =>
    exact perform_frame (keeps_guarded hc (keeps_bind hc.trans (keeps_update_display h _) fun _ =>
      keeps_bind hc.trans (keeps_write_cmd hc _ _) fun _ => keeps_update_results h _)) ht
  | boundingGet => exact perform_frame (keeps_guarded_geom hc (keeps_read_box hc h.results _)) ht
  | boundingSet =>
    exact perform_frame (keeps_guarded_geom hc (keeps_bind hc.trans (keeps_read_box hc h.results _) fun _ =>
      keeps_bind hc.trans (keeps_update_display h _) fun _ => keeps_box_reset hb)) ht
  | config =>
    exact perform_frame
      (keeps_config_body hc _ _ _ _ _ _ _ _ _ (fun s _ _ => h.display s _) h.configured) ht
  | init =>
    exact perform_frame (keeps_guarded hc (keeps_init_body hb (fun s _ _ => h.display s _) h.geomValid)) ht
  | hardReset => exact perform_frame (keeps_guarded hc (keeps_hard_reset hc)) ht
  | softReset => exact perform_frame (keeps_guarded hc (keeps_soft_reset hc)) ht
  | sleepMode | vscrdef | vscsad => exact perform_frame (keeps_guarded hc (keeps_write_cmd hc _ _)) ht
  | inversionMode =>
    exact perform_frame
      (keeps_guarded hc (keeps_bind hc.trans (keeps_update_display h _) fun _ => keeps_write_cmd hc _ _)) ht
  | on | off =>
    exact perform_frame (keeps_guarded hc (keeps_bind hc.trans (keeps_pin hc _ _) fun _ => keeps_delay hc _)) ht
  | color565 r g b => exact perform_frame (keeps_update_results h _) (show execColor565 r g b s = .next t from ht)

/-! ## The inputs of a run -/

/-- The command stream and the parameters are the same in both states, and so is buffer memory unless `mapbits` holds. -/
structure SameInputs (mapbits : Prop) (s t : State) : Prop where
  prog : t.prog = s.prog
  params : t.params = s.params
  bmem : ¬ mapbits → t.bmem = s.bmem

theorem same_inputs_admits_registers (mapbits : Prop) : AdmitsRegisters (SameInputs mapbits) where
  refl _ := ⟨rfl, rfl, fun _ => rfl⟩
  trans _ _ _ h1 h2 :=
    ⟨h2.prog.trans h1.prog, h2.params.trans h1.params, fun hn => (h2.bmem hn).trans (h1.bmem hn)⟩
  emits _ _ := ⟨rfl, rfl, fun _ => rfl⟩
  display _ _ := ⟨rfl, rfl, fun _ => rfl⟩
  results _ _ := ⟨rfl, rfl, fun _ => rfl⟩
  geomValid _ := ⟨rfl, rfl, fun _ => rfl⟩
  configured _ := ⟨rfl, rfl, fun _ => rfl⟩

theorem same_inputs_set_bmem {mapbits : Prop} (hm : mapbits) (s : State) (m : Memory) :
    SameInputs mapbits s { s with bmem := m } := ⟨rfl, rfl, fun hn => absurd hm hn⟩

theorem exec_same_inputs {i : Instr} {s t : State} (ht : exec i s = .next t) :
    SameInputs (i.opcode = .mapbits) s t := by
  obtain ⟨u, hu, rfl | ⟨e, rfl⟩⟩ := exec_frame (same_inputs_admits_registers _) same_inputs_set_bmem ht
  · exact ⟨hu.prog, hu.params, hu.bmem⟩
  · exact ⟨hu.prog, hu.params, hu.bmem⟩

/-- Settles O15: the frame of every instruction, for the relation "same inputs"; equal memories read alike. -/
theorem onlyMapbitsWrites : Obligations.OnlyMapbitsWrites := by
  intro i s t ht
  have h := exec_same_inputs ht
  refine ⟨h.prog, h.params, fun hn => ?_⟩
  have hmem := h.bmem hn
  exact ⟨hmem, fun a => by rw [hmem]⟩

end Sys2Proof.Proofs

/-! PROOFS. The RGB565 packer: its masks and shifts as arithmetic on the channels, and `COLOR565` in every state
(46_color.md R230, R231). -/

namespace Sys2Proof.Proofs

open Sys2Proof.Machine Sys2Proof.Laws

/-! ## The packer as arithmetic -/

/-- A mask of `m` bits from bit `k` on cuts out that field of the number and leaves it in its place. -/
theorem and_field_mask (n k m : Nat) : n &&& ((2 ^ m - 1) <<< k) = (n / 2 ^ k % 2 ^ m) <<< k := by
  refine Nat.eq_of_testBit_eq fun j => ?_
  rw [Nat.testBit_and, Nat.testBit_shiftLeft, Nat.testBit_shiftLeft, Nat.testBit_two_pow_sub_one,
    Nat.testBit_mod_two_pow, Nat.testBit_div_two_pow]
  by_cases hj : k ≤ j
  · rw [Nat.sub_add_cancel hj, Bool.and_comm, Bool.and_assoc]
  · simp [hj]

/-- The mask of red and blue, `0xF8`, keeps bits 7:3. -/
theorem and_red_blue_mask (n : Nat) : n &&& 0xF8 = (n % 256 / 8) <<< 3 := by
  have hfield : n / 2 ^ 3 % 2 ^ 5 = n % 256 / 8 := by omega
  exact (and_field_mask n 3 5).trans (by rw [hfield])

/-- The mask of green, `0xFC`, keeps bits 7:2. -/
theorem and_green_mask (n : Nat) : n &&& 0xFC = (n % 256 / 4) <<< 2 := by
  have hfield : n / 2 ^ 2 % 2 ^ 6 = n % 256 / 4 := by omega
  exact (and_field_mask n 2 6).trans (by rw [hfield])

/-- The fields of a packed colour stand in bits 15:11, 10:5 and 4:0, so joining them is adding them (R231). -/
theorem join_color_fields (r : Nat) {g b : Nat} (hg : g < 64) (hb : b < 32) :
    r <<< 11 ||| g <<< 5 ||| b = r * 2048 + g * 32 + b := by
  have hgb : g <<< 5 ||| b = g * 32 + b := by
    rw [← Nat.shiftLeft_add_eq_or_of_lt (i := 5) hb, Nat.shiftLeft_eq]
  have hlow : g * 32 + b < 2 ^ 11 := by omega
  rw [Nat.or_assoc, hgb, ← Nat.shiftLeft_add_eq_or_of_lt hlow, Nat.shiftLeft_eq, Nat.add_assoc]

/-- EVERYTHING the packer computes: the top five, six and five bits of the channels' low bytes, side by side. -/
theorem pack565_eq (r g b : Nat) :
    pack565 r g b = r % 256 / 8 * 2048 + g % 256 / 4 * 32 + b % 256 / 8 := by
  have hg : g % 256 / 4 < 64 := by omega
  have hb : b % 256 / 8 < 32 := by omega
  rw [pack565, and_red_blue_mask, and_green_mask, and_red_blue_mask, Nat.shiftLeft_shiftRight, ← Nat.shiftLeft_add,
    ← Nat.shiftLeft_add, join_color_fields _ hg hb]

/-! ## The operation -/

/-- `COLOR565` has no guard: in every state it completes and leaves the packed colour in `r[0]` (R231). -/
theorem exec_color565 (r g b : Word) (s : State) :
    exec (.color565 r g b) s = .next { s with
      pc := s.pc + 4
      results := { s.results with r0 := some (BitVec.ofNat 32 (pack565 r.toNat g.toNat b.toNat)) } } := by
  have hexec : exec (.color565 r g b) s = execColor565 r g b s := rfl
  rw [hexec, execColor565, perform_ok (update_results_apply _ s), toResult, BitVec.ofInt_natCast]
  rfl

/-- Settles O58: the packed colour that the operation stores, by the arithmetic of its fields. -/
theorem color565Completes : Obligations.Color565Completes := by
  intro r g b s
  rw [exec_color565, pack565_eq]

end Sys2Proof.Proofs

/-! PROOFS. The causes each procedure and each operation can raise, said once, whatever the HAL answers
(60_exceptions.md R255), and fault entry as the statements write it. -/

namespace Sys2Proof.Proofs

open Sys2Proof.Machine Sys2Proof.Safety Sys2Proof.Laws

/-! ## Fault entry -/

theorem info_word_of_lt {n : Nat} (h : n < 2 ^ 32) : infoWord n = BitVec.ofNat 32 n := if_pos h

theorem info_word_toNat (v : DWord) : infoWord v.toNat = v := by
  rw [info_word_of_lt v.isLt, BitVec.ofNat_toNat, BitVec.setWidth_eq]

/-- An operation that raises leaves the faulted state that the statements name. -/
theorem perform_faulted {len : Nat} {op : Op Unit} {s t : State} {c : Cause} {n : Nat} {v : DWord}
    (h : op s = .error ⟨c, n⟩ t) (hv : infoWord n = v) : perform len op s = .next (faulted t c.code v) := by
  rw [perform_error h, ← hv]
  rfl

/-! ## The tests of `CONFIG` -/

theorem guard_unconfigured_apply (s : State) :
    guardUnconfigured s = if s.configured = true then .error ⟨.reconfig, 0⟩ s else .ok () s := rfl

theorem check_script_cap_apply (len : Nat) (s : State) :
    checkScriptCap len s =
      if exceedsCap s.params.cinitCap len = true then .error ⟨.cfgScript, len⟩ s else .ok () s := rfl

theorem preset_table_some {s : State} {dw dh : Word} {table : List RotRec}
    (h : findPreset s.params.presets dw dh = some table) : presetTable dw dh s = .ok table s := by
  simp only [presetTable, h]

theorem preset_table_none {s : State} {dw dh : Word} (h : findPreset s.params.presets dw dh = none) :
    presetTable dw dh s = .error ⟨.cfgRotTable, 0⟩ s := by
  simp only [presetTable, h]

/-! ## Procedures -/

/-- Run from `s`, the operation raises a cause of `C`, or completes and leaves the fault flag as it is. -/
def FaultsOnly (C : List Cause) {α : Type} (op : Op α) (s : State) : Prop :=
  match op s with
  | .ok _ t => t.fault = s.fault
  | .error e _ => e.cause ∈ C

theorem faults_only_of_ok {C : List Cause} {α : Type} {op : Op α} {s t : State} {a : α} (h : op s = .ok a t)
    (hf : t.fault = s.fault) : FaultsOnly C op s := by
  rw [FaultsOnly, h]
  exact hf

theorem faults_only_of_error {C : List Cause} {α : Type} {op : Op α} {s t : State} {e : Raised}
    (h : op s = .error e t) (he : e.cause ∈ C) : FaultsOnly C op s := by
  rw [FaultsOnly, h]
  exact he

section
variable {C : List Cause} {α β : Type}

theorem faults_only_raise {c : Cause} (h : c ∈ C) (n : Nat) (s : State) : FaultsOnly C (raise c n : Op α) s := h

/-- Sequencing, where what follows is asked only in the states the first part can leave. -/
theorem faults_only_bind_of_ok {x : Op α} {f : α → Op β} {s : State} (hx : FaultsOnly C x s)
    (hf : ∀ a t, x s = .ok a t → FaultsOnly C (f a) t) : FaultsOnly C (x >>= f) s := by
  rcases h : x s with ⟨a, t⟩ | ⟨e, t⟩
  · have hfa := hf a t h
    rw [FaultsOnly, h] at hx
    rw [FaultsOnly, bind_ok h]
    unfold FaultsOnly at hfa
    split at hfa
    · exact hfa.trans hx
    · exact hfa
  · rw [FaultsOnly, h] at hx
    exact faults_only_of_error (bind_error h f) hx

theorem faults_only_bind {x : Op α} {f : α → Op β} {s : State} (hx : FaultsOnly C x s)
    (hf : ∀ a t, FaultsOnly C (f a) t) : FaultsOnly C (x >>= f) s :=
  faults_only_bind_of_ok hx fun a t _ => hf a t

theorem faults_only_only_if {c : Prop} [Decidable c] {op : Op Unit} {s : State} (h : c → FaultsOnly C op s) :
    FaultsOnly C (onlyIf c op) s := by
  unfold onlyIf
  split
  · exact h ‹_›
  · rfl

theorem faults_only_for_each {f : α → Op Unit} (l : List α) (h : ∀ a s, FaultsOnly C (f a) s) (s : State) :
    FaultsOnly C (forEach l f) s := by
  induction l generalizing s with
  | nil => rfl
  | cons a l ih => exact faults_only_bind (h a s) fun _ t => ih t

/-- A test that raises its one cause when it holds, and does nothing else. -/
theorem faults_only_of_test {p : Prop} [Decidable p] {op : Op α} {s t : State} {a : α} {e : Raised}
    (hop : op s = if p then .error e s else .ok a t) (he : e.cause ∈ C) (ht : t.fault = s.fault) :
    FaultsOnly C op s := by
  split at hop
  · exact faults_only_of_error hop he
  · exact faults_only_of_ok hop ht

/-- A guard that raises its one cause unless it holds, and does nothing else. -/
theorem faults_only_of_guard {p : Prop} [Decidable p] {op : Op Unit} {s : State} {e : Raised}
    (hop : op s = if p then .ok () s else .error e s) (he : e.cause ∈ C) : FaultsOnly C op s := by
  split at hop
  · exact faults_only_of_ok hop rfl
  · exact faults_only_of_error hop he

theorem faults_only_guard_configured (h : .notConfigured ∈ C) (s : State) : FaultsOnly C guardConfigured s :=
  faults_only_of_guard (guard_configured_apply s) h

theorem faults_only_need_geom (h : .unsetState ∈ C) (s : State) : FaultsOnly C needGeom s :=
  faults_only_of_guard (need_geom_apply s) h

theorem faults_only_mem_read (h : .bufRange ∈ C) (addr n : Nat) (s : State) : FaultsOnly C (memRead addr n) s :=
  faults_only_of_test (mem_read_apply addr n s) h rfl

theorem faults_only_check_range (h : .bufRange ∈ C) (addr n : Nat) (s : State) : FaultsOnly C (checkRange addr n) s :=
  faults_only_of_test (check_range_apply addr n s) h rfl

theorem faults_only_mem_write (h : .bufRange ∈ C) (addr : Nat) (v : List Byte) (s : State) :
    FaultsOnly C (memWrite addr v) s :=
  faults_only_of_test (mem_write_apply addr v s) h rfl

theorem faults_only_need_then (h : .unsetState ∈ C) {sr : Nat} {f : Display → Option α} {g : α → Op β}
    {s : State} (hg : ∀ v, f s.display = some v → FaultsOnly C (g v) s) : FaultsOnly C (need sr f >>= g) s := by
  rcases need_cases sr f s with ⟨v, hv, hok⟩ | ⟨-, herr⟩
  · exact faults_only_bind_of_ok (faults_only_of_ok hok rfl) fun a t hat => by
      rw [hok] at hat
      cases hat
      exact hg v hv
  · exact faults_only_of_error (bind_error herr g) h

/-- What only emits raises `HAL_ERROR` alone. -/
theorem faults_only_of_plays (h : .halError ∈ C) {op : Op Unit} {s : State} {es : List Event}
    (hp : Plays op s.display es) : FaultsOnly C op s := by
  have hop := hp s rfl
  rcases play_cases es s with hok | ⟨_, _, _, -, -, herr⟩
  · exact faults_only_of_ok (hop.trans hok) rfl
  · exact faults_only_of_error (hop.trans herr) h

theorem faults_only_write_cmd (h : .halError ∈ C) (cmd : Byte) (data : List Byte) (s : State) :
    FaultsOnly C (writeCmd cmd data) s := faults_only_of_plays h (plays_write_cmd _ _ _)

theorem faults_only_pixel_phase (h : .halError ∈ C) (chunks : List (List Byte)) (s : State) :
    FaultsOnly C (pixelPhase chunks) s := faults_only_of_plays h (plays_pixel_phase _ _)

theorem faults_only_stream (h : .halError ∈ C) (color : Word) (n : Nat) (s : State) :
    FaultsOnly C (stream color n) s := faults_only_of_plays h (plays_stream _ _ _)

theorem faults_only_hard_reset (h : .halError ∈ C) (s : State) : FaultsOnly C hardReset s :=
  faults_only_of_plays h (plays_hard_reset _)

theorem faults_only_soft_reset (h : .halError ∈ C) (s : State) : FaultsOnly C softReset s :=
  faults_only_of_plays h (plays_soft_reset _)

/-! ## Procedures of the panel -/

end

/-- The list admits the causes of the guards and those that the panel's procedures can raise. -/
structure AdmitsPanel (C : List Cause) : Prop where
  guard : .notConfigured ∈ C
  unset : .unsetState ∈ C
  hal   : .halError ∈ C

/-- The causes that every operation of the panel can raise. -/
def panelCauses : List Cause := [.notConfigured, .unsetState, .halError]

theorem panel_causes_admit : AdmitsPanel panelCauses := ⟨by decide, by decide, by decide⟩

theorem admits_panel_cons {C : List Cause} (h : AdmitsPanel C) (c : Cause) : AdmitsPanel (c :: C) :=
  ⟨List.mem_cons_of_mem _ h.guard, List.mem_cons_of_mem _ h.unset, List.mem_cons_of_mem _ h.hal⟩

section
variable {C : List Cause} (h : AdmitsPanel C)
include h

theorem faults_only_default_init (s : State) : FaultsOnly C defaultInit s :=
  faults_only_bind (faults_only_soft_reset h.hal _) fun _ _ =>
  faults_only_bind (faults_only_write_cmd h.hal _ _ _) fun _ _ =>
  faults_only_bind (faults_only_write_cmd h.hal _ _ _) fun _ _ => faults_only_bind rfl fun _ _ =>
  faults_only_need_then h.unset fun _ _ => faults_only_bind (faults_only_write_cmd h.hal _ _ _) fun _ _ =>
  faults_only_bind (faults_only_write_cmd h.hal _ _ _) fun _ _ => faults_only_bind rfl fun _ _ =>
  faults_only_bind (faults_only_write_cmd h.hal _ _ _) fun _ _ => rfl

theorem faults_only_panel_init (c : CustomInit) (s : State) : FaultsOnly C (panelInit c) s := by
  cases c with
  | absent => exact faults_only_default_init h s
  | script es => exact faults_only_of_plays h.hal (plays_panel_init_script _ es)

theorem faults_only_expand_box (x0 y0 x1 y1 : Int) (s : State) : FaultsOnly C (expandBox x0 y0 x1 y1) s :=
  faults_only_need_then h.unset fun _ _ => faults_only_need_then h.unset fun _ _ =>
  faults_only_need_then h.unset fun _ _ => faults_only_need_then h.unset fun _ _ => rfl

theorem faults_only_box_reset (s : State) : FaultsOnly C boxReset s :=
  faults_only_need_then h.unset fun _ _ => faults_only_need_then h.unset fun _ _ => rfl

theorem faults_only_program_window (x0 y0 x1 y1 : Int) (s : State) : FaultsOnly C (programWindow x0 y0 x1 y1) s :=
  faults_only_need_then h.unset fun _ _ => faults_only_need_then h.unset fun _ _ =>
  faults_only_bind (faults_only_write_cmd h.hal _ _ _) fun _ _ =>
  faults_only_bind (faults_only_write_cmd h.hal _ _ _) fun _ _ => faults_only_write_cmd h.hal _ _ _

theorem faults_only_set_window (x0 y0 x1 y1 : Int) (s : State) : FaultsOnly C (setWindow x0 y0 x1 y1) s := by
  refine faults_only_need_then h.unset fun _ _ =>
    faults_only_need_then h.unset fun _ _ => ?_
  split
  · exact faults_only_need_then h.unset fun _ _ =>
      faults_only_bind (faults_only_only_if fun _ => faults_only_expand_box h _ _ _ _ _) fun _ _ =>
      faults_only_bind (faults_only_program_window h _ _ _ _ _) fun _ _ => rfl
  · rfl

theorem faults_only_window_then (x0 y0 x1 y1 : Int) {pixels : Op Unit} (hp : ∀ s, FaultsOnly C pixels s) (s : State) :
    FaultsOnly C (windowThen x0 y0 x1 y1 pixels) s :=
  faults_only_bind (faults_only_set_window h _ _ _ _ _) fun _ t => faults_only_only_if fun _ => hp t

theorem faults_only_window_stream (x0 y0 x1 y1 : Int) (color : Word) (n : Nat) (s : State) :
    FaultsOnly C (windowThen x0 y0 x1 y1 (stream color n)) s :=
  faults_only_window_then h _ _ _ _ (faults_only_stream h.hal _ _) s

theorem faults_only_draw_pixel (x y : Int) (color : Word) (s : State) : FaultsOnly C (drawPixel x y color) s :=
  faults_only_need_then h.unset fun _ _ => faults_only_need_then h.unset fun _ _ =>
  faults_only_need_then h.unset fun _ _ =>
  faults_only_only_if fun _ => faults_only_window_then h _ _ _ _ (faults_only_pixel_phase h.hal _) _

theorem faults_only_fast_hline (x y w : Int) (color : Word) (s : State) : FaultsOnly C (fastHline x y w color) s := by
  refine faults_only_need_then h.unset fun _ _ =>
    faults_only_need_then h.unset fun _ _ =>
    faults_only_need_then h.unset fun _ _ => ?_
  split
  · exact faults_only_only_if fun _ => faults_only_only_if fun _ => faults_only_window_stream h _ _ _ _ _ _ _
  · exact faults_only_for_each _ (fun _ => faults_only_draw_pixel h _ _ _) _

theorem faults_only_fast_vline (x y w : Int) (color : Word) (s : State) : FaultsOnly C (fastVline x y w color) s := by
  refine faults_only_need_then h.unset fun _ _ =>
    faults_only_need_then h.unset fun _ _ =>
    faults_only_need_then h.unset fun _ _ => ?_
  split
  · exact faults_only_only_if fun _ => faults_only_only_if fun _ => faults_only_window_stream h _ _ _ _ _ _ _
  · exact faults_only_for_each _ (fun _ => faults_only_draw_pixel h _ _ _) _

theorem faults_only_draw_rect (x y w hh : Int) (color : Word) (s : State) : FaultsOnly C (drawRect x y w hh color) s :=
  faults_only_bind (faults_only_fast_hline h _ _ _ _ _) fun _ _ =>
  faults_only_bind (faults_only_fast_vline h _ _ _ _ _) fun _ _ =>
  faults_only_bind (faults_only_fast_hline h _ _ _ _ _) fun _ _ => faults_only_fast_vline h _ _ _ _ _

theorem faults_only_fill_rect (x y w hh : Int) (color : Word) (s : State) :
    FaultsOnly C (fillRectBody x y w hh color) s :=
  faults_only_need_then h.unset fun _ _ => faults_only_need_then h.unset fun _ _ =>
  faults_only_only_if fun _ => faults_only_window_stream h _ _ _ _ _ _ _

theorem faults_only_fill_screen (color : Word) (s : State) : FaultsOnly C (fillScreen color) s :=
  faults_only_need_then h.unset fun _ _ => faults_only_need_then h.unset fun _ _ =>
  faults_only_window_stream h _ _ _ _ _ _ _

theorem faults_only_draw_line (l : Line) (color : Word) (s : State) : FaultsOnly C (drawLine l color) s := by
  refine faults_only_for_each _ (fun r t => ?_) s
  unfold flushRun
  split <;> split
  · exact faults_only_draw_pixel h _ _ _ _
  · exact faults_only_fast_hline h _ _ _ _ _
  · exact faults_only_draw_pixel h _ _ _ _
  · exact faults_only_fast_vline h _ _ _ _ _

theorem faults_only_read_box (asSize : Bool) (s : State) : FaultsOnly C (readBox asSize) s :=
  faults_only_need_then h.unset fun _ _ => faults_only_need_then h.unset fun _ _ =>
  faults_only_need_then h.unset fun _ _ => faults_only_need_then h.unset fun _ _ => rfl

end

/-! ## Orientation and initialisation -/

/-- The stored index is below the stored length and reaches a record of the table. -/
def RotationReaches (d : Display) : Prop :=
  ∀ k ∈ d.rotation, (∀ n ∈ d.rotationsLen, k.toNat < n.toNat) ∧ ∀ table ∈ d.rot, k.toNat < table.length

/-- The stored length of a legal table is the table's, so an index below the one is below the other. -/
theorem rotation_reaches_of_table_ok {d : Display} (ht : TableOk d)
    (h : ∀ k ∈ d.rotation, ∀ n ∈ d.rotationsLen, k.toNat < n.toNat) : RotationReaches d := by
  intro k hk
  refine ⟨h k hk, fun table hrot => ?_⟩
  obtain ⟨-, hle, hn, -⟩ := ht table hrot
  have hlt := h k hk _ hn
  rwa [BitVec.toNat_ofNat, Nat.mod_eq_of_lt (by omega)] at hlt

theorem same_display_composes : Composes fun s t : State => t.display = s.display where
  refl _ := rfl
  trans _ _ _ h1 h2 := h2.trans h1
  emits _ _ := rfl

section
variable {C : List Cause} (h : AdmitsPanel C)
include h

/-- `set_rotation()` raises `ROT_RANGE` only where the index does not reach a record. -/
theorem faults_only_set_rotation {s : State} (hr : RotationReaches s.display ∨ .rotRange ∈ C) :
    FaultsOnly C setRotation s := by
  refine faults_only_need_then h.unset fun k hk => faults_only_need_then h.unset fun n hn => ?_
  by_cases hge : k.toNat ≥ n.toNat
  · have hc : .rotRange ∈ C := hr.resolve_left fun hr => by have := (hr k hk).1 n hn; omega
    rw [only_if_pos hge]
    exact faults_only_of_error (bind_error (raise_apply _ _ _) _) hc
  · rw [only_if_neg hge, pure_bind]
    refine faults_only_need_then h.unset fun table htable => ?_
    split
    · rename_i hnone
      have hc : .rotRange ∈ C := hr.resolve_left fun hr => by
        have := (hr k hk).2 table htable
        rw [List.getElem?_eq_none_iff] at hnone
        omega
      exact faults_only_raise hc _ _
    · exact faults_only_need_then h.unset fun _ _ => faults_only_bind rfl fun _ _ => faults_only_bind rfl fun _ _ =>
        faults_only_bind (faults_only_box_reset h _) fun _ _ => faults_only_write_cmd h.hal _ _ _

/-- The panel's reset and initialisation leave the index, the length and the table for `set_rotation()` as they are. -/
theorem faults_only_init_body {s : State} (hr : RotationReaches s.display ∨ .rotRange ∈ C) :
    FaultsOnly C initBody s := by
  refine faults_only_bind_of_ok (faults_only_hard_reset h.hal s) fun _ t ht =>
    faults_only_need_then h.unset fun c _ =>
    faults_only_bind_of_ok (faults_only_panel_init h c t) fun _ u hu => faults_only_bind (faults_only_set_rotation h ?_)
      fun _ _ => faults_only_bind rfl fun _ _ => faults_only_bind (faults_only_fill_screen h _ _) fun _ _ => rfl
  have hts : t.display = s.display := by
    simpa only [after_ok ht] using keeps_hard_reset same_display_composes s
  have hut : u.display = t.display := by
    simpa only [after_ok hu] using keeps_panel_init same_display_composes c t
  rwa [hut, hts]

end

/-! ## Construction and buffers -/

theorem faults_only_parse_script {C : List Cause} (hrange : .bufRange ∈ C) (hscript : .cfgScript ∈ C)
    (addr len : Nat) (s : State) : FaultsOnly C (parseScript addr len) s := by
  refine faults_only_bind (faults_only_check_range hrange _ _ _) fun _ t =>
    faults_only_bind (faults_only_of_test (check_script_cap_apply len t) hscript rfl) fun _ _ =>
    faults_only_bind (faults_only_mem_read hrange _ _ _) fun _ _ => ?_
  split
  · rfl
  · exact faults_only_raise hscript _ _

theorem faults_only_choose_script {C : List Cause} (hrange : .bufRange ∈ C) (hscript : .cfgScript ∈ C) (ci : Bool)
    (addr len : Nat) (s : State) : FaultsOnly C (chooseScript ci addr len) s := by
  unfold chooseScript
  split
  · exact faults_only_bind (faults_only_parse_script hrange hscript _ _ _) fun _ _ => rfl
  · rfl

theorem faults_only_choose_table {C : List Cause} (h : .cfgRotTable ∈ C) (nrec dw dh : Word) (recs : List RotRec)
    (s : State) : FaultsOnly C (chooseTable nrec dw dh recs) s := by
  unfold chooseTable
  split
  · rcases hp : findPreset s.params.presets dw dh with _ | table
    · exact faults_only_of_error (preset_table_none hp) h
    · exact faults_only_of_ok (preset_table_some hp) rfl
  · rfl

theorem faults_only_check_table {C : List Cause} (h : .cfgRotTable ∈ C) (table : List RotRec) (s : State) :
    FaultsOnly C (checkTable table) s := by
  unfold checkTable
  split
  · exact faults_only_raise h _ _
  · rfl

theorem faults_only_config_body {C : List Cause} (hconf : .reconfig ∈ C) (hdc : .cfgNoDc ∈ C)
    (htable : .cfgRotTable ∈ C) (hrange : .bufRange ∈ C) (hscript : .cfgScript ∈ C) (f : ConfigFlags)
    (dw dh rotation options nrec : Word) (addr len : Nat) (recs : List RotRec) (s : State) :
    FaultsOnly C (configBody f dw dh rotation options nrec addr len recs) s :=
  faults_only_bind (faults_only_of_test (guard_unconfigured_apply s) hconf rfl) fun _ _ =>
  faults_only_bind (faults_only_only_if fun _ => faults_only_raise hdc _ _) fun _ _ =>
  faults_only_bind (faults_only_only_if fun _ => faults_only_raise htable _ _) fun _ _ =>
  faults_only_bind (faults_only_choose_table htable _ _ _ _ _) fun _ _ =>
  faults_only_bind (faults_only_check_table htable _ _) fun _ _ =>
  faults_only_bind (faults_only_choose_script hrange hscript _ _ _ _) fun _ _ =>
  faults_only_bind rfl fun _ _ => rfl

theorem faults_only_mapbits_body {C : List Cause} (hrange : .bufRange ∈ C) (hwidth : .badOperand ∈ C)
    (hcap : .outOverflow ∈ C) (src srclen dst dstcap width : Nat) (fg bg : Word) (s : State) :
    FaultsOnly C (mapbitsBody src srclen dst dstcap width fg bg) s :=
  faults_only_bind (faults_only_only_if fun _ => faults_only_raise hwidth _ _) fun _ _ =>
  faults_only_bind (faults_only_check_range hrange _ _ _) fun _ _ =>
  faults_only_bind (faults_only_check_range hrange _ _ _) fun _ _ =>
  faults_only_bind (faults_only_mem_read hrange _ _ _) fun _ _ =>
  faults_only_bind (faults_only_only_if fun _ => faults_only_raise hcap _ _) fun _ _ =>
  faults_only_bind (faults_only_mem_write hrange _ _ _) fun _ _ => rfl

/-! ## Whole operations -/

/-- Run from `s`, the instruction enters no fault but those of `C`. -/
def ExecFaultsOnly (C : List Cause) (i : Instr) (s : State) : Prop :=
  ∀ t, exec i s = .next t → s.fault = false → t.fault = true → ∃ c ∈ C, t.cause = c.code

theorem exec_faults_only_of_body {C : List Cause} {i : Instr} {len : Nat} {op : Op Unit} {s : State}
    (hexec : exec i s = perform len op s) (h : FaultsOnly C op s) : ExecFaultsOnly C i s := by
  intro t ht hs hf
  rw [hexec] at ht
  unfold FaultsOnly at h
  rcases perform_cases len op s with ⟨u, hop, hnext⟩ | ⟨e, u, hop, hnext⟩
  · rw [hnext] at ht
    cases ht
    rw [hop] at h
    have hu : u.fault = s.fault := h
    rw [completed_fault, hu, hs] at hf
    cases hf
  · rw [hnext] at ht
    cases ht
    rw [hop] at h
    exact ⟨e.cause, h, rfl⟩

/-- The configuration guard changes nothing, so the body is asked only from the state before it. -/
theorem exec_faults_only_of_guarded {C : List Cause} (hC : AdmitsPanel C) {i : Instr} {len : Nat} {op : Op Unit}
    {s : State} (hexec : exec i s = perform len (guardConfigured >>= fun _ => op) s) (h : FaultsOnly C op s) :
    ExecFaultsOnly C i s := by
  refine exec_faults_only_of_body hexec
    (faults_only_bind_of_ok (faults_only_guard_configured hC.guard s) fun _ t ht => ?_)
  rw [guard_configured_apply] at ht
  split at ht
  · cases ht
    exact h
  · cases ht

theorem exec_faults_only_of_geometry {C : List Cause} (hC : AdmitsPanel C) {i : Instr} {len : Nat} {op : Op Unit}
    {s : State} (hexec : exec i s = perform len (guardConfigured >>= fun _ => needGeom >>= fun _ => op) s)
    (h : ∀ t, FaultsOnly C op t) : ExecFaultsOnly C i s :=
  exec_faults_only_of_guarded hC hexec (faults_only_bind (faults_only_need_geom hC.unset s) fun _ t => h t)

/-- The Display as `ROTATION` leaves it for `set_rotation()` (44_orientation_dirtybox.md R183). -/
def withRotation (d : Display) (value : Byte) : Display :=
  { d with rotation := some (BitVec.ofNat 8 (value.toNat % 4)) }

theorem exec_rotation_faults_only {C : List Cause} (hC : AdmitsPanel C) {value : Byte} {s : State}
    (hr : RotationReaches (withRotation s.display value) ∨ .rotRange ∈ C) : ExecFaultsOnly C (.rotation value) s :=
  exec_faults_only_of_guarded hC rfl (faults_only_bind_of_ok (faults_only_of_ok (update_display_apply _ s) rfl)
    fun _ t ht => by cases ht; exact faults_only_set_rotation hC hr)

theorem exec_init_faults_only {C : List Cause} (hC : AdmitsPanel C) {s : State}
    (hr : RotationReaches s.display ∨ .rotRange ∈ C) : ExecFaultsOnly C .init s :=
  exec_faults_only_of_guarded hC rfl (faults_only_init_body hC hr)

/-- The causes each operation can raise. -/
def causesOf : Opcode → List Cause
  | .color565 => []
  | .mapbits => [.badOperand, .bufRange, .outOverflow]
  | .config => [.reconfig, .cfgNoDc, .cfgRotTable, .bufRange, .cfgScript]
  | .rotation | .init => .rotRange :: panelCauses
  | .writeCmd | .blit => .bufRange :: panelCauses
  | _ => panelCauses

/-- EVERY fault an instruction enters, from any unfaulted state and whatever the HAL answers, is one of its
operation's. -/
theorem exec_faults_only (i : Instr) (s : State) : ExecFaultsOnly (causesOf i.opcode) i s := by
  have hp := panel_causes_admit
  have hbuf := admits_panel_cons hp .bufRange
  have hrot := admits_panel_cons hp .rotRange
  cases i with
  | writeCmd =>
    exact exec_faults_only_of_guarded hbuf rfl
      (faults_only_bind (faults_only_mem_read (by decide) _ _ _) fun _ _ => faults_only_write_cmd hbuf.hal _ _ _)
  | setWindow =>
    exact exec_faults_only_of_geometry hp rfl (faults_only_window_then hp _ _ _ _ fun _ => rfl)
  | fillBuf => exact exec_faults_only_of_guarded hp rfl (faults_only_stream hp.hal _ _ _)
  | pixel => exact exec_faults_only_of_geometry hp rfl (faults_only_draw_pixel hp _ _ _)
  | hline => exact exec_faults_only_of_geometry hp rfl (faults_only_fast_hline hp _ _ _ _)
  | vline => exact exec_faults_only_of_geometry hp rfl (faults_only_fast_vline hp _ _ _ _)
  | rect => exact exec_faults_only_of_geometry hp rfl (faults_only_draw_rect hp _ _ _ _ _)
  | fillRect => exact exec_faults_only_of_geometry hp rfl (faults_only_fill_rect hp _ _ _ _ _)
  | fill => exact exec_faults_only_of_geometry hp rfl (faults_only_fill_screen hp _)
  | line => exact exec_faults_only_of_geometry hp rfl (faults_only_draw_line hp _ _)
  | blit =>
    exact exec_faults_only_of_geometry hbuf rfl fun _ =>
      faults_only_bind (faults_only_mem_read (by decide) _ _ _) fun _ _ =>
      faults_only_window_then hbuf _ _ _ _ (faults_only_pixel_phase hbuf.hal _) _
  | mapbits =>
    exact exec_faults_only_of_body rfl (faults_only_mapbits_body (C := causesOf .mapbits)
      (by decide) (by decide) (by decide) _ _ _ _ _ _ _ _)
  | rotation => exact exec_rotation_faults_only hrot (.inr (by decide))
  | offset => exact exec_faults_only_of_guarded hp rfl rfl
  | madctlGet =>
    exact exec_faults_only_of_guarded hp rfl (faults_only_need_then hp.unset fun _ _ => rfl)
  | madctlSet =>
    exact exec_faults_only_of_guarded hp rfl (faults_only_bind rfl fun _ _ =>
      faults_only_bind (faults_only_write_cmd hp.hal _ _ _) fun _ _ => rfl)
  | boundingGet => exact exec_faults_only_of_geometry hp rfl (faults_only_read_box hp _)
  | boundingSet =>
    exact exec_faults_only_of_geometry hp rfl fun _ => faults_only_bind (faults_only_read_box hp _ _) fun _ _ =>
      faults_only_bind rfl fun _ _ => faults_only_box_reset hp _
  | config =>
    exact exec_faults_only_of_body rfl (faults_only_config_body (C := causesOf .config)
      (by decide) (by decide) (by decide) (by decide) (by decide) _ _ _ _ _ _ _ _ _ _)
  | init => exact exec_init_faults_only hrot (.inr (by decide))
  | hardReset => exact exec_faults_only_of_guarded hp rfl (faults_only_hard_reset hp.hal _)
  | softReset => exact exec_faults_only_of_guarded hp rfl (faults_only_soft_reset hp.hal _)
  | sleepMode | vscrdef | vscsad => exact exec_faults_only_of_guarded hp rfl (faults_only_write_cmd hp.hal _ _ _)
  | inversionMode =>
    exact exec_faults_only_of_guarded hp rfl (faults_only_bind rfl fun _ _ => faults_only_write_cmd hp.hal _ _ _)
  | on | off => exact exec_faults_only_of_guarded hp rfl (faults_only_bind rfl fun _ _ => rfl)
  | color565 r g b =>
    exact exec_faults_only_of_body (show exec (.color565 r g b) s = execColor565 r g b s from rfl) rfl

end Sys2Proof.Proofs

/-! PROOFS. The two guards and `ROT_RANGE` (60_exceptions.md R242, R243, R248). -/

namespace Sys2Proof.Proofs

open Sys2Proof.Machine Sys2Proof.Safety Sys2Proof.Laws

/-! ## The guards -/

/-- Every operation but three begins with the configuration guard. -/
theorem exec_guarded {i : Instr} (h : i.opcode ∉ [Opcode.config, .color565, .mapbits]) (s : State) :
    ∃ op, exec i s = perform i.words (guardConfigured >>= fun _ => op) s := by
  cases i with
  | config | color565 | mapbits => exact absurd h (by simp [Instr.opcode])
  | _ => exact ⟨_, rfl⟩

/-- The operations that read the geometry begin with both guards. -/
theorem exec_geometry_guarded {i : Instr}
    (h : i.opcode ∈ [Opcode.setWindow, .pixel, .hline, .vline, .rect, .fillRect, .fill, .line, .blit, .boundingGet,
      .boundingSet]) (s : State) :
    ∃ op, exec i s = perform i.words (guardConfigured >>= fun _ => needGeom >>= fun _ => op) s := by
  cases i with
  | setWindow | pixel | hline | vline | rect | fillRect | fill | line | blit | boundingGet | boundingSet =>
    exact ⟨_, rfl⟩
  | _ => exact absurd h (by simp [Instr.opcode])

theorem exec_unconfigured {i : Instr} (h : i.opcode ∉ [Opcode.config, .color565, .mapbits]) {s : State}
    (hs : s.configured = false) : exec i s = .next (faulted s 2 0) := by
  obtain ⟨op, hexec⟩ := exec_guarded h s
  rw [hexec, perform_unconfigured hs]
  rfl

theorem guard_configured_ok {s : State} (h : s.configured = true) : guardConfigured s = .ok () s := by
  rw [guard_configured_apply, if_pos h]

/-- Past its configuration guard, an operation faults as its body does. -/
theorem exec_guarded_faulted {i : Instr} {len : Nat} {op : Op Unit} {s t : State} {c : Cause} {n : Nat} {v : DWord}
    (hexec : exec i s = perform len (guardConfigured >>= fun _ => op) s) (hs : s.configured = true)
    (h : op s = .error ⟨c, n⟩ t) (hv : infoWord n = v) : exec i s = .next (faulted t c.code v) := by
  rw [hexec]
  exact perform_faulted ((bind_ok (guard_configured_ok hs) _).trans h) hv

/-- Settles O25: the guard is the first action of all but three operations, whose own causes are other ones. -/
theorem notConfigured : Obligations.NotConfigured := by
  intro i s hs
  refine ⟨fun hi => exec_unconfigured hi hs, fun hi hfault t ht hf => ?_⟩
  obtain ⟨c, hc, hcause⟩ := exec_faults_only i s t ht hfault hf
  have other : ∀ o ∈ [Opcode.config, .color565, .mapbits], ∀ c ∈ causesOf o, c.code ≠ 2 := by decide
  rw [hcause]
  exact other _ hi c hc

/-- Settles O26: both reads of a field that nothing has written come right after the configuration guard. -/
theorem unsetState : Obligations.UnsetState := by
  intro i s hs
  constructor
  · intro hi hgeom
    have hneed : needGeom s = .error ⟨.unsetState, 2⟩ s := by rw [need_geom_apply, if_neg (by simp [hgeom])]
    obtain ⟨op, hexec⟩ := exec_geometry_guarded hi s
    exact exec_guarded_faulted hexec hs (bind_error hneed _) rfl
  · rintro rfl hunset
    exact exec_guarded_faulted rfl hs (bind_error (need_none 9 hunset) _) rfl

/-! ## `ROT_RANGE` -/

theorem exec_rotation_out_of_range {value n : Byte} {s : State} (hs : s.configured = true)
    (hn : s.display.rotationsLen = some n) (hge : n.toNat ≤ value.toNat % 4) :
    exec (.rotation value) s = .next (faulted { s with display := withRotation s.display value } 7
      (BitVec.ofNat 32 (value.toNat % 4))) := by
  have hk : (BitVec.ofNat 8 (value.toNat % 4)).toNat = value.toNat % 4 := by
    rw [BitVec.toNat_ofNat, Nat.mod_eq_of_lt (by omega)]
  have hrange := set_rotation_range (s := { s with display := withRotation s.display value }) rfl hn (by rwa [hk])
  rw [hk] at hrange
  have hfits : value.toNat % 4 < 2 ^ 32 := by omega
  refine exec_guarded_faulted (c := .rotRange) rfl hs ?_ (info_word_of_lt hfits)
  rw [bind_ok (update_display_apply _ s)]
  exact hrange

/-- In an unfaulted state with the invariant the stored index reaches a record. -/
theorem rotation_reaches_of_inv {s : State} (hinv : Inv s) (hs : s.fault = false) : RotationReaches s.display := by
  obtain ⟨-, -, -, htable, hrotation⟩ := hinv.config
  exact rotation_reaches_of_table_ok htable fun k hk n hn => (hrotation k hk n hn).resolve_right (by simp [hs])

/-- Below the table's length, the index that `ROTATION` stores reaches a record too. -/
theorem rotation_reaches_of_lt {d : Display} {value n : Byte} (ht : TableOk d) (hn : d.rotationsLen = some n)
    (hlt : value.toNat % 4 < n.toNat) : RotationReaches (withRotation d value) := by
  refine rotation_reaches_of_table_ok ht ?_
  rintro _ ⟨⟩ m hm
  have hmn : m = n := Option.some.inj (hm.symm.trans hn)
  rw [hmn, BitVec.toNat_ofNat]
  omega

theorem rot_range_only_by_rotation_or_init {o : Opcode} :
    ∀ c ∈ causesOf o, c.code = 7 → o = .rotation ∨ o = .init := by
  cases o <;> decide

theorem panel_causes_ne_rot_range : ∀ c ∈ panelCauses, c.code ≠ 7 := by decide

theorem exec_init_cause_ne_rot_range {s t : State} (hinv : Inv s) (hs : s.fault = false) (ht : exec .init s = .next t)
    (hf : t.fault = true) : t.cause ≠ 7 := by
  have hreach := rotation_reaches_of_inv hinv hs
  obtain ⟨c, hc, hcause⟩ := exec_init_faults_only panel_causes_admit (.inl hreach) t ht hs hf
  rw [hcause]
  exact panel_causes_ne_rot_range c hc

theorem exec_rotation_rot_range {value : Byte} {s t : State} (hinv : Inv s) (hs : s.fault = false)
    (ht : exec (.rotation value) s = .next t) (hf : t.fault = true) (hcause : t.cause = 7) :
    ∃ n : Byte, s.display.rotationsLen = some n ∧ n.toNat ≤ value.toNat % 4 := by
  obtain ⟨-, hset, -, htable, -⟩ := hinv.config
  have hconf : s.configured = true := by
    by_contra hc
    rw [exec_unconfigured (by simp [Instr.opcode]) (by simpa using hc)] at ht
    cases ht
    exact absurd hcause (show (2 : Byte) ≠ 7 by decide)
  obtain ⟨-, -, -, hlen, -⟩ := hset hconf
  obtain ⟨n, hn⟩ := Option.isSome_iff_exists.1 hlen
  refine ⟨n, hn, ?_⟩
  by_contra hlt
  have hreach := rotation_reaches_of_lt htable hn (Nat.lt_of_not_le hlt)
  obtain ⟨c, hc, hcode⟩ := exec_rotation_faults_only panel_causes_admit (.inl hreach) t ht hs hf
  exact panel_causes_ne_rot_range c hc (hcode.symm.trans hcause)

/-- Settles O32: only `ROTATION` and `INIT` take a record; the invariant keeps the stored index of `INIT` in range. -/
theorem rotationRange : Obligations.RotationRange := by
  refine ⟨fun value n s => exec_rotation_out_of_range, fun i s t hinv hs ht hf hcause => ?_⟩
  obtain ⟨c, hc, hcode⟩ := exec_faults_only i s t ht hs hf
  cases i with
  | rotation value =>
    obtain ⟨n, hn, hle⟩ := exec_rotation_rot_range hinv hs ht hf hcause
    exact ⟨value, n, rfl, hn, hle, by omega⟩
  | init => exact absurd hcause (exec_init_cause_ne_rot_range hinv hs ht hf)
  | _ =>
    have := rot_range_only_by_rotation_or_init c hc (hcode.symm.trans hcause)
    simp [Instr.opcode] at this

end Sys2Proof.Proofs

/-! PROOFS. The range faults of buffers and the faults of `CONFIG` up to its script: each test in its order, with
nothing written (60_exceptions.md R244, R245, R250, R254; 45_lifecycle.md R201). -/

namespace Sys2Proof.Proofs

open Sys2Proof.Machine Sys2Proof.Safety Sys2Proof.Laws

/-! ## Buffers -/

theorem mem_read_out_of_range {addr n : Nat} {s : State} (h : s.params.bmemSize < addr + n) :
    memRead addr n s = .error ⟨.bufRange, addr⟩ s := by rw [mem_read_apply, if_pos h]

theorem check_range_out_of_range {addr n : Nat} {s : State} (h : s.params.bmemSize < addr + n) :
    checkRange addr n s = .error ⟨.bufRange, addr⟩ s := by rw [check_range_apply, if_pos h]

theorem check_range_in_range {addr n : Nat} {s : State} (h : addr + n ≤ s.params.bmemSize) :
    checkRange addr n s = .ok () s := by rw [check_range_apply, if_neg (Nat.not_lt.2 h)]

theorem mem_read_in_range {addr n : Nat} {s : State} (h : addr + n ≤ s.params.bmemSize) :
    memRead addr n s = .ok (readBytes s.bmem addr n) s := by rw [mem_read_apply, if_neg (Nat.not_lt.2 h)]

theorem exec_write_cmd_out_of_range (cmd : Byte) {addr len : DWord} {s : State} (hs : s.configured = true)
    (h : s.params.bmemSize < addr.toNat + len.toNat) :
    exec (.writeCmd cmd addr len) s = .next (faulted s 8 addr) :=
  exec_guarded_faulted (c := .bufRange) rfl hs (bind_error (mem_read_out_of_range h) _) (info_word_toNat addr)

theorem exec_blit_out_of_range {addr len : DWord} (x y w h : Word) {s : State} (hs : s.configured = true)
    (hgeom : s.geomValid = true) (hlt : s.params.bmemSize < addr.toNat + len.toNat) :
    exec (.blit addr len x y w h) s = .next (faulted s 8 addr) := by
  have hneed : needGeom s = .ok () s := by rw [need_geom_apply, if_pos hgeom]
  refine exec_guarded_faulted (c := .bufRange) rfl hs ?_ (info_word_toNat addr)
  rw [bind_ok hneed]
  exact bind_error (mem_read_out_of_range hlt) _

theorem exec_mapbits_faulted {src srclen dst dstcap : DWord} {width fg bg : Word} {s : State} {c : Cause} {n : Nat}
    {v : DWord} (h : mapbitsBody src.toNat srclen.toNat dst.toNat dstcap.toNat width.toNat fg bg s = .error ⟨c, n⟩ s)
    (hv : infoWord n = v) : exec (.mapbits src srclen dst dstcap width fg bg) s = .next (faulted s c.code v) := by
  have hexec : exec (.mapbits src srclen dst dstcap width fg bg) s =
      execMapbits src srclen dst dstcap width fg bg s := rfl
  rw [hexec]
  exact perform_faulted h hv

/-- `MAPBITS` with a width tests its source, then its destination (43_buffers.md R173). -/
theorem exec_mapbits_out_of_range (src srclen dst dstcap : DWord) {width : Word} (fg bg : Word) (s : State)
    (hw : width ≠ 0) :
    (s.params.bmemSize < src.toNat + srclen.toNat →
      exec (.mapbits src srclen dst dstcap width fg bg) s = .next (faulted s 8 src)) ∧
    (src.toNat + srclen.toNat ≤ s.params.bmemSize → s.params.bmemSize < dst.toNat + dstcap.toNat →
      exec (.mapbits src srclen dst dstcap width fg bg) s = .next (faulted s 8 dst)) := by
  have hpos : ¬ width.toNat = 0 := fun h => hw (BitVec.eq_of_toNat_eq h)
  constructor
  · intro hsrc
    refine exec_mapbits_faulted (c := .bufRange) ?_ (info_word_toNat src)
    rw [mapbitsBody, only_if_neg hpos, pure_bind, bind_error (check_range_out_of_range hsrc)]
  · intro hsrc hdst
    refine exec_mapbits_faulted (c := .bufRange) ?_ (info_word_toNat dst)
    rw [mapbitsBody, only_if_neg hpos, pure_bind, bind_ok (check_range_in_range hsrc),
      bind_error (check_range_out_of_range hdst)]

/-! ## The rotation table of `CONFIG` -/

/-- The table that `CONFIG` takes: a built-in one when the descriptor holds none, else the caller's (45_lifecycle.md
R201). -/
def TableTaken (s : State) (nrec dw dh : Word) (recs table : List RotRec) : Prop :=
  if nrec = 0 then IsBuiltIn s.params.presets dw dh table else recs = table

theorem choose_table_ok {s : State} {nrec dw dh : Word} {recs table : List RotRec}
    (h : TableTaken s nrec dw dh recs table) : chooseTable nrec dw dh recs s = .ok table s := by
  unfold TableTaken at h
  unfold chooseTable
  split at h
  · rw [if_pos ‹_›]
    exact preset_table_some ((find_preset_eq_some_iff _ _ _ _).2 h)
  · rw [if_neg ‹_›, h]
    rfl

theorem find_preset_eq_none {presets : List Preset} {dw dh : Word}
    (h : ∀ p ∈ presets, ¬ (p.displayWidth = dw ∧ p.displayHeight = dh)) : findPreset presets dw dh = none := by
  rw [Option.eq_none_iff_forall_ne_some]
  intro table htable
  obtain ⟨before, entry, later, rfl, hdw, hdh, -, -⟩ := (find_preset_eq_some_iff _ _ _ _).1 htable
  exact h entry (by simp) ⟨hdw, hdh⟩

theorem choose_table_error {s : State} {dw dh : Word} (recs : List RotRec)
    (h : ∀ p ∈ s.params.presets, ¬ (p.displayWidth = dw ∧ p.displayHeight = dh)) :
    chooseTable 0 dw dh recs s = .error ⟨.cfgRotTable, 0⟩ s := by
  rw [chooseTable, if_pos rfl]
  exact preset_table_none (find_preset_eq_none h)

/-- A built-in table has four records and a descriptor at most 255. -/
theorem table_taken_length_le {s : State} {nrec dw dh : Word} {recs table : List RotRec}
    (h : TableTaken s nrec dw dh recs table) (hrecs : recs.length ≤ 255) : table.length ≤ 255 := by
  unfold TableTaken at h
  split at h
  · obtain ⟨-, entry, -, -, -, -, rfl, -⟩ := h
    simp
  · rwa [← h]

theorem is_empty_area_iff (r : RotRec) : RotRec.isEmptyArea r = true ↔ r.width = 0 ∨ r.height = 0 := by
  simp [RotRec.isEmptyArea]

theorem is_empty_area_eq_false_iff (r : RotRec) : RotRec.isEmptyArea r = false ↔ r.width ≠ 0 ∧ r.height ≠ 0 := by
  simp [RotRec.isEmptyArea]

theorem check_table_ok {table : List RotRec} (h : ∀ r ∈ table, r.width ≠ 0 ∧ r.height ≠ 0) :
    checkTable table = pure () := by
  have hnone : firstEmptyArea table = none := by
    simpa [firstEmptyArea, List.findIdx?_eq_none_iff, is_empty_area_eq_false_iff] using h
  simp only [checkTable, hnone]

theorem check_table_error {good later : List RotRec} {bad : RotRec} (h : ∀ r ∈ good, r.width ≠ 0 ∧ r.height ≠ 0)
    (hbad : bad.width = 0 ∨ bad.height = 0) :
    checkTable (good ++ bad :: later) = raise .cfgRotTable (65536 + good.length) := by
  have hsome : firstEmptyArea (good ++ bad :: later) = some good.length := by
    have hgood : good.findIdx? RotRec.isEmptyArea = none := by
      simpa [List.findIdx?_eq_none_iff, is_empty_area_eq_false_iff] using h
    rw [firstEmptyArea, List.findIdx?_append, hgood, List.findIdx?_cons, if_pos ((is_empty_area_iff bad).2 hbad)]
    simp
  simp only [checkTable, hsome]

/-! ## The tests of `CONFIG` in order -/

theorem guard_unconfigured_ok {s : State} (h : s.configured = false) : guardUnconfigured s = .ok () s := by
  rw [guard_unconfigured_apply, if_neg (by simp [h])]

theorem guard_unconfigured_error {s : State} (h : s.configured = true) :
    guardUnconfigured s = .error ⟨.reconfig, 0⟩ s := by
  rw [guard_unconfigured_apply, if_pos h]

theorem exec_config_faulted {f : ConfigFlags} {dw dh rotation options nrec : Word} {addr len : DWord}
    {recs : List RotRec} {s : State} {c : Cause} {n : Nat} {v : DWord}
    (h : configBody f dw dh rotation options nrec addr.toNat len.toNat recs s = .error ⟨c, n⟩ s)
    (hv : infoWord n = v) :
    exec (.config f dw dh rotation options nrec addr len recs) s = .next (faulted s c.code v) :=
  perform_faulted h hv

section
variable {f : ConfigFlags} {dw dh nrec : Word} {recs : List RotRec} {s : State} (rotation options : Word)
  (addr len : Nat)

theorem config_body_reconfig (hs : s.configured = true) :
    configBody f dw dh rotation options nrec addr len recs s = .error ⟨.reconfig, 0⟩ s := by
  rw [configBody, bind_error (guard_unconfigured_error hs)]

theorem config_body_no_dc (hs : s.configured = false) (hdc : f.dc = false) :
    configBody f dw dh rotation options nrec addr len recs s = .error ⟨.cfgNoDc, 0⟩ s := by
  rw [configBody, bind_ok (guard_unconfigured_ok hs), only_if_pos hdc, bind_error (raise_apply _ _ _)]

/-- Past its first two tests, `CONFIG` is its table tests and what follows. -/
theorem config_body_with_dc (hs : s.configured = false) (hdc : f.dc = true) :
    configBody f dw dh rotation options nrec addr len recs s = (do
      onlyIf (nrec.toNat > nrecMax) (raise .cfgRotTable nrec.toNat)
      let table ← chooseTable nrec dw dh recs
      checkTable table
      let script ← chooseScript f.ci addr len
      updateDisplay (configuredDisplay f dw dh rotation options table script)
      setConfigured) s := by
  rw [configBody, bind_ok (guard_unconfigured_ok hs), only_if_neg (by simp [hdc]), pure_bind]

theorem config_body_nrec (hs : s.configured = false) (hdc : f.dc = true) (hn : 255 < nrec.toNat) :
    configBody f dw dh rotation options nrec addr len recs s = .error ⟨.cfgRotTable, nrec.toNat⟩ s := by
  have hgt : nrec.toNat > nrecMax := hn
  rw [config_body_with_dc _ _ _ _ hs hdc, only_if_pos hgt, bind_error (raise_apply _ _ _)]

theorem config_body_no_preset (hs : s.configured = false) (hdc : f.dc = true)
    (h : ∀ p ∈ s.params.presets, ¬ (p.displayWidth = dw ∧ p.displayHeight = dh)) :
    configBody f dw dh rotation options 0 addr len recs s = .error ⟨.cfgRotTable, 0⟩ s := by
  rw [config_body_with_dc _ _ _ _ hs hdc, only_if_neg (by decide), pure_bind, bind_error (choose_table_error recs h)]

/-- Past its count test, `CONFIG` checks the table it takes, then the script. -/
theorem config_body_with_table {table : List RotRec} (hs : s.configured = false) (hdc : f.dc = true)
    (hn : nrec.toNat ≤ 255) (ht : TableTaken s nrec dw dh recs table) :
    configBody f dw dh rotation options nrec addr len recs s = (do
      checkTable table
      let script ← chooseScript f.ci addr len
      updateDisplay (configuredDisplay f dw dh rotation options table script)
      setConfigured) s := by
  have hle : ¬ nrec.toNat > nrecMax := Nat.not_lt.2 hn
  rw [config_body_with_dc _ _ _ _ hs hdc, only_if_neg hle, pure_bind, bind_ok (choose_table_ok ht)]

theorem config_body_empty_area {good later : List RotRec} {bad : RotRec} (hs : s.configured = false) (hdc : f.dc = true)
    (hn : nrec.toNat ≤ 255) (ht : TableTaken s nrec dw dh recs (good ++ bad :: later))
    (hgood : ∀ r ∈ good, r.width ≠ 0 ∧ r.height ≠ 0) (hbad : bad.width = 0 ∨ bad.height = 0) :
    configBody f dw dh rotation options nrec addr len recs s = .error ⟨.cfgRotTable, 65536 + good.length⟩ s := by
  rw [config_body_with_table _ _ _ _ hs hdc hn ht, check_table_error hgood hbad, bind_error (raise_apply _ _ _)]

/-- With every earlier test passed, a script that cannot be parsed is the fault of `CONFIG`. -/
theorem config_body_script_error {table : List RotRec} {e : Raised} (hs : s.configured = false) (hdc : f.dc = true)
    (hn : nrec.toNat ≤ 255) (ht : TableTaken s nrec dw dh recs table) (hrecs : ∀ r ∈ table, r.width ≠ 0 ∧ r.height ≠ 0)
    (hci : f.ci = true) (hscript : parseScript addr len s = .error e s) :
    configBody f dw dh rotation options nrec addr len recs s = .error e s := by
  have hchoose : chooseScript f.ci addr len s = .error e s := by
    rw [chooseScript, if_pos hci, bind_error hscript]
  rw [config_body_with_table _ _ _ _ hs hdc hn ht, check_table_ok hrecs, pure_bind, bind_error hchoose]

end

theorem info_word_of_word (v : Word) : infoWord v.toNat = v.setWidth 32 := by
  have hlt := v.isLt
  rw [info_word_of_lt (by omega), BitVec.ofNat_toNat]

/-- Settles O29: each fault is the body's first failing test. -/
theorem configFaults : Obligations.ConfigFaults := by
  intro f dw dh rotation options nrec addr len recs s
  refine ⟨fun hs => ?_, fun hs hdc => ?_, fun hs hdc hn => ?_, fun hs hdc hn hpresets => ?_,
    fun good later bad hs hdc hn hrecs ht hgood hbad => ?_⟩
  · exact exec_config_faulted (config_body_reconfig _ _ _ _ hs) rfl
  · exact exec_config_faulted (config_body_no_dc _ _ _ _ hs hdc) rfl
  · exact exec_config_faulted (config_body_nrec _ _ _ _ hs hdc hn) (info_word_of_word nrec)
  · subst hn
    exact exec_config_faulted (config_body_no_preset _ _ _ _ hs hdc hpresets) rfl
  · have hlen := table_taken_length_le ht hrecs
    rw [List.length_append] at hlen
    exact exec_config_faulted (config_body_empty_area _ _ _ _ hs hdc hn ht hgood hbad) (info_word_of_lt (by omega))

/-- Settles O27: in each operation the range check of the buffer stands before every effect. -/
theorem bufferRange : Obligations.BufferRange := by
  refine ⟨fun cmd addr len s => exec_write_cmd_out_of_range cmd, fun addr len x y w h s =>
    exec_blit_out_of_range x y w h, exec_mapbits_out_of_range,
    fun f dw dh rotation options nrec addr len recs table s hs hdc hn ht hrecs hci hlt => ?_⟩
  have hscript : parseScript addr.toNat len.toNat s = .error ⟨.bufRange, addr.toNat⟩ s :=
    bind_error (check_range_out_of_range hlt) _
  exact exec_config_faulted (config_body_script_error _ _ _ _ hs hdc hn ht hrecs hci hscript) (info_word_toNat addr)

end Sys2Proof.Proofs

/-! PROOFS. The parser of a custom-init script, one turn of its loop at a time, and the script faults of `CONFIG`
(45_lifecycle.md R202; 60_exceptions.md R246). -/

namespace Sys2Proof.Proofs

open Sys2Proof.Machine Sys2Proof.Safety Sys2Proof.Laws

/-! ## Bytes -/

theorem hi_byte_append (hi lo : Byte) : hiByte (hi ++ lo).toNat = hi := by
  have := hi.isLt
  have := lo.isLt
  rw [hiByte, BitVec.toNat_append, ← Nat.shiftLeft_add_eq_or_of_lt lo.isLt]
  apply BitVec.eq_of_toNat_eq
  rw [BitVec.toNat_ofNat]
  omega

theorem lo_byte_append (hi lo : Byte) : loByte (hi ++ lo).toNat = lo := by
  have := lo.isLt
  rw [loByte, BitVec.toNat_append, ← Nat.shiftLeft_add_eq_or_of_lt lo.isLt]
  apply BitVec.eq_of_toNat_eq
  rw [BitVec.toNat_ofNat]
  omega

theorem join_hi_lo (v : Word) : hiByte v.toNat ++ loByte v.toNat = v := by
  obtain ⟨hi, lo, rfl⟩ : ∃ hi lo : Byte, v = hi ++ lo := ⟨_, _, (header_fields v).symm⟩
  rw [hi_byte_append, lo_byte_append]

/-! ## The entry that bytes begin with -/

/-- The bytes of the delay that the flag byte of an entry announces. -/
def delaySize (flags : Byte) : Nat := if flags.getLsbD 0 then 2 else 0

theorem getD_at_offset (pre b : List Byte) (k : Nat) : (pre ++ b).getD (pre.length + k) 0 = b.getD k 0 := by
  rw [List.getD_append_right _ _ _ _ (Nat.le_add_right _ _), Nat.add_sub_cancel_left]

/-- The entry with these first three bytes, the first of them not 0, and the bytes after them. -/
def entryRead (n flags cmd : Byte) (rest : List Byte) : ScriptEntry :=
  { cmd := cmd
    data := rest.take (n.toNat - 1)
    delay := if flags.getLsbD 0 then some (rest.getD (n.toNat - 1) 0 ++ rest.getD n.toNat 0) else none }

/-- The well-formed entry that the bytes begin with, if there is one: what one turn of the parser's loop reads
(45_lifecycle.md R202). -/
def firstEntry : List Byte → Option ScriptEntry
  | n :: flags :: cmd :: rest =>
    if n.toNat = 0 ∨ flags &&& 0xFE ≠ 0 ∨ rest.length + 1 < n.toNat + delaySize flags then none
    else some (entryRead n flags cmd rest)
  | _ => none

/-! ## The bytes of an entry -/

theorem entry_bytes_length (e : ScriptEntry) :
    (entryBytes e).length = 3 + e.data.length + if e.delay.isSome then 2 else 0 := by
  obtain ⟨cmd, data, _ | ms⟩ := e <;> simp [entryBytes, be16] <;> omega

theorem entry_read_length {n flags cmd : Byte} {rest : List Byte} (hn : n.toNat ≠ 0)
    (hlen : n.toNat + delaySize flags ≤ rest.length + 1) :
    (entryBytes (entryRead n flags cmd rest)).length = 2 + n.toNat + delaySize flags := by
  have hdelay : (if (entryRead n flags cmd rest).delay.isSome then 2 else 0) = delaySize flags := by
    cases hbit : flags.getLsbD 0 <;> simp [entryRead, delaySize, hbit]
  have hdata : (entryRead n flags cmd rest).data.length = n.toNat - 1 := by
    rw [entryRead, List.length_take]
    omega
  rw [entry_bytes_length, hdelay, hdata]
  omega

theorem flags_eq_delay_bit (flags : Byte) (h : flags &&& 0xFE = 0) : flags = if flags.getLsbD 0 then 1 else 0 := by
  revert flags
  decide

/-- The bytes that `firstEntry` reads an entry from begin with that entry's bytes. -/
theorem entry_read_bytes {n flags cmd : Byte} {rest : List Byte} (hn : n.toNat ≠ 0) (hflags : flags &&& 0xFE = 0)
    (hlen : n.toNat + delaySize flags ≤ rest.length + 1) :
    ∃ later, n :: flags :: cmd :: rest = entryBytes (entryRead n flags cmd rest) ++ later := by
  obtain ⟨data, tail, rfl, hdata⟩ : ∃ data tail, rest = data ++ tail ∧ data.length = n.toNat - 1 :=
    ⟨rest.take (n.toNat - 1), rest.drop (n.toNat - 1), (List.take_append_drop _ _).symm, by
      rw [List.length_take]; omega⟩
  rw [List.length_append] at hlen
  have hcount : BitVec.ofNat 8 (data.length + 1) = n := by
    rw [hdata, Nat.sub_add_cancel (by omega), BitVec.ofNat_toNat, BitVec.setWidth_eq]
  have htake : (data ++ tail).take (n.toNat - 1) = data := by rw [← hdata, List.take_left]
  have hbit := flags_eq_delay_bit flags hflags
  cases hd : flags.getLsbD 0 with
  | false =>
    rw [hd] at hbit
    refine ⟨tail, ?_⟩
    simp [entryRead, entryBytes, htake, hcount, hbit]
  | true =>
    rw [hd] at hbit
    simp only [delaySize, hd, if_true] at hlen
    obtain ⟨hi, lo, later, rfl⟩ : ∃ hi lo later, tail = hi :: lo :: later := by
      match tail, hlen with
      | hi :: lo :: later, _ => exact ⟨hi, lo, later, rfl⟩
      | [_], hlen => simp at hlen; omega
      | [], hlen => simp at hlen; omega
    have hhi : (data ++ hi :: lo :: later).getD (n.toNat - 1) 0 = hi := by
      rw [← hdata]; exact getD_at_offset data _ 0
    have hlo : (data ++ hi :: lo :: later).getD n.toNat 0 = lo := by
      rw [show n.toNat = data.length + 1 by omega]; exact getD_at_offset data _ 1
    refine ⟨later, ?_⟩
    rw [entryRead, htake, hhi, hlo, hd]
    simp [entryBytes, be16, hi_byte_append, lo_byte_append, hcount, hbit]

/-! ## The first entry and the entry's bytes -/

theorem first_entry_of_bytes {b : List Byte} {e : ScriptEntry} (h : firstEntry b = some e) :
    EntryFits e ∧ ∃ later, b = entryBytes e ++ later := by
  match b with
  | n :: flags :: cmd :: rest =>
    rw [firstEntry, Option.ite_none_left_eq_some, Option.some.injEq] at h
    obtain ⟨hok, rfl⟩ := h
    simp only [not_or, not_not, Nat.not_lt] at hok
    obtain ⟨hn, hflags, hlen⟩ := hok
    refine ⟨?_, entry_read_bytes hn hflags hlen⟩
    have := n.isLt
    simp only [EntryFits, entryRead, List.length_take]
    omega

theorem first_entry_entry_bytes {e : ScriptEntry} (he : EntryFits e) (later : List Byte) :
    firstEntry (entryBytes e ++ later) = some e := by
  obtain ⟨cmd, data, delay⟩ := e
  have hn : (BitVec.ofNat 8 (data.length + 1)).toNat = data.length + 1 := by
    have : data.length ≤ 254 := he
    rw [BitVec.toNat_ofNat, Nat.mod_eq_of_lt (by omega)]
  cases delay with
  | none => simp [entryBytes, firstEntry, entryRead, delaySize, hn]
  | some ms => simp [entryBytes, firstEntry, entryRead, delaySize, hn, be16, join_hi_lo]

/-! ## The parser -/

/-- One turn of the parser's loop, where at least three bytes are left. -/
theorem parse_entries_cons (pre : List Byte) (n flags cmd : Byte) (rest : List Byte) (fuel : Nat) :
    parseEntries (pre ++ n :: flags :: cmd :: rest) (fuel + 1) pre.length =
      if n.toNat = 0 ∨ flags &&& 0xFE ≠ 0 ∨ rest.length + 1 < n.toNat + delaySize flags then .error pre.length
      else (parseEntries (pre ++ n :: flags :: cmd :: rest) fuel (pre.length + (2 + n.toNat + delaySize flags))).map
        (entryRead n flags cmd rest :: ·) := by
  have hn : (pre ++ n :: flags :: cmd :: rest).getD pre.length 0 = n := getD_at_offset pre _ 0
  have hflags : (pre ++ n :: flags :: cmd :: rest).getD (pre.length + 1) 0 = flags := getD_at_offset pre _ 1
  have hcmd : (pre ++ n :: flags :: cmd :: rest).getD (pre.length + 2) 0 = cmd := getD_at_offset pre _ 2
  have hdata : (pre ++ n :: flags :: cmd :: rest).drop (pre.length + 3) = rest := by
    rw [List.drop_length_add_append]
    rfl
  have hlen : (pre ++ n :: flags :: cmd :: rest).length = pre.length + 3 + rest.length := by
    simp only [List.length_append, List.length_cons]
    omega
  have hsize : (if flags.getLsbD 0 = true then 2 else 0) = delaySize flags := rfl
  rw [parseEntries, if_pos (by omega), if_neg (by omega)]
  simp only [hn, hflags, hcmd, hdata, hlen, hsize]
  by_cases hbad : n.toNat = 0 ∨ flags &&& 0xFE ≠ 0 ∨ rest.length + 1 < n.toNat + delaySize flags
  · rw [if_pos hbad, if_pos (hbad.imp_right <| Or.imp_right fun h => by omega)]
  · have hn0 : n.toNat ≠ 0 := fun h => hbad (.inl h)
    have hhi : (pre ++ n :: flags :: cmd :: rest).getD (pre.length + n.toNat + 2) 0 = rest.getD (n.toNat - 1) 0 := by
      rw [show pre.length + n.toNat + 2 = pre.length + (n.toNat - 1 + 3) by omega]
      exact getD_at_offset pre _ _
    have hlo : (pre ++ n :: flags :: cmd :: rest).getD (pre.length + n.toNat + 3) 0 = rest.getD n.toNat 0 := by
      rw [Nat.add_assoc]
      exact getD_at_offset pre _ _
    rw [if_neg hbad, if_neg (mt (Or.imp_right <| Or.imp_right fun h => by omega) hbad), hhi, hlo, ← entryRead]
    cases parseEntries (pre ++ n :: flags :: cmd :: rest) fuel (pre.length + (2 + n.toNat + delaySize flags)) <;> rfl

/-- EVERYTHING one turn of the parser's loop does, at the bytes that are left: the first entry is read, or it is the bad
one. -/
theorem parse_entries_succ (pre : List Byte) {b : List Byte} (hb : b ≠ []) (fuel : Nat) :
    parseEntries (pre ++ b) (fuel + 1) pre.length = (firstEntry b).elim (.error pre.length) fun e =>
      (parseEntries (pre ++ b) fuel (pre ++ entryBytes e).length).map (e :: ·) := by
  match b with
  | [_] => rw [parseEntries, if_pos (by simp), if_pos (by simp)]; rfl
  | [n, flags] =>
    rw [parseEntries, if_pos (by simp), if_neg (by simp)]
    exact if_pos (by simp only [List.length_append, List.length_cons, List.length_nil]; omega)
  | n :: flags :: cmd :: rest =>
    rw [parse_entries_cons, firstEntry]
    split
    · rfl
    · rename_i hok
      simp only [not_or, not_not, Nat.not_lt] at hok
      obtain ⟨hn, -, hlen⟩ := hok
      rw [Option.elim_some, List.length_append, entry_read_length hn hlen]

/-- Well-formed entries followed by bytes that begin none: the parse ends there with the offset. -/
theorem parse_entries_bad {good : List ScriptEntry} {bad : List Byte} (hgood : ∀ e ∈ good, EntryFits e)
    (hbad : bad ≠ []) (hnone : firstEntry bad = none) (pre : List Byte) {fuel : Nat} (hfuel : good.length ≤ fuel) :
    parseEntries (pre ++ (scriptBytes good ++ bad)) fuel pre.length =
      .error (pre.length + (scriptBytes good).length) := by
  induction good generalizing pre fuel with
  | nil =>
    cases fuel with
    | zero =>
      have hlt : pre.length < (pre ++ (scriptBytes [] ++ bad)).length := by
        have := List.length_pos_iff.2 hbad
        simp only [List.length_append]
        omega
      exact if_pos hlt
    | succ fuel =>
      exact (parse_entries_succ pre hbad fuel).trans (by rw [hnone]; rfl)
  | cons e good ih =>
    obtain ⟨fuel, rfl⟩ : ∃ k, fuel = k + 1 := ⟨fuel - 1, by rw [List.length_cons] at hfuel; omega⟩
    have hne : entryBytes e ++ (scriptBytes good ++ bad) ≠ [] := by simp [entryBytes]
    have hrest := ih (fun e he => hgood e (by simp [he])) (pre ++ entryBytes e) (fuel := fuel)
      (by rw [List.length_cons] at hfuel; omega)
    rw [List.append_assoc] at hrest
    have hbytes : scriptBytes (e :: good) = entryBytes e ++ scriptBytes good := rfl
    rw [hbytes, List.append_assoc, parse_entries_succ pre hne, first_entry_entry_bytes (hgood e (by simp)),
      Option.elim_some, hrest, List.length_append, List.length_append, Nat.add_assoc]
    rfl

theorem length_le_script_bytes (entries : List ScriptEntry) : entries.length ≤ (scriptBytes entries).length := by
  induction entries with
  | nil => exact Nat.le_refl _
  | cons e entries ih =>
    have hbytes : scriptBytes (e :: entries) = entryBytes e ++ scriptBytes entries := rfl
    rw [hbytes, List.length_append, entry_bytes_length, List.length_cons]
    omega

/-- A whole script that is well-formed entries followed by bytes that begin none. -/
theorem parse_script_bytes_bad {good : List ScriptEntry} {bad : List Byte} (hgood : ∀ e ∈ good, EntryFits e)
    (hbad : bad ≠ []) (hbegins : ∀ e later, EntryFits e → bad ≠ entryBytes e ++ later) :
    parseEntries (scriptBytes good ++ bad) (scriptBytes good ++ bad).length 0 = .error (scriptBytes good).length := by
  have hnone : firstEntry bad = none := by
    rw [Option.eq_none_iff_forall_ne_some]
    intro e he
    obtain ⟨hfits, later, hlater⟩ := first_entry_of_bytes he
    exact hbegins e later hfits hlater
  have hfuel : good.length ≤ (scriptBytes good ++ bad).length := by
    have := length_le_script_bytes good
    rw [List.length_append]
    omega
  simpa using parse_entries_bad hgood hbad hnone [] hfuel

/-! ## The faults of a script -/

theorem exceeds_cap_iff {cap : Option Nat} {len : Nat} : exceedsCap cap len = true ↔ ∃ c ∈ cap, c < len := by
  cases cap <;> simp [exceedsCap]

theorem parse_script_over_cap {addr len : Nat} {s : State} (hrange : addr + len ≤ s.params.bmemSize)
    (hcap : ∃ c ∈ s.params.cinitCap, c < len) : parseScript addr len s = .error ⟨.cfgScript, len⟩ s := by
  have hcheck : checkScriptCap len s = .error ⟨.cfgScript, len⟩ s := by
    rw [check_script_cap_apply, if_pos (exceeds_cap_iff.2 hcap)]
  rw [parseScript, bind_ok (check_range_in_range hrange), bind_error hcheck]

theorem parse_script_bad_entry {addr len o : Nat} {s : State} (hrange : addr + len ≤ s.params.bmemSize)
    (hcap : ∀ c ∈ s.params.cinitCap, len ≤ c)
    (hparse : parseEntries (readBytes s.bmem addr len) (readBytes s.bmem addr len).length 0 = .error o) :
    parseScript addr len s = .error ⟨.cfgScript, o⟩ s := by
  have hcheck : checkScriptCap len s = .ok () s := by
    rw [check_script_cap_apply, if_neg fun h => ?_]
    obtain ⟨c, hc, hlt⟩ := exceeds_cap_iff.1 h
    exact absurd (hcap c hc) (Nat.not_le.2 hlt)
  rw [parseScript, bind_ok (check_range_in_range hrange), bind_ok hcheck, bind_ok (mem_read_in_range hrange)]
  simp only [hparse]
  rfl

/-- Settles O31: the length is tested before any byte is read, and the parse stops at the first bytes that begin no
entry. -/
theorem configScriptFaults : Obligations.ConfigScriptFaults := by
  intro f dw dh rotation options nrec addr len recs table s hs hdc hn ht hrecs hci hrange
  have hfault : ∀ {o : Nat} {v : DWord}, parseScript addr.toNat len.toNat s = .error ⟨.cfgScript, o⟩ s →
      infoWord o = v → exec (.config f dw dh rotation options nrec addr len recs) s = .next (faulted s 6 v) :=
    fun hscript hv => exec_config_faulted (config_body_script_error _ _ _ _ hs hdc hn ht hrecs hci hscript) hv
  refine ⟨fun cap hcap hlt => ?_, fun good bad hcap hgood hbytes hbad hbegins => ?_⟩
  · exact hfault (parse_script_over_cap hrange ⟨cap, hcap, hlt⟩) (info_word_toNat len)
  · have hlen : (scriptBytes good).length ≤ len.toNat := by
      have := congrArg List.length hbytes
      rw [read_bytes_length, List.length_append] at this
      omega
    have hparse := parse_script_bytes_bad hgood hbad hbegins
    rw [← hbytes] at hparse
    exact hfault (parse_script_bad_entry hrange hcap hparse) (info_word_of_lt (Nat.lt_of_le_of_lt hlen len.isLt))

end Sys2Proof.Proofs

/-! PROOFS. A descriptor that the end of the command stream cuts off (30_encoding.md R95; 60_exceptions.md R249). -/

namespace Sys2Proof.Proofs

open Sys2Proof.Machine Sys2Proof.Safety Sys2Proof.Laws

/-- What is read as a `CONFIG` descriptor takes ten words and five for each record its count announces (30_encoding.md
R99). -/
theorem decode_config_length {f : Byte} {ws : List Word} {p : Instr × List Word}
    (h : decodeOperands .config f ws = some p) : Opcode.config.words (ws.getD 4 0) ≤ ws.length + 1 := by
  simp only [decodeOperands] at h
  split at h
  · rename_i nrec _ _ _ _ r
    split at h
    · rename_i table rest hrecs
      obtain ⟨hcount, rfl⟩ := take_records_some hrecs
      simp only [List.getD_cons_succ, List.getD_cons_zero, List.length_cons, List.length_append, table_words_length,
        hcount, Opcode.words]
      split <;> omega
    · cases h
  · cases h

/-- Operands are read only where the stream holds the descriptor's every word. -/
theorem decode_operands_length {o : Opcode} {f : Byte} {ws : List Word} {p : Instr × List Word}
    (h : decodeOperands o f ws = some p) : o.words (ws.getD 4 0) ≤ ws.length + 1 := by
  cases o with
  | config => exact decode_config_length h
  | rotation | madctlGet | boundingGet | boundingSet | init | hardReset | softReset | sleepMode | inversionMode | on
    | off => exact Nat.le_add_left 1 _
  | writeCmd | setWindow | fillBuf | pixel | hline | vline | rect | fillRect | fill | line | blit | mapbits | offset
    | madctlSet | vscrdef | vscsad | color565 =>
    simp only [decodeOperands] at h
    split at h
    · simp only [Opcode.words, List.length_cons]
      omega
    · cases h

/-- Settles O4: the operands of a cut-off descriptor cannot be read, so the fetch answers "truncated". -/
theorem truncatedIsStuck : Obligations.TruncatedIsStuck := by
  intro s h o hs hw hlegal hcut
  have hnrec : (s.prog.drop (s.pc + 1)).getD 4 0 = s.prog.getD (s.pc + 5) 0 := by
    rw [List.getD_eq_getElem?_getD, List.getElem?_drop, List.getD_eq_getElem?_getD, Nat.add_assoc]
  have hpc : s.pc < s.prog.length := (List.getElem?_eq_some_iff.1 hw).1
  have hnone : decodeOperands o (headerImm h) (s.prog.drop (s.pc + 1)) = none := by
    rw [Option.eq_none_iff_forall_ne_some]
    intro p hp
    have hlen := decode_operands_length hp
    rw [hnrec, List.length_drop] at hlen
    omega
  have hfetch : fetch s = .truncated := by
    rw [fetch_eq_decode_cons hw]
    simp only [decode, hlegal, hnone]
  simp [step, hs, hfetch]

end Sys2Proof.Proofs

/-! PROOFS. The decoder and the encoder are inverse to each other (30_encoding.md R90 to R99), and what the step makes of
an encoded instruction (70_reset_and_hazards.md R272). -/

namespace Sys2Proof.Proofs

open Sys2Proof.Machine Sys2Proof.Safety Sys2Proof.Laws

/-! ## Operands -/

/-- The flags of a header field with the reserved bits clear give the field back. -/
theorem flag_bits_config_flags (f : Byte) (h : f &&& ~~~ Opcode.config.usedBits = 0) (dw dh rot opts nrec : Word)
    (a l : DWord) (table : List RotRec) :
    (Instr.config (configFlags f) dw dh rot opts nrec a l table).imm = f := by
  simp only [Instr.imm, configFlags]
  revert f
  decide

theorem flag_bit_low (f : Byte) (h : f &&& ~~~ (0x01 : Byte) = 0) : flagBit (f.getLsbD 0) 0 = f := by
  revert f
  decide

theorem flag_bits_low_two (f : Byte) (h : f &&& ~~~ (0x03 : Byte) = 0) :
    flagBit (f.getLsbD 0) 0 ||| flagBit (f.getLsbD 1) 1 = f := by
  revert f
  decide

theorem eq_zero_of_none_used (f : Byte) (h : f &&& ~~~ (0 : Byte) = 0) : (0 : Byte) = f := by
  revert f
  decide

/-- The records that a well-formed `CONFIG` descriptor announces are those of its table. -/
theorem records_announced {nrec : Word} {table : List RotRec} (h : tableMatches nrec table = true) :
    (if nrec.toNat ≤ 255 then nrec.toNat else 0) = table.length := by
  unfold tableMatches at h
  split at h
  · rw [if_pos ‹_›, eq_of_beq h]
  · rw [if_neg ‹_›, List.isEmpty_iff.1 h]
    rfl

theorem table_matches_of_length {nrec : Word} {table : List RotRec}
    (h : table.length = if nrec.toNat ≤ 255 then nrec.toNat else 0) : tableMatches nrec table = true := by
  unfold tableMatches
  split at h
  · rw [if_pos ‹_›, h, beq_self_eq_true]
  · rw [if_neg ‹_›, List.length_eq_zero_iff.1 h]
    rfl

/-- The operands of a well-formed instruction are read back from its header field and its operand words. -/
theorem decode_operands_encoded {i : Instr} (h : i.wellFormed = true) (rest : List Word) :
    decodeOperands i.opcode i.imm (i.operandWords ++ rest) = some (i, rest) := by
  cases i with
  | config f dw dh rot opts nrec a l table =>
    have hflags := config_flags_imm f dw dh rot opts nrec a l table
    simp only [Instr.opcode, Instr.operandWords, decodeOperands, List.cons_append, List.nil_append, records_announced h,
      take_records_words, hflags, join_words_cut]
  | boundingGet b => cases b <;> rfl
  | boundingSet b c => cases b <;> cases c <;> rfl
  | sleepMode b => cases b <;> rfl
  | inversionMode b => cases b <;> rfl
  | _ => simp [Instr.opcode, Instr.imm, Instr.operandWords, decodeOperands]

/-- A `CONFIG` descriptor that is read is well-formed, and its words are its encoding's. -/
theorem encoded_of_decode_config {f : Byte} {ws rest : List Word} {i : Instr}
    (h : decodeOperands .config f ws = some (i, rest)) (hf : f &&& ~~~ Opcode.config.usedBits = 0) :
    i.wellFormed = true ∧ i.opcode = .config ∧ i.imm = f ∧ ws = i.operandWords ++ rest := by
  simp only [decodeOperands] at h
  split at h
  · split at h
    · rename_i table left hrecs
      simp only [Option.some.injEq, Prod.mk.injEq] at h
      obtain ⟨rfl, rfl⟩ := h
      obtain ⟨hlen, rfl⟩ := take_records_some hrecs
      exact ⟨table_matches_of_length hlen, rfl, flag_bits_config_flags f hf _ _ _ _ _ _ _ _,
        by simp [Instr.operandWords]⟩
    · cases h
  · cases h

/-- Operands that are read, under a header field with the reserved bits clear, are those of one well-formed
instruction. -/
theorem encoded_of_decode_operands {o : Opcode} {f : Byte} {ws rest : List Word} {i : Instr}
    (h : decodeOperands o f ws = some (i, rest)) (hf : f &&& ~~~ o.usedBits = 0) :
    i.wellFormed = true ∧ i.opcode = o ∧ i.imm = f ∧ ws = i.operandWords ++ rest := by
  cases o with
  | config => exact encoded_of_decode_config h hf
  | rotation => cases h; exact ⟨rfl, rfl, rfl, rfl⟩
  | madctlGet | init | hardReset | softReset | on | off =>
    cases h
    exact ⟨rfl, rfl, eq_zero_of_none_used f hf, rfl⟩
  | boundingGet | sleepMode | inversionMode => cases h; exact ⟨rfl, rfl, flag_bit_low f hf, rfl⟩
  | boundingSet => cases h; exact ⟨rfl, rfl, flag_bits_low_two f hf, rfl⟩
  | writeCmd =>
    simp only [decodeOperands] at h
    split at h
    · cases h
      exact ⟨rfl, rfl, rfl, by simp [Instr.operandWords]⟩
    · cases h
  | setWindow | fillBuf | pixel | hline | vline | rect | fillRect | fill | line | blit | mapbits | offset | madctlSet
    | vscrdef | vscsad | color565 =>
    simp only [decodeOperands] at h
    split at h
    · cases h
      exact ⟨rfl, rfl, eq_zero_of_none_used f hf, by simp [Instr.operandWords]⟩
    · cases h

/-! ## The round trips -/

/-- Settles O1: the header gives the opcode and its field, and each operand is read back. -/
theorem decodeEncode : Obligations.DecodeEncode := by
  intro i rest h
  have hlegal := legal_header_header i.opcode i.imm (imm_used i)
  have hoperands := decode_operands_encoded h rest
  simp only [encode, List.cons_append, decode, hlegal, header_imm_header, hoperands]

/-- Settles O2: a legal header is the one of its opcode and field, and the operands read are those of one instruction. -/
theorem encodeDecode : Obligations.EncodeDecode := by
  intro ws i rest h
  match ws with
  | [] => cases h
  | w :: ws =>
    rw [decode] at h
    split at h
    · cases h
    · rename_i o hlegal
      split at h
      · rename_i j left hoperands
        cases h
        obtain ⟨hw, hf⟩ := legal_header_some hlegal
        obtain ⟨hwf, hop, himm, hws⟩ := encoded_of_decode_operands hoperands hf
        exact ⟨hwf, by rw [encode, hop, himm, ← hw, hws]; rfl⟩
      · cases h

/-- Settles O5: each list is decoded by evaluation. -/
theorem sampleWords : Obligations.SampleWords := by
  unfold Obligations.SampleWords
  decide

/-- Settles O6: the fetch at the instruction's words answers it, and the step is its operation. -/
theorem stepRunsDecoded : Obligations.StepRunsDecoded := by
  intro s i before later hs hi hprog hpc
  have hfetch : fetch s = .ok i later := by
    rw [fetch, hprog, hpc, List.append_assoc, List.drop_left]
    exact decodeEncode i later hi
  simp [step, hs, hfetch]

end Sys2Proof.Proofs

/-! PROOFS. The step and the run: what every operation leaves of `pc` and the fault fields, the three ends of a run and the
host's view of them, and hardware reset (10_state.md R24, R47; 60_exceptions.md R252; 70_reset_and_hazards.md R270 to
R274). -/

namespace Sys2Proof.Proofs

open Sys2Proof.Machine Sys2Proof.Safety Sys2Proof.Laws

/-! ## What every operation leaves -/

/-- What no operation writes before it ends: `pc` and the fault fields; the flags are never cleared. -/
structure SameControl (s t : State) : Prop where
  pc : t.pc = s.pc
  fault : t.fault = s.fault
  cause : t.cause = s.cause
  info : t.info = s.info
  configured : s.configured = true → t.configured = true

theorem same_control_admits_registers : AdmitsRegisters SameControl where
  refl _ := ⟨rfl, rfl, rfl, rfl, id⟩
  trans _ _ _ h1 h2 := ⟨h2.pc.trans h1.pc, h2.fault.trans h1.fault, h2.cause.trans h1.cause, h2.info.trans h1.info,
    h2.configured ∘ h1.configured⟩
  emits _ _ := ⟨rfl, rfl, rfl, rfl, id⟩
  display _ _ := ⟨rfl, rfl, rfl, rfl, id⟩
  results _ _ := ⟨rfl, rfl, rfl, rfl, id⟩
  geomValid _ := ⟨rfl, rfl, rfl, rfl, id⟩
  configured _ := ⟨rfl, rfl, rfl, rfl, fun _ => rfl⟩

/-- EVERY next state of an instruction: completed, or faulted, from a state with the old `pc` and fault fields. -/
theorem exec_same_control {i : Instr} {s t : State} (ht : exec i s = .next t) :
    ∃ u, SameControl s u ∧ (t = completed u i.words ∨ ∃ e : Raised, t = enterFault e.cause e.info u) :=
  exec_frame same_control_admits_registers (fun _ _ _ => ⟨rfl, rfl, rfl, rfl, id⟩) ht

/-- Every instruction is one performed operation. -/
theorem exec_eq_perform (i : Instr) (s : State) : ∃ op, exec i s = perform i.words op s := by
  cases i with
  | color565 r g b => exact ⟨_, show exec (.color565 r g b) s = execColor565 r g b s from rfl⟩
  | _ => exact ⟨_, rfl⟩

/-- Every instruction has a next state. -/
theorem exec_next (i : Instr) (s : State) : ∃ t, exec i s = .next t := by
  obtain ⟨op, hexec⟩ := exec_eq_perform i s
  rcases perform_cases i.words op s with ⟨t, -, h⟩ | ⟨e, t, -, h⟩
  · exact ⟨_, hexec.trans h⟩
  · exact ⟨_, hexec.trans h⟩

theorem exec_pc {i : Instr} {s t : State} (hs : s.fault = false) (ht : exec i s = .next t) :
    (t.fault = false → t.pc = s.pc + i.words) ∧ (t.fault = true → t.pc = s.pc) := by
  obtain ⟨u, hu, rfl | ⟨e, rfl⟩⟩ := exec_same_control ht
  · refine ⟨fun _ => ?_, fun hf => ?_⟩
    · rw [completed_pc, hu.pc]
    · rw [completed_fault, hu.fault, hs] at hf
      cases hf
  · exact ⟨fun hf => (by cases hf), fun _ => hu.pc⟩

theorem encode_length {i : Instr} (h : i.wellFormed = true) : (encode i).length = i.words := by
  cases i with
  | config => exact EncodeLength.config _ _ _ _ _ _ _ _ _ h
  | _ => rfl

/-- Settles O9: `pc` is written on completion alone, by the length of the descriptor. -/
theorem pcProgress : Obligations.PcProgress := by
  intro i s t hs hi ht
  rw [encode_length hi]
  exact exec_pc hs ht

/-! ## The step by what stands at `pc` -/

theorem step_faulted {s : State} (h : s.fault = true) : step s = .fault .faulted := by
  simp [step, h]

theorem fetch_no_word_iff (s : State) : fetch s = .noWord ↔ s.prog.length ≤ s.pc := by
  rw [← List.drop_eq_nil_iff, fetch]
  cases h : s.prog.drop s.pc with
  | nil => simp [decode]
  | cons w ws =>
    cases hl : legalHeader w with
    | none => simp [decode, hl]
    | some o => cases ho : decodeOperands o (headerImm w) ws <;> simp [decode, hl, ho]

/-- EVERYTHING a step can be. -/
theorem step_cases (s : State) :
    (s.fault = true ∧ step s = .fault .faulted) ∨
    (s.fault = false ∧ fetch s = .noWord ∧ step s = .fault .completed) ∨
    (s.fault = false ∧ fetch s = .truncated ∧ step s = .fault .stuck) ∨
    (s.fault = false ∧ ∃ h, fetch s = .illegal h ∧ step s = .next (faulted s 1 (h.setWidth 32))) ∨
    (s.fault = false ∧ ∃ i rest t, fetch s = .ok i rest ∧ exec i s = .next t ∧ step s = .next t) := by
  cases hs : s.fault with
  | true => exact .inl ⟨rfl, step_faulted hs⟩
  | false =>
    cases hf : fetch s with
    | noWord => exact .inr (.inl ⟨rfl, rfl, by simp [step, hs, hf]⟩)
    | truncated => exact .inr (.inr (.inl ⟨rfl, rfl, by simp [step, hs, hf]⟩))
    | illegal h =>
      have hstep := (step_of_fetch_illegal hs hf).trans (illegal_header_eq_faulted h s)
      exact .inr (.inr (.inr (.inl ⟨rfl, h, rfl, hstep⟩)))
    | ok i rest =>
      obtain ⟨t, ht⟩ := exec_next i s
      exact .inr (.inr (.inr (.inr ⟨rfl, i, rest, t, rfl, ht, by simp [step, hs, hf, ht]⟩)))

/-- The instruction at `pc` is well-formed and its words lie in the stream. -/
theorem fetch_ok {s : State} {i : Instr} {rest : List Word} (h : fetch s = .ok i rest) :
    i.wellFormed = true ∧ s.pc + i.words ≤ s.prog.length := by
  obtain ⟨hwf, hws⟩ := encodeDecode _ _ _ h
  have hlen := congrArg List.length hws
  rw [List.length_drop, List.length_append, encode_length hwf] at hlen
  have hpos : 0 < i.words := by rw [← encode_length hwf]; simp [encode]
  exact ⟨hwf, by omega⟩

theorem words_pos {i : Instr} (h : i.wellFormed = true) : 0 < i.words := by
  rw [← encode_length h]
  simp [encode]

/-! ## The ends of a run -/

/-- No answer of an open port is "busy". -/
theorem port_word_ne_busy {n : Nat} (v : Option (BitVec n)) : portWord v ≠ .busy := by
  cases v <;> simp [portWord]

theorem port_bit_ne_busy (v : Option Bool) : portBit v ≠ .busy := by
  cases v <;> simp [portBit]

theorem read_sr_ne_busy (d : Display) (n : Nat) : d.readSR n ≠ .busy := by
  unfold Display.readSR
  split <;> simp [port_word_ne_busy, port_bit_ne_busy]

theorem read_result_ne_busy (r : Results) (n : Nat) : r.read n ≠ .busy := by
  unfold Results.read
  split <;> simp [port_word_ne_busy]

/-- A read that an open port answers is answered "busy" exactly while the run goes on. -/
theorem when_stopped_busy_iff {s : State} {answer : PortAnswer} (h : answer ≠ .busy) :
    whenStopped s answer = .busy ↔ runStatus s = .running := by
  unfold whenStopped
  split
  · simp [*]
  · simp [*]

theorem host_reads_busy_iff (s : State) (n : Nat) :
    ∀ answer ∈ [hostReadSR s n, hostReadResult s n, hostReadPc s, hostReadFlag s n, hostReadByte s n],
      answer = .busy ↔ runStatus s = .running := by
  simp only [List.forall_mem_cons]
  refine ⟨when_stopped_busy_iff (read_sr_ne_busy _ _), when_stopped_busy_iff (read_result_ne_busy _ _),
    when_stopped_busy_iff (by simp), when_stopped_busy_iff ?_, when_stopped_busy_iff ?_, by simp⟩
  · split <;> simp
  · split <;> simp

theorem run_status_running_iff (s : State) : runStatus s = .running ↔ ∃ t, step s = .next t := by
  rcases step_cases s with ⟨hs, h⟩ | ⟨hs, hf, h⟩ | ⟨hs, hf, h⟩ | ⟨hs, g, hf, h⟩ | ⟨hs, i, rest, t, hf, -, h⟩
  · simp [runStatus, hs, h]
  · simp [runStatus, hs, hf, h]
  · simp [runStatus, hs, hf, h]
  · simp [runStatus, hs, hf, h]
  · simp [runStatus, hs, hf, h]

/-- Settles O7: each end is one of the cases of the step, and no two of them hold at once. -/
theorem runEnds : Obligations.RunEnds := by
  intro s hpc
  have hend : s.pc = s.prog.length ↔ fetch s = .noWord := by
    rw [fetch_no_word_iff]
    omega
  have hrun := run_status_running_iff s
  have hreads := host_reads_busy_iff s
  simp only [hrun] at hreads
  rcases step_cases s with ⟨hs, h⟩ | ⟨hs, hf, h⟩ | ⟨hs, hf, h⟩ | ⟨hs, g, hf, h⟩ | ⟨hs, i, rest, t, hf, -, h⟩
  · exact ⟨by simp [h, hs], by simp [h, hs], by simp [h, hs], by simp [h], hrun, hreads⟩
  all_goals exact ⟨by simp [h, hs], by simp [h, hs, hend, hf], by simp [h, hs, hf], by simp [h], hrun, hreads⟩

/-! ## Every run is finite -/

theorem run_succ_of_next {s t : State} (h : step s = .next t) (k : Nat) : core.run (k + 1) s = core.run k t := by
  have hcore : core.step s = .next t := h
  simp only [Host.Core.run, hcore]

theorem run_succ_of_fault {s : State} {r : Fault} (h : step s = .fault r) (k : Nat) :
    core.run (k + 1) s = .fault r := by
  have hcore : core.step s = .fault r := h
  simp only [Host.Core.run, hcore]

/-- The words that are left from `pc` on bound the steps: an operation that completes leaves fewer. -/
theorem run_ends_within {k : Nat} {s : State} (hk : s.prog.length - s.pc < k) :
    ∃ r, core.run k s = .fault r := by
  induction k generalizing s with
  | zero => omega
  | succ k ih =>
    have stop : ∀ {t : State}, 0 < k → t.fault = true → ∃ r, core.run k t = .fault r := by
      intro t hpos ht
      obtain ⟨k, rfl⟩ : ∃ j, k = j + 1 := ⟨k - 1, by omega⟩
      exact ⟨.faulted, run_succ_of_fault (step_faulted ht) k⟩
    rcases step_cases s with ⟨-, h⟩ | ⟨-, -, h⟩ | ⟨-, -, h⟩ | ⟨-, g, hf, h⟩ | ⟨hs, i, rest, t, hf, ht, h⟩
    · exact ⟨_, run_succ_of_fault h k⟩
    · exact ⟨_, run_succ_of_fault h k⟩
    · exact ⟨_, run_succ_of_fault h k⟩
    · have hlt : ¬ s.prog.length ≤ s.pc := fun hle => by
        rw [(fetch_no_word_iff s).2 hle] at hf
        cases hf
      rw [run_succ_of_next h]
      exact stop (by omega) rfl
    · obtain ⟨hwf, hle⟩ := fetch_ok hf
      have hpos := words_pos hwf
      rw [run_succ_of_next h]
      cases hfault : t.fault with
      | true => exact stop (by omega) hfault
      | false =>
        refine ih ?_
        rw [(exec_pc hs ht).1 hfault, (exec_same_inputs ht).prog]
        omega

/-- Settles O8: each completed operation takes at least one word of the stream, and a fault is the last step but one. -/
theorem runIsFinite : Obligations.RunIsFinite := fun s => run_ends_within (by omega)

/-! ## Fault entry and hardware reset -/

/-- Settles O21: fault entry is a record update, and the step tests `fault` first. -/
theorem faultEntry : Obligations.FaultEntry := by
  refine ⟨fun c n s hn => ?_, fun s ws hs => ?_⟩
  · rw [enterFault, info_word_of_lt hn]
  · exact step_faulted hs

/-- Settles O10: the reset state by its fields; no operation clears the two flags. -/
theorem hardwareReset : Obligations.HardwareReset := by
  refine ⟨fun s => rfl, fun i s t ht => ?_, fun s hs t ht => ?_⟩
  · obtain ⟨u, hu, rfl | ⟨e, rfl⟩⟩ := exec_same_control ht
    · exact ⟨hu.configured, fun hf => hu.fault.trans hf⟩
    · exact ⟨hu.configured, fun _ => rfl⟩
  · rw [step_faulted hs] at ht
    cases ht

/-- A state with nothing set, at the start of its stream, has the invariant once its inputs are legal. -/
theorem hardware_reset_inv {s : State} (hp : ParamsOk s.params) (hm : MemoryOk s) : Inv s.hardwareReset where
  params := hp
  pc := Nat.zero_le _
  memory := hm
  config := by
    refine ⟨fun _ => ⟨rfl, rfl⟩, fun h => (by cases h), fun c hc => (by cases hc), fun t ht => (by cases ht),
      fun k hk => (by cases hk)⟩
  geom := ⟨rfl, fun h => (by cases h), fun h => (by cases h), fun h => (by cases h)⟩
  box := fun w hw => by cases hw
  fault := ⟨fun _ => ⟨rfl, rfl⟩, fun h => (by cases h)⟩
  trace := fun e he => by cases he

/-- Settles O11. -/
theorem resetEstablishesInv : Obligations.ResetEstablishesInv := fun _ => hardware_reset_inv

/-- Settles O12: the reset state is its own hardware reset, and its inputs are legal. -/
theorem resetInv : Obligations.ResetInv := by
  have hp : ParamsOk State.reset.params := by decide
  have hm : MemoryOk State.reset := by decide
  exact hardware_reset_inv hp hm

/-- Settles O14: the invariant's parts on configuration and geometry, taken together. -/
theorem flagsMeanDrawable : Obligations.FlagsMeanDrawable := by
  intro s hinv hconf hgeom
  obtain ⟨-, hset, -, -, -⟩ := hinv.config
  obtain ⟨-, -, -, -, -, -, hoptions, hbounding, -⟩ := hset hconf
  obtain ⟨-, hfields, hwidth, hheight⟩ := hinv.geom
  exact ⟨hconf, hgeom, hfields hgeom, hoptions, hbounding, hwidth, hheight⟩

end Sys2Proof.Proofs

/-! PROOFS. The operations that hand one list of events to the HAL: each is, whatever the HAL answers, the playing of that
list after its writes, and with a quiet HAL all of it is emitted (40_command_window_fill.md R120 to R128; 41_primitives.md;
44_orientation_dirtybox.md R182 to R189; 45_lifecycle.md R203 to R212). -/

namespace Sys2Proof.Proofs

open Sys2Proof.Machine Sys2Proof.Safety Sys2Proof.Laws

/-! ## Bytes on the wire -/

theorem hi_byte_toNat (v : Word) : hiByte v.toNat = v.extractLsb' 8 8 := by
  apply BitVec.eq_of_toNat_eq
  rw [hiByte, BitVec.extractLsb'_toNat, BitVec.toNat_ofNat]

theorem lo_byte_toNat (v : Word) : loByte v.toNat = v.extractLsb' 0 8 := by
  apply BitVec.eq_of_toNat_eq
  rw [loByte, BitVec.extractLsb'_toNat, BitVec.toNat_ofNat, Nat.shiftRight_zero]

theorem be16_toNat (v : Word) : be16 v.toNat = [v.extractLsb' 8 8, v.extractLsb' 0 8] := by
  rw [be16, hi_byte_toNat, lo_byte_toNat]

theorem pixel_bytes_eq (color : Word) : pixelBytes color = [color.extractLsb' 8 8, color.extractLsb' 0 8] :=
  be16_toNat color

/-! ## Guarded operations -/

/-- Past its configuration guard, an operation is its body. -/
theorem perform_guarded {s : State} (hs : s.configured = true) (len : Nat) (op : Op Unit) :
    perform len (guardConfigured >>= fun _ => op) s = perform len op s := by
  simp only [perform, bind_ok (guard_configured_ok hs)]

/-- Past both guards, an operation is its body. -/
theorem perform_guarded_geometry {s : State} (hs : s.configured = true) (hg : s.geomValid = true) (len : Nat)
    (op : Op Unit) : perform len (guardConfigured >>= fun _ => needGeom >>= fun _ => op) s = perform len op s := by
  have hneed : needGeom s = .ok () s := by rw [need_geom_apply, if_pos hg]
  rw [perform_guarded hs]
  simp only [perform, bind_ok hneed]

theorem perform_congr {len : Nat} {a b : Op Unit} {s t : State} (h : a s = b t) : perform len a s = perform len b t := by
  simp only [perform, h]

/-- An operation that only emits, past its guard. -/
theorem perform_guarded_plays {s : State} (hs : s.configured = true) {op : Op Unit} {es : List Event}
    (h : Plays op s.display es) (len : Nat) :
    perform len (guardConfigured >>= fun _ => op) s = perform len (play es) s := by
  rw [perform_guarded hs]
  exact perform_congr (h s rfl)

theorem bind_congr_left {α β : Type} {x y : Op α} {s t : State} (h : x s = y t) (f : α → Op β) :
    (x >>= f) s = (y >>= f) t := by
  rw [bind_apply, bind_apply, h]

/-- One write of the Display that leaves the pin flags, then a command. -/
theorem update_then_write_cmd {s : State} (f : Display → Display) (hc : (f s.display).csPresent = s.display.csPresent)
    (hr : (f s.display).rstPresent = s.display.rstPresent) (hb : (f s.display).blPresent = s.display.blPresent)
    (cmd : Byte) (data : List Byte) :
    (updateDisplay f >>= fun _ => writeCmd cmd data) s =
      play (commandEvents s.display cmd data) { s with display := f s.display } := by
  rw [bind_ok (update_display_apply f s), ← command_events_congr hc hr hb]
  exact plays_write_cmd _ cmd data _ rfl

/-! ## What each operation hands to the HAL -/

section
variable {s : State} (hs : s.configured = true)
include hs

theorem exec_write_cmd (cmd : Byte) {addr len : DWord} (hm : addr.toNat + len.toNat ≤ s.params.bmemSize) :
    exec (.writeCmd cmd addr len) s =
      perform 5 (play (commandEvents s.display cmd (readBytes s.bmem addr.toNat len.toNat))) s := by
  refine (perform_guarded hs 5 _).trans (perform_congr ?_)
  exact (bind_ok (mem_read_in_range hm) _).trans (plays_write_cmd s.display _ _ s rfl)

theorem exec_fill_buf (color : Word) (n : DWord) :
    exec (.fillBuf color n) s = perform 4 (play (pixelEvents s.display (fillChunks color n.toNat))) s :=
  perform_guarded_plays hs (plays_stream _ _ _) 4

theorem exec_hard_reset : exec .hardReset s = perform 1 (play (hardResetEvents s.display)) s :=
  perform_guarded_plays hs (plays_hard_reset _) 1

theorem exec_soft_reset :
    exec .softReset s = perform 1 (play (commandEvents s.display 0x01 [] ++ [.delay 150])) s :=
  perform_guarded_plays hs (plays_soft_reset _) 1

theorem exec_sleep_mode (flag : Bool) :
    exec (.sleepMode flag) s = perform 1 (play (commandEvents s.display (if flag then 0x10 else 0x11) [])) s :=
  perform_guarded_plays hs (plays_write_cmd _ _ _) 1

theorem exec_on : exec .on s = perform 1 (play (pinEvents s.display .bl true ++ [.delay 10])) s :=
  perform_guarded_plays hs (plays_bind (plays_pin _ _ _) (plays_delay _ _)) 1

theorem exec_off : exec .off s = perform 1 (play (pinEvents s.display .bl false ++ [.delay 10])) s :=
  perform_guarded_plays hs (plays_bind (plays_pin _ _ _) (plays_delay _ _)) 1

theorem exec_vscrdef (a b c : Word) :
    exec (.vscrdef a b c) s =
      perform 4 (play (commandEvents s.display 0x33 (be16 a.toNat ++ be16 b.toNat ++ be16 c.toNat))) s :=
  perform_guarded_plays hs (plays_write_cmd _ _ _) 4

theorem exec_vscsad (a : Word) :
    exec (.vscsad a) s = perform 2 (play (commandEvents s.display 0x37 (be16 a.toNat))) s :=
  perform_guarded_plays hs (plays_write_cmd _ _ _) 2

theorem exec_inversion_mode (flag : Bool) :
    exec (.inversionMode flag) s =
      perform 1 (play (commandEvents s.display (if flag then 0x21 else 0x20) []))
        { s with display := { s.display with inversion := some flag } } :=
  (perform_guarded hs 1 _).trans
    (perform_congr (update_then_write_cmd (fun d => { d with inversion := some flag }) rfl rfl rfl _ _))

/-- `MADCTL_SET` stores first and writes its result last, after the command. -/
theorem exec_madctl_set (value : Word) :
    exec (.madctlSet value) s =
      perform 2 (play (commandEvents s.display 0x36 [lowByte value]) >>= fun _ =>
          updateResults fun r => { r with r0 := some (value.setWidth 32) })
        { s with display := { s.display with madctl := some value } } := by
  refine (perform_guarded hs 2 _).trans (perform_congr ?_)
  have h := update_then_write_cmd (s := s) (fun d => { d with madctl := some value }) rfl rfl rfl cmdMADCTL
    [lowByte value]
  exact (congrFun (bind_assoc _ _ _).symm s).trans (bind_congr_left h _)

theorem exec_offset (col row : Word) :
    exec (.offset col row) s = .next { s with
      pc := s.pc + 3, display := { s.display with colstart := some col, rowstart := some row } } :=
  (perform_guarded hs 3 _).trans (perform_ok (update_display_apply _ s))

theorem exec_madctl_get {v : Word} (hv : s.display.madctl = some v) :
    exec .madctlGet s = .next { s with
      pc := s.pc + 1, results := { s.results with r0 := some (v.setWidth 32) } } := by
  refine (perform_guarded hs 1 _).trans
    (perform_ok (t := { s with results := { s.results with r0 := some (v.setWidth 32) } }) ?_)
  rw [bind_ok (need_some 9 hv)]
  rfl

/-- `ROTATION` with an index in range stores all it takes, then sends the command. -/
theorem exec_rotation_in_range {value n co : Byte} {table : List RotRec} {rec : RotRec}
    (hn : s.display.rotationsLen = some n) (ht : s.display.rot = some table) (hco : s.display.colorOrder = some co)
    (hlt : value.toNat % 4 < n.toNat) (hrec : table[value.toNat % 4]? = some rec) :
    exec (.rotation value) s =
      perform 1 (play (commandEvents s.display 0x36 [lowByte (co.setWidth 16 ||| rec.madctl)]))
        { s with display := rotated (withRotation s.display value) co rec, geomValid := true } := by
  have hk : (BitVec.ofNat 8 (value.toNat % 4)).toNat = value.toNat % 4 := by
    rw [BitVec.toNat_ofNat, Nat.mod_eq_of_lt (by omega)]
  refine (perform_guarded hs 1 _).trans (perform_congr ?_)
  rw [bind_ok (update_display_apply _ s)]
  exact set_rotation_apply (s := { s with display := withRotation s.display value }) rfl hn ht hco (by rwa [hk])
    (by rwa [hk])

end

/-! ## With a quiet HAL -/

/-- With a quiet HAL all that is played is emitted. -/
theorem perform_play_quiet {s : State} (h : HalQuiet s) (len : Nat) (es : List Event) :
    perform len (play es) s = .next { s with pc := s.pc + len, trace := s.trace ++ es } :=
  perform_ok (play_quiet h es)

/-- The pin events by the presence bit. -/
theorem pin_events_cs (d : Display) (l : Bool) :
    pinEvents d .cs l = if d.csPresent = some true then [.pin .cs l] else [] := by
  simp [pinEvents, Display.hasPin]

theorem pin_events_rst (d : Display) (l : Bool) :
    pinEvents d .rst l = if d.rstPresent = some true then [.pin .rst l] else [] := by
  simp [pinEvents, Display.hasPin]

theorem pin_events_bl (d : Display) (l : Bool) :
    pinEvents d .bl l = if d.blPresent = some true then [.pin .bl l] else [] := by
  simp [pinEvents, Display.hasPin]

/-- Events with no transfer are emitted whatever the HAL answers. -/
theorem play_of_no_transfer {es : List Event} (h : ∀ b, .spi b ∉ es) (s : State) :
    play es s = .ok () (s.emitted es) := by
  rcases play_cases es s with hok | ⟨pre, b, post, rfl, -, -⟩
  · exact hok
  · exact absurd (by simp) (h b)

theorem spi_not_mem_pin_events (d : Display) (p : Pin) (l : Bool) (b : List Byte) : .spi b ∉ pinEvents d p l := by
  unfold pinEvents
  split <;> simp

/-- Settles O33. -/
theorem writeCmdCompletes : Obligations.WriteCmdCompletes := by
  intro cmd addr len s hs hq hm
  rw [exec_write_cmd hs cmd hm, perform_play_quiet hq]

/-- Settles O35. -/
theorem fillBufCompletes : Obligations.FillBufCompletes := by
  intro color n s hs hq
  rw [exec_fill_buf hs, perform_play_quiet hq]

/-- Settles O47. -/
theorem rotationCompletes : Obligations.RotationCompletes := by
  intro value n co table rec s hs hq hn ht hco hlt hrec
  rw [exec_rotation_in_range hs hn ht hco hlt hrec]
  exact perform_play_quiet (s := { s with display := rotated (withRotation s.display value) co rec, geomValid := true })
    hq 1 _

/-- Settles O48. -/
theorem offsetCompletes : Obligations.OffsetCompletes := by
  intro col row s
  refine ⟨fun hs => exec_offset hs col row, fun hs => exec_unconfigured ?_ hs⟩
  simp [Instr.opcode]

/-- Settles O49. -/
theorem madctlCompletes : Obligations.MadctlCompletes := by
  intro s hs
  refine ⟨fun v => exec_madctl_get hs, fun v hq => ?_⟩
  have hplay := play_quiet (s := { s with display := { s.display with madctl := some v } }) hq
    (commandEvents s.display 0x36 [lowByte v])
  rw [exec_madctl_set hs, perform_ok ((bind_ok hplay _).trans (update_results_apply _ _))]
  rfl

/-- Settles O54. -/
theorem resetsComplete : Obligations.ResetsComplete := by
  intro s hs cs rst
  have hcs : ∀ l, cs l = pinEvents s.display .cs l := fun l => (pin_events_cs s.display l).symm
  have hrst : ∀ l, rst l = pinEvents s.display .rst l := fun l => (pin_events_rst s.display l).symm
  constructor
  · have hnone : ∀ b, .spi b ∉ hardResetEvents s.display := by
      simp [hardResetEvents, spi_not_mem_pin_events]
    rw [exec_hard_reset hs, perform_ok (play_of_no_transfer hnone s)]
    simp only [hcs, hrst, hardResetEvents, State.emitted, completed, List.append_assoc]
  · intro hq
    rw [exec_soft_reset hs, perform_play_quiet hq]
    simp [hcs, commandEvents]

/-- Settles O55. -/
theorem modesComplete : Obligations.ModesComplete := by
  intro flag s hs hq
  constructor
  · rw [exec_sleep_mode hs, perform_play_quiet hq]
  · rw [exec_inversion_mode hs]
    exact perform_play_quiet (s := { s with display := { s.display with inversion := some flag } }) hq 1 _

/-- Settles O56: no transfer is made, so the HAL does not matter. -/
theorem backlightCompletes : Obligations.BacklightCompletes := by
  intro s hs
  have hnone : ∀ l b, .spi b ∉ pinEvents s.display .bl l ++ [.delay 10] := by
    simp [spi_not_mem_pin_events]
  constructor
  · rw [exec_on hs, perform_ok (play_of_no_transfer (hnone true) s)]
    simp only [pin_events_bl, State.emitted, completed, List.append_assoc]
  · rw [exec_off hs, perform_ok (play_of_no_transfer (hnone false) s)]
    simp only [pin_events_bl, State.emitted, completed, List.append_assoc]

/-- Settles O57. -/
theorem scrollCompletes : Obligations.ScrollCompletes := by
  intro a b c s hs hq
  constructor
  · rw [exec_vscrdef hs, perform_play_quiet hq]
    simp only [be16_toNat, List.cons_append, List.nil_append]
  · rw [exec_vscsad hs, perform_play_quiet hq, be16_toNat]

/-! ## The fill engine -/

theorem repeat_pixel_length (color : Word) (n : Nat) : (repeatPixel color n).length = 2 * n := by
  simp [repeatPixel, pixel_bytes_eq, Nat.mul_comm]

theorem repeat_pixel_add (color : Word) (m n : Nat) :
    repeatPixel color m ++ repeatPixel color n = repeatPixel color (m + n) := by
  simp only [repeatPixel, ← List.flatten_append, List.replicate_append_replicate]

theorem replicate_repeat_pixel_flatten (color : Word) (k m : Nat) :
    (List.replicate k (repeatPixel color m)).flatten = repeatPixel color (m * k) := by
  induction k with
  | zero => rfl
  | succ k ih => rw [List.replicate_succ, List.flatten_cons, ih, repeat_pixel_add, Nat.mul_succ, Nat.add_comm]

/-- The transfers joined are the pixels, and nothing else (40_command_window_fill.md R125). -/
theorem fill_chunks_flatten (color : Word) (n : Nat) : (fillChunks color n).flatten = repeatPixel color n := by
  have hrest : (if n % stagePixels > 0 then [repeatPixel color (n % stagePixels)] else []).flatten =
      repeatPixel color (n % stagePixels) := by
    split
    · simp
    · have hzero : n % stagePixels = 0 := by omega
      rw [hzero]
      rfl
  rw [fillChunks, List.flatten_append, replicate_repeat_pixel_flatten, hrest, repeat_pixel_add,
    Nat.div_add_mod]

/-- Settles O36. -/
theorem fillChunksExact : Obligations.FillChunksExact := by
  intro color n
  refine ⟨?_, ?_⟩
  · rw [fill_chunks_flatten, repeatPixel, pixel_bytes_eq]
  · have hrest : (if n % stagePixels > 0 then [repeatPixel color (n % stagePixels)] else []).map List.length =
        if n % 128 = 0 then [] else [2 * (n % 128)] := by
      have hstage : stagePixels = 128 := rfl
      rw [hstage]
      by_cases h : n % 128 = 0
      · simp [h]
      · rw [if_neg h, if_pos (Nat.pos_of_ne_zero h), List.map_singleton, repeat_pixel_length]
    rw [fillChunks, List.map_append, hrest, List.map_replicate, repeat_pixel_length]
    rfl

/-! ## Windows and drawing -/

/-- A coordinate that is not negative is its own bits. -/
theorem to_int_toNat {v : Word} (h : 0 ≤ v.toInt) : v.toInt.toNat = v.toNat := by
  have := v.isLt
  rw [BitVec.toInt_eq_toNat_cond] at h ⊢
  split at h <;> split <;> omega

/-- `SET_WINDOW` in a drawable state: a window inside the active area is programmed, any other dropped. -/
theorem exec_set_window {s : State} (h : Drawable s) {w hh : Word} (hw : s.display.width = some w)
    (hhh : s.display.height = some hh) (x0 y0 x1 y1 : Word) :
    exec (.setWindow x0 y0 x1 y1) s =
      if windowFits w hh x0.toInt y0.toInt x1.toInt y1.toInt = true then
        perform 5 (play (windowEvents s.display x0.toNat y0.toNat x1.toNat y1.toNat))
          { s with display := boxWith s.display x0.toNat y0.toNat x1.toNat y1.toNat }
      else .next (completed s 5) := by
  refine (perform_guarded_geometry h.1 h.2.1 5 _).trans ?_
  have happly := set_window_apply (draw_ready_of_drawable h) hw hhh x0.toInt y0.toInt x1.toInt y1.toInt
  split
  · rename_i hf
    rw [if_pos hf] at happly
    simp only [windowFits, decide_eq_true_eq] at hf
    rw [to_int_toNat (by omega), to_int_toNat (by omega), to_int_toNat (by omega), to_int_toNat (by omega)] at happly
    refine perform_congr ?_
    rw [windowThen, bind_apply]
    simp only [sext16, happly, bind_apply]
    rcases play _ _ with ⟨_, _⟩ | ⟨_, _⟩ <;> rfl
  · rename_i hf
    rw [if_neg hf] at happly
    refine perform_ok ?_
    rw [windowThen]
    simp only [sext16, bind_ok happly]
    rfl

/-- Settles O34. -/
theorem setWindowCompletes : Obligations.SetWindowCompletes := by
  intro x0 y0 x1 y1 w h s hd hq hw hh
  rw [exec_set_window hd hw hh]
  simp only [windowFits, decide_eq_true_eq]
  split
  · exact perform_play_quiet (s := { s with display := boxWith s.display x0.toNat y0.toNat x1.toNat y1.toNat }) hq 5 _
  · rfl

/-- With a quiet HAL a drawing operation draws all its draws. -/
theorem exec_drawing_quiet {s : State} (h : Drawable s) (hq : HalQuiet s) {i : Instr}
    (hi : i.opcode ∈ [Opcode.pixel, .hline, .vline, .rect, .fillRect, .fill, .line, .blit])
    (hm : ∀ addr len x y w hh, i = .blit addr len x y w hh → addr.toNat + len.toNat ≤ s.params.bmemSize) :
    exec i s = .next (completed (drawAll s (drawsOf s i)) i.words) := by
  rw [exec_drawing h hi hm]
  exact perform_ok (play_draws_quiet hq _)

/-- Settles O37. -/
theorem pixelCompletes : Obligations.PixelCompletes := by
  intro x y color s hd hq
  exact exec_drawing_quiet hd hq (by simp [Instr.opcode]) (by simp)

/-- Settles O38. -/
theorem fastLinesComplete : Obligations.FastLinesComplete := by
  intro x y len color s hd hq
  exact ⟨exec_drawing_quiet hd hq (by simp [Instr.opcode]) (by simp),
    exec_drawing_quiet hd hq (by simp [Instr.opcode]) (by simp)⟩

/-- Settles O39. -/
theorem rectCompletes : Obligations.RectCompletes := by
  intro x y w h color s hd hq
  exact exec_drawing_quiet hd hq (by simp [Instr.opcode]) (by simp)

/-- Settles O40. -/
theorem fillsComplete : Obligations.FillsComplete := by
  intro x y w h color s hd hq
  exact ⟨exec_drawing_quiet hd hq (by simp [Instr.opcode]) (by simp),
    exec_drawing_quiet hd hq (by simp [Instr.opcode]) (by simp)⟩

/-- Settles O41. -/
theorem lineCompletes : Obligations.LineCompletes := by
  intro x0 y0 x1 y1 color s hd hq
  exact exec_drawing_quiet hd hq (by simp [Instr.opcode]) (by simp)

/-! ## Raw blits -/

/-- Whole pieces of a list and what is left are the list. -/
theorem pieces_flatten {α : Type} (l : List α) (n k : Nat) :
    ((List.range k).map fun i => (l.drop (n * i)).take n).flatten ++ l.drop (n * k) = l := by
  induction k with
  | zero => simp
  | succ k ih =>
    rw [List.range_succ, List.map_append, List.flatten_append, List.append_assoc]
    simp only [List.map_cons, List.map_nil, List.flatten_cons, List.flatten_nil, List.append_nil]
    rw [Nat.mul_succ, ← List.drop_drop, List.take_append_drop, ih]

theorem blit_chunks_flatten (bytes : List Byte) : (blitChunks bytes).flatten = bytes := by
  have hrest : (if bytes.length % blitChunk > 0 then [bytes.drop (blitChunk * (bytes.length / blitChunk))]
      else []).flatten = bytes.drop (blitChunk * (bytes.length / blitChunk)) := by
    have hdiv := Nat.div_add_mod bytes.length blitChunk
    split
    · simp
    · rw [List.drop_eq_nil_of_le (by omega)]
      rfl
  rw [blitChunks, List.flatten_append, hrest, pieces_flatten]

theorem blit_chunks_lengths (bytes : List Byte) : (blitChunks bytes).map List.length =
    List.replicate (bytes.length / 256) 256 ++ (if bytes.length % 256 = 0 then [] else [bytes.length % 256]) := by
  have hdiv := Nat.div_add_mod bytes.length 256
  have hchunk : blitChunk = 256 := rfl
  have hwhole : (List.range (bytes.length / 256)).map
      (fun i => ((bytes.drop (256 * i)).take 256).length) = List.replicate (bytes.length / 256) 256 := by
    rw [List.eq_replicate_iff]
    refine ⟨by simp, fun n hn => ?_⟩
    obtain ⟨i, hi, rfl⟩ := List.mem_map.1 hn
    rw [List.mem_range] at hi
    rw [List.length_take, List.length_drop]
    omega
  have hrest : (if bytes.length % 256 > 0 then [bytes.drop (256 * (bytes.length / 256))] else []).map List.length =
      if bytes.length % 256 = 0 then [] else [bytes.length % 256] := by
    by_cases h : bytes.length % 256 = 0
    · simp [h]
    · have hleft : bytes.length - 256 * (bytes.length / 256) = bytes.length % 256 := by omega
      rw [if_neg h, if_pos (Nat.pos_of_ne_zero h), List.map_singleton, List.length_drop, hleft]
  rw [blitChunks, List.map_append, List.map_map, hchunk, hrest]
  exact congrArg (· ++ _) hwhole

/-- Settles O44. -/
theorem blitCompletes : Obligations.BlitCompletes := by
  refine ⟨fun addr len x y w h s hd hq hm => ?_, fun bytes => ⟨blit_chunks_flatten bytes, blit_chunks_lengths bytes⟩⟩
  refine exec_drawing_quiet hd hq (by simp [Instr.opcode]) ?_
  rintro _ _ _ _ _ _ ⟨⟩
  exact hm

/-! ## The dirty-box interface -/

/-- The box as the two operations answer it (44_orientation_dirtybox.md R188). -/
def boxResults (asSize : Bool) (x0 y0 x1 y1 : Word) : Results :=
  { r0 := some (x0.setWidth 32), r1 := some (y0.setWidth 32)
    r2 := some (if asSize then BitVec.ofInt 32 (x1.toNat - x0.toNat + 1) else x1.setWidth 32)
    r3 := some (if asSize then BitVec.ofInt 32 (y1.toNat - y0.toNat + 1) else y1.setWidth 32) }

theorem read_box_apply {s : State} {x0 y0 x1 y1 : Word} (hx0 : s.display.minX = some x0)
    (hy0 : s.display.minY = some y0) (hx1 : s.display.maxX = some x1) (hy1 : s.display.maxY = some y1)
    (asSize : Bool) : readBox asSize s = .ok () { s with results := boxResults asSize x0 y0 x1 y1 } := by
  rw [readBox, bind_ok (need_some 13 hx0), bind_ok (need_some 14 hy0), bind_ok (need_some 15 hx1),
    bind_ok (need_some 16 hy1)]
  cases asSize <;> simp [boxResults, toResult]

/-- Settles O50. -/
theorem boundingCompletes : Obligations.BoundingCompletes := by
  intro asSize enable x0 y0 x1 y1 w h s hs hg hx0 hy0 hx1 hy1 hw hh box
  have hread := read_box_apply hx0 hy0 hx1 hy1 asSize
  constructor
  · exact (perform_guarded_geometry hs hg 1 _).trans (perform_ok hread)
  · refine (perform_guarded_geometry hs hg 1 _).trans (perform_ok (t := { s with
      results := box
      display := { s.display with
        bounding := some enable, minX := some w, minY := some h, maxX := some 0, maxY := some 0 } }) ?_)
    rw [bind_ok hread, bind_ok (update_display_apply _ _)]
    exact box_reset_apply hw hh

end Sys2Proof.Proofs

/-! PROOFS. The custom-init script read back, construction and initialisation when they complete, and the round trip of a
colour (45_lifecycle.md R201, R202, R205, R206; 46_color.md R233). -/

namespace Sys2Proof.Proofs

open Sys2Proof.Machine Sys2Proof.Safety Sys2Proof.Laws

/-! ## The script layout -/

theorem parse_entries_end (b : List Byte) (fuel : Nat) : parseEntries b fuel b.length = .ok [] := by
  cases fuel <;> exact if_neg (Nat.lt_irrefl _)

/-- Well-formed entries up to the end of the bytes are all read. -/
theorem parse_entries_all {entries : List ScriptEntry} (h : ∀ e ∈ entries, EntryFits e) (pre : List Byte) {fuel : Nat}
    (hfuel : entries.length ≤ fuel) :
    parseEntries (pre ++ scriptBytes entries) fuel pre.length = .ok entries := by
  induction entries generalizing pre fuel with
  | nil =>
    have hbytes : pre ++ scriptBytes [] = pre := List.append_nil pre
    rw [hbytes]
    exact parse_entries_end pre fuel
  | cons e entries ih =>
    obtain ⟨fuel, rfl⟩ : ∃ k, fuel = k + 1 := ⟨fuel - 1, by rw [List.length_cons] at hfuel; omega⟩
    have hbytes : scriptBytes (e :: entries) = entryBytes e ++ scriptBytes entries := rfl
    have hne : entryBytes e ++ scriptBytes entries ≠ [] := by simp [entryBytes]
    have hrest := ih (fun e he => h e (by simp [he])) (pre ++ entryBytes e) (fuel := fuel)
      (by rw [List.length_cons] at hfuel; omega)
    rw [List.append_assoc] at hrest
    rw [hbytes, parse_entries_succ pre hne, first_entry_entry_bytes (h e (by simp)), Option.elim_some, hrest]
    rfl

theorem parse_script_bytes {entries : List ScriptEntry} (h : ∀ e ∈ entries, EntryFits e) :
    parseEntries (scriptBytes entries) (scriptBytes entries).length 0 = .ok entries := by
  simpa using parse_entries_all h [] (length_le_script_bytes entries)

/-- Bytes that parse are the bytes of what they parse to. -/
theorem script_bytes_of_parse {fuel : Nat} {pre b : List Byte} {entries : List ScriptEntry}
    (h : parseEntries (pre ++ b) fuel pre.length = .ok entries) :
    b = scriptBytes entries ∧ ∀ e ∈ entries, EntryFits e := by
  induction fuel generalizing pre b entries with
  | zero =>
    rw [parseEntries] at h
    split at h
    · cases h
    · rename_i hlen
      cases h
      rw [List.length_append] at hlen
      exact ⟨List.length_eq_zero_iff.1 (by omega), by simp⟩
  | succ fuel ih =>
    by_cases hb : b = []
    · subst hb
      rw [List.append_nil, parse_entries_end] at h
      cases h
      exact ⟨rfl, by simp⟩
    · rw [parse_entries_succ pre hb] at h
      cases he : firstEntry b with
      | none => rw [he] at h; cases h
      | some e =>
        obtain ⟨hfits, later, rfl⟩ := first_entry_of_bytes he
        rw [he, Option.elim_some, ← List.append_assoc] at h
        cases hrest : parseEntries (pre ++ entryBytes e ++ later) fuel (pre ++ entryBytes e).length with
        | error o => rw [hrest] at h; cases h
        | ok es =>
          rw [hrest] at h
          cases h
          obtain ⟨rfl, hall⟩ := ih hrest
          exact ⟨rfl, List.forall_mem_cons.2 ⟨hfits, hall⟩⟩

/-- Settles O30: one turn of the parser's loop reads exactly one entry's bytes, in both directions. -/
theorem scriptRoundTrip : Obligations.ScriptRoundTrip :=
  ⟨fun _ => parse_script_bytes, fun _ _ h => script_bytes_of_parse (pre := []) h⟩

/-! ## Construction -/

theorem parse_script_ok {addr len : Nat} {s : State} {entries : List ScriptEntry}
    (hrange : addr + len ≤ s.params.bmemSize) (hcap : ∀ c ∈ s.params.cinitCap, len ≤ c)
    (hfits : ∀ e ∈ entries, EntryFits e) (hbytes : readBytes s.bmem addr len = scriptBytes entries) :
    parseScript addr len s = .ok entries s := by
  have hcheck : checkScriptCap len s = .ok () s := by
    rw [check_script_cap_apply, if_neg fun h => ?_]
    obtain ⟨c, hc, hlt⟩ := exceeds_cap_iff.1 h
    exact absurd (hcap c hc) (Nat.not_le.2 hlt)
  rw [parseScript, bind_ok (check_range_in_range hrange), bind_ok hcheck, bind_ok (mem_read_in_range hrange), hbytes,
    parse_script_bytes hfits]
  rfl

/-- The script that `CONFIG` takes: none, or the parsed one (45_lifecycle.md R201). -/
def ScriptTaken (s : State) (ci : Bool) (addr len : Nat) (script : CustomInit) : Prop :=
  ci = false ∧ script = .absent ∨
    ci = true ∧ addr + len ≤ s.params.bmemSize ∧ (∀ cap ∈ s.params.cinitCap, len ≤ cap) ∧
      ∃ entries, script = .script entries ∧ (∀ e ∈ entries, EntryFits e) ∧
        readBytes s.bmem addr len = scriptBytes entries

theorem choose_script_ok {s : State} {ci : Bool} {addr len : Nat} {script : CustomInit}
    (h : ScriptTaken s ci addr len script) : chooseScript ci addr len s = .ok script s := by
  obtain ⟨rfl, rfl⟩ | ⟨rfl, hrange, hcap, entries, rfl, hfits, hbytes⟩ := h
  · rfl
  · rw [chooseScript, if_pos rfl, bind_ok (parse_script_ok hrange hcap hfits hbytes)]
    rfl

theorem config_body_ok {f : ConfigFlags} {dw dh rotation options nrec : Word} {addr len : Nat}
    {recs table : List RotRec} {script : CustomInit} {s : State} (hs : s.configured = false) (hdc : f.dc = true)
    (hn : nrec.toNat ≤ 255) (ht : TableTaken s nrec dw dh recs table)
    (hrecs : ∀ r ∈ table, r.width ≠ 0 ∧ r.height ≠ 0) (hscript : ScriptTaken s f.ci addr len script) :
    configBody f dw dh rotation options nrec addr len recs s =
      .ok () { s with
        configured := true, display := configuredDisplay f dw dh rotation options table script s.display } := by
  rw [config_body_with_table _ _ _ _ hs hdc hn ht, check_table_ok hrecs, pure_bind,
    bind_ok (choose_script_ok hscript), bind_ok (update_display_apply _ s)]
  rfl

theorem config_words {f : ConfigFlags} {dw dh rotation options nrec : Word} {addr len : DWord}
    {recs : List RotRec} (hn : nrec.toNat ≤ 255) :
    (Instr.config f dw dh rotation options nrec addr len recs).words = 10 + 5 * nrec.toNat := by
  change (if nrec.toNat ≤ 255 then 10 + 5 * nrec.toNat else 10) = _
  rw [if_pos hn]

/-- Settles O52: past its tests, `CONFIG` is one write of the Display and the flag. -/
theorem configCompletes : Obligations.ConfigCompletes := by
  intro f dw dh rotation options nrec addr len recs table script s _ hs hdc hn ht hrecs hscript
  have hbody := config_body_ok (rotation := rotation) (options := options) hs hdc hn ht hrecs hscript
  refine (perform_ok hbody).trans ?_
  rw [config_words hn]
  rfl

/-! ## Initialisation -/

/-- The panel's own initialisation plays the events that the Display gives. -/
theorem plays_panel_init {d : Display} {c : CustomInit} {panel : List Event} (hc : d.cinit = some c)
    (h : panelInitEvents d = some panel) : Plays (panelInit c) d panel := by
  cases c with
  | absent =>
    simp only [panelInitEvents, hc, Option.map_eq_some_iff] at h
    obtain ⟨inversion, hinv, rfl⟩ := h
    exact plays_panel_init_default d hinv
  | script entries =>
    simp only [panelInitEvents, hc, Option.some.injEq] at h
    rw [← h]
    exact plays_panel_init_script d entries

theorem cinit_of_panel_events {d : Display} {panel : List Event} (h : panelInitEvents d = some panel) :
    ∃ c, d.cinit = some c := by
  cases hc : d.cinit with
  | none => simp [panelInitEvents, hc] at h
  | some c => exact ⟨c, rfl⟩

/-- What follows events may be read as what it does on the same Display. -/
theorem play_then_congr {α : Type} {es : List Event} {f g : Op α} {s : State}
    (h : ∀ t, t.display = s.display → f t = g t) : (play es >>= fun _ => f) s = (play es >>= fun _ => g) s := by
  rw [bind_apply, bind_apply]
  rcases play_cases es s with hok | ⟨_, _, _, -, -, herr⟩
  · rw [hok]
    exact h _ rfl
  · rw [herr]

theorem plays_then {α : Type} {a : Op Unit} {es : List Event} {f g : Op α} {s : State} (ha : Plays a s.display es)
    (h : ∀ t, t.display = s.display → f t = g t) : (a >>= fun _ => f) s = (play es >>= fun _ => g) s :=
  (bind_congr_left (ha s rfl) _).trans (play_then_congr h)

/-- `INIT` from `set_rotation()` on. -/
def initFromRotation : Op Unit := do
  setRotation
  delay delaySettle
  fillScreen colorBLACK
  pin .bl true

/-- `INIT` is the playing of its panel sequence, and then the rest on the Display it began with. -/
theorem init_body_apply {s : State} {panel : List Event} (h : panelInitEvents s.display = some panel) :
    initBody s = (play (hardResetEvents s.display ++ panel) >>= fun _ => initFromRotation) s := by
  obtain ⟨c, hc⟩ := cinit_of_panel_events h
  have hrest : ∀ t : State, t.display = s.display →
      (need srCinit Display.cinit >>= fun c => panelInit c >>= fun _ => initFromRotation) t =
        (play panel >>= fun _ => initFromRotation) t := by
    intro t ht
    have hneed : need srCinit Display.cinit t = .ok c t := need_some srCinit (by rw [ht]; exact hc)
    have hpanel : Plays (panelInit c) t.display panel := by rw [ht]; exact plays_panel_init hc h
    rw [bind_ok hneed]
    exact plays_then hpanel fun _ _ => rfl
  calc initBody s
    _ = (play (hardResetEvents s.display) >>= fun _ => play panel >>= fun _ => initFromRotation) s :=
      plays_then (plays_hard_reset s.display) hrest
    _ = (play (hardResetEvents s.display ++ panel) >>= fun _ => initFromRotation) s := by
      rw [← bind_assoc]
      exact bind_congr_left (play_append _ _ s).symm _

/-- With an index in range, `INIT` goes on with the record's geometry: MADCTL, 10 ms, the black screen, the backlight. -/
theorem init_from_rotation_apply {s : State} {k n co : Byte} {table : List RotRec} {rec : RotRec}
    (hk : s.display.rotation = some k) (hn : s.display.rotationsLen = some n) (ht : s.display.rot = some table)
    (hc : s.display.colorOrder = some co) (hlt : k.toNat < n.toNat) (hrec : table[k.toNat]? = some rec) :
    initFromRotation s =
      (play (commandEvents s.display 0x36 [lowByte (co.setWidth 16 ||| rec.madctl)] ++ [.delay 10]) >>= fun _ =>
        fillScreen colorBLACK >>= fun _ => pin .bl true)
        { s with display := rotated s.display co rec, geomValid := true } := by
  have hset := set_rotation_apply hk hn ht hc hlt hrec
  calc initFromRotation s
    _ = (play (commandEvents s.display 0x36 [lowByte (co.setWidth 16 ||| rec.madctl)]) >>= fun _ =>
          delay delaySettle >>= fun _ => fillScreen colorBLACK >>= fun _ => pin .bl true)
          { s with display := rotated s.display co rec, geomValid := true } := bind_congr_left hset _
    _ = (play (commandEvents s.display 0x36 [lowByte (co.setWidth 16 ||| rec.madctl)]) >>= fun _ =>
          play [.delay 10] >>= fun _ => fillScreen colorBLACK >>= fun _ => pin .bl true)
          { s with display := rotated s.display co rec, geomValid := true } :=
      play_then_congr fun t _ => bind_congr_left (plays_delay t.display 10 t rfl) _
    _ = _ := by
      rw [← bind_assoc]
      exact bind_congr_left (play_append _ _ _).symm _

theorem draw_ready_rotated {d : Display} {co : Byte} {rec : RotRec} (hw : rec.width ≠ 0) (hh : rec.height ≠ 0)
    (ho : d.options.isSome) (hb : d.bounding.isSome) : DrawReady (rotated d co rec) :=
  ⟨⟨rfl, rfl, rfl, rfl, rfl, rfl, rfl, rfl, rfl⟩, ho, hb, fun h => hw (Option.some.inj h),
    fun h => hh (Option.some.inj h)⟩

theorem pin_events_rotated (d : Display) (co : Byte) (rec : RotRec) (p : Pin) (l : Bool) :
    pinEvents (rotated d co rec) p l = pinEvents d p l := pin_events_congr rfl rfl rfl p l

/-- Settles O53: the panel sequence, the rotation and the black screen, one after another. -/
theorem initCompletes : Obligations.InitCompletes := by
  intro k n co table rec panel s hs hq hpanel hk hn ht hco hlt hrec hw hh ho hb t
  have hready := draw_ready_rotated (co := co) hw hh ho hb
  have hplay := play_quiet hq (hardResetEvents s.display ++ panel)
  have hrot := init_from_rotation_apply (s := s.emitted (hardResetEvents s.display ++ panel)) hk hn ht hco hlt hrec
  let u : State := { s.emitted (hardResetEvents s.display ++ panel) with
    display := rotated s.display co rec, geomValid := true }
  have hqu : HalQuiet u := hal_quiet_emitted hq (hardResetEvents s.display ++ panel)
  let es := commandEvents s.display 0x36 [lowByte (co.setWidth 16 ||| rec.madctl)] ++ [Event.delay 10]
  have hfill : fillScreen colorBLACK (u.emitted es) =
      .ok () (drawAll (u.emitted es) (fillDraws (rotated s.display co rec) colorBLACK)) :=
    ((draws_fill_screen colorBLACK).2 (u.emitted es) hready).trans
      (play_draws_quiet (hal_quiet_emitted hqu es) _)
  have hbody : initBody s = .ok () ((drawAll (u.emitted es) (fillDraws (rotated s.display co rec) colorBLACK)).emitted
      (pinEvents s.display .bl true)) := by
    rw [init_body_apply hpanel, bind_ok hplay, hrot]
    refine (bind_ok (play_quiet hqu es) _).trans ((bind_ok hfill _).trans ?_)
    have hpins : pinEvents (drawAll (u.emitted es) (fillDraws (rotated s.display co rec) colorBLACK)).display .bl true =
        pinEvents s.display .bl true :=
      (pin_events_box_with _ _ _ _ _ _ _).trans (pin_events_rotated _ _ _ _ _)
    rw [pin_apply, hpins]
  refine (perform_guarded hs 1 _).trans ((perform_ok hbody).trans ?_)
  simp [u, es, t, completed, State.emitted, fillDraws, drawAll, drawOne, windowed, lowByte, colorBLACK]

/-! ## The round trip of a colour -/

/-- Settles O59: the packed colour's fields are read back by their places. -/
theorem colorRoundTrip : Obligations.ColorRoundTrip := by
  intro r g b s hr hg hb
  refine ⟨_, _, exec_color565 r g b s, rfl, ?_⟩
  rw [pack565_eq, Nat.mod_eq_of_lt hr, Nat.mod_eq_of_lt hg, Nat.mod_eq_of_lt hb]
  simp only [BitVec.extractLsb'_toNat, BitVec.toNat_ofNat, Nat.shiftRight_eq_div_pow]
  omega

end Sys2Proof.Proofs

/-! PROOFS. The bit-array expansion pixel by pixel, and `MAPBITS` when it completes and when it overflows
(43_buffers.md R172, R173; 60_exceptions.md R251). -/

namespace Sys2Proof.Proofs

open Sys2Proof.Machine Sys2Proof.Safety Sys2Proof.Laws

/-! ## One byte -/

/-- The two bytes of the pixel that a source bit gives. -/
def bitPixel (fg bg : Word) (bit : Bool) : List Byte := pixelBytes (if bit then fg else bg)

/-- The pixels of a byte end with its bits or with the row. -/
theorem expand_bits_eq (width : Nat) (fg bg : Word) (b : Byte) (k : Nat) {rowPos : Nat} (h : rowPos < width) :
    expandBits width fg bg b k rowPos =
      ((List.range (min k (width - rowPos))).flatMap fun j => bitPixel fg bg (b.getLsbD (k - 1 - j)),
        if width ≤ rowPos + k then 0 else rowPos + k) := by
  induction k generalizing rowPos with
  | zero => simp [expandBits, Nat.not_le.2 h]
  | succ k ih =>
    by_cases hend : rowPos + 1 ≥ width
    · have hone : min (k + 1) (width - rowPos) = 1 := by omega
      have hfull : width ≤ rowPos + (k + 1) := by omega
      rw [expandBits, if_pos hend, hone, if_pos hfull]
      rw [List.range_one, List.flatMap_singleton]
      rfl
    · have hmin : min (k + 1) (width - rowPos) = min k (width - (rowPos + 1)) + 1 := by omega
      have hpos : rowPos + 1 + k = rowPos + (k + 1) := by omega
      have hbits : ∀ j, k + 1 - 1 - j.succ = k - 1 - j := fun j => by omega
      rw [expandBits, if_neg hend, ih (by omega), hmin, List.range_succ_eq_map, List.flatMap_cons, List.flatMap_map,
        hpos]
      simp only [hbits]
      rfl

/-! ## Rows -/

theorem row_bytes_pos {width : Nat} (h : 1 ≤ width) : 0 < rowBytes width := by
  unfold rowBytes
  omega

/-- The pixels of byte `r` of a row. -/
def bytePixels (width r : Nat) : Nat := min 8 (width - 8 * r)

/-- The pixels before byte `r` of row `a`. -/
theorem expanded_pixels_at {width r : Nat} (a : Nat) (hr : r < rowBytes width) :
    expandedPixels width (a * rowBytes width + r) = a * width + 8 * r := by
  have hdiv : (a * rowBytes width + r) / rowBytes width = a := by
    rw [Nat.add_comm, Nat.add_mul_div_right _ _ (by omega), Nat.div_eq_of_lt hr, Nat.zero_add]
  have hmod : (a * rowBytes width + r) % rowBytes width = r := by
    rw [Nat.add_comm, Nat.add_mul_mod_self_right, Nat.mod_eq_of_lt hr]
  rw [expandedPixels, hdiv, hmod, Nat.mul_comm r]

/-- The row position after byte `r` of a row: the next byte's, or the start of the next row. -/
theorem expanded_pixels_after {width r : Nat} (a : Nat) (hr : r < rowBytes width) :
    expandedPixels width (a * rowBytes width + r + 1) = a * width + 8 * r + bytePixels width r := by
  unfold bytePixels
  by_cases hend : r + 1 < rowBytes width
  · rw [Nat.add_assoc, expanded_pixels_at a hend]
    unfold rowBytes at hend
    omega
  · have hrow : a * rowBytes width + r + 1 = (a + 1) * rowBytes width + 0 := by
      rw [Nat.add_mul]
      omega
    rw [hrow, expanded_pixels_at (a + 1) (by omega), Nat.add_mul]
    unfold rowBytes at hend hr
    omega

theorem expanded_pixels_mono {width : Nat} (h : 1 ≤ width) : Monotone (expandedPixels width) := by
  refine monotone_nat_of_le_succ fun n => ?_
  have hr : n % rowBytes width < rowBytes width := Nat.mod_lt _ (row_bytes_pos h)
  have hn : n = n / rowBytes width * rowBytes width + n % rowBytes width := (Nat.div_add_mod' _ _).symm
  have hat := expanded_pixels_at (n / rowBytes width) hr
  have hafter := expanded_pixels_after (n / rowBytes width) hr
  rw [← hn] at hat hafter
  omega

/-- A pixel of byte `r` of row `a` is that byte's bit, the most significant first. -/
theorem source_bit_at {all : List Byte} {width a r j : Nat} (hj : j < bytePixels width r) :
    sourceBit all width (a * width + 8 * r + j) = (all.getD (a * rowBytes width + r) 0).getLsbD (7 - j) := by
  unfold bytePixels at hj
  have hlt : 8 * r + j < width := by omega
  have hdiv : (a * width + 8 * r + j) / width = a := by
    rw [Nat.add_assoc, Nat.add_comm, Nat.add_mul_div_right _ _ (by omega), Nat.div_eq_of_lt hlt, Nat.zero_add]
  have hmod : (a * width + 8 * r + j) % width = 8 * r + j := by
    rw [Nat.add_assoc, Nat.add_comm, Nat.add_mul_mod_self_right, Nat.mod_eq_of_lt hlt]
  have hbyte : (8 * r + j) / 8 = r := by omega
  have hbit : (8 * r + j) % 8 = j := by omega
  rw [sourceBit, hdiv, hmod, hbyte, hbit]

/-! ## The whole expansion -/

/-- From byte `r` of row `a` on, the expansion is the pixels from that byte's first to the last. -/
theorem expand_from_eq {width : Nat} (fg bg : Word) (before bits : List Byte) {a r : Nat} (hr : r < rowBytes width)
    (hat : before.length = a * rowBytes width + r) :
    expandFrom width fg bg (8 * r) bits =
      (List.range (expandedPixels width (before.length + bits.length) - (a * width + 8 * r))).flatMap fun i =>
        bitPixel fg bg (sourceBit (before ++ bits) width (a * width + 8 * r + i)) := by
  induction bits generalizing before a r with
  | nil =>
    have hnone : expandedPixels width before.length - (a * width + 8 * r) = 0 := by
      rw [hat, expanded_pixels_at a hr, Nat.sub_self]
    rw [List.length_nil, Nat.add_zero, hnone]
    rfl
  | cons b bits ih =>
    have hstart : 8 * r < width := by unfold rowBytes at hr; omega
    have hall : before ++ b :: bits = (before ++ [b]) ++ bits := by simp
    have hlength : before.length + (b :: bits).length = (before ++ [b]).length + bits.length := by simp; omega
    have hhere : (expandBits width fg bg b 8 (8 * r)).1 =
        (List.range (bytePixels width r)).flatMap fun j =>
          bitPixel fg bg (sourceBit (before ++ b :: bits) width (a * width + 8 * r + j)) := by
      rw [expand_bits_eq width fg bg b 8 hstart]
      refine List.flatMap_congr fun j hj => ?_
      rw [source_bit_at (List.mem_range.1 hj), ← hat]
      simp
    have hafter : ∃ a' r', r' < rowBytes width ∧ (before ++ [b]).length = a' * rowBytes width + r' ∧
        a' * width + 8 * r' = a * width + 8 * r + bytePixels width r ∧
        (expandBits width fg bg b 8 (8 * r)).2 = 8 * r' := by
      rw [expand_bits_eq width fg bg b 8 hstart, List.length_append, List.length_singleton, hat]
      unfold bytePixels
      by_cases hend : width ≤ 8 * r + 8
      · refine ⟨a + 1, 0, by omega, ?_, ?_, if_pos hend⟩
        · rw [Nat.add_mul]; unfold rowBytes at hr ⊢; omega
        · rw [Nat.add_mul]; omega
      · exact ⟨a, r + 1, by unfold rowBytes; omega, by omega, by omega, if_neg hend⟩
    obtain ⟨a', r', hr', hat', hpix, hpos⟩ := hafter
    have hmono : bytePixels width r ≤
        expandedPixels width (before.length + (b :: bits).length) - (a * width + 8 * r) := by
      have hmono := expanded_pixels_mono (width := width) (by omega) (show before.length + 1 ≤
        before.length + (b :: bits).length by simp)
      have hnext := expanded_pixels_after (width := width) a hr
      rw [← hat] at hnext
      omega
    rw [expandFrom, hhere, hpos, ih (before ++ [b]) hr' hat', ← hall, ← hlength, hpix]
    have hsplit : expandedPixels width (before.length + (b :: bits).length) - (a * width + 8 * r) =
        bytePixels width r + (expandedPixels width (before.length + (b :: bits).length) -
          (a * width + 8 * r + bytePixels width r)) := by omega
    rw [hsplit, List.range_add, List.flatMap_append, List.flatMap_map]
    simp only [Nat.add_assoc]

/-- The whole expansion, from the first byte on. -/
theorem expand_eq (bits : List Byte) {width : Nat} (fg bg : Word) (h : 1 ≤ width) :
    expand bits width fg bg =
      (List.range (expandedPixels width bits.length)).flatMap fun p => bitPixel fg bg (sourceBit bits width p) := by
  rw [expand]
  simpa using expand_from_eq fg bg [] bits (a := 0) (row_bytes_pos h) (by simp)

/-- Settles O46. -/
theorem expandClosedForm : Obligations.ExpandClosedForm := by
  intro bits width fg bg h
  rw [expand_eq bits fg bg h]
  refine List.flatMap_congr fun p _ => ?_
  rw [bitPixel, pixel_bytes_eq]
  split <;> rfl

theorem expand_length (bits : List Byte) {width : Nat} (fg bg : Word) (h : 1 ≤ width) :
    (expand bits width fg bg).length = 2 * expandedPixels width bits.length := by
  have htwo : ∀ p, (bitPixel fg bg (sourceBit bits width p)).length = 2 := fun _ => rfl
  rw [expand_eq bits fg bg h, List.length_flatMap]
  simp [htwo, Nat.mul_comm]

/-! ## `MAPBITS` -/

theorem word_pos {v : Word} (h : v ≠ 0) : 1 ≤ v.toNat :=
  Nat.one_le_iff_ne_zero.2 fun e => h (BitVec.eq_of_toNat_eq e)

section
variable {src srclen dst dstcap : DWord} {width : Word} (fg bg : Word) {s : State}

/-- Past its range checks, `MAPBITS` measures the expansion of the source, then writes it and its count. -/
theorem mapbits_body_in_range {out : List Byte} (hw : width ≠ 0) (hsrc : src.toNat + srclen.toNat ≤ s.params.bmemSize)
    (hdst : dst.toNat + dstcap.toNat ≤ s.params.bmemSize)
    (hout : expand (readBytes s.bmem src.toNat srclen.toNat) width.toNat fg bg = out) :
    mapbitsBody src.toNat srclen.toNat dst.toNat dstcap.toNat width.toNat fg bg s =
      (onlyIf (out.length > dstcap.toNat) (raise .outOverflow out.length) >>= fun _ =>
        memWrite dst.toNat out >>= fun _ =>
        updateResults fun r => { r with r0 := some (toResult ((out.length / 2 : Nat) : Int)) }) s := by
  have hpos : ¬ width.toNat = 0 := by have := word_pos hw; omega
  rw [mapbitsBody, only_if_neg hpos, pure_bind, bind_ok (check_range_in_range hsrc),
    bind_ok (check_range_in_range hdst), bind_ok (mem_read_in_range hsrc), hout]

theorem mapbits_expansion_length (m : Memory) (hw : width ≠ 0) :
    (expand (readBytes m src.toNat srclen.toNat) width.toNat fg bg).length =
      2 * expandedPixels width.toNat srclen.toNat := by
  rw [expand_length _ fg bg (word_pos hw), read_bytes_length]

theorem mapbits_body_overflow (hw : width ≠ 0) (hsrc : src.toNat + srclen.toNat ≤ s.params.bmemSize)
    (hdst : dst.toNat + dstcap.toNat ≤ s.params.bmemSize)
    (hcap : dstcap.toNat < 2 * expandedPixels width.toNat srclen.toNat) :
    mapbitsBody src.toNat srclen.toNat dst.toNat dstcap.toNat width.toNat fg bg s =
      .error ⟨.outOverflow, 2 * expandedPixels width.toNat srclen.toNat⟩ s := by
  have hlen := mapbits_expansion_length (src := src) (srclen := srclen) fg bg s.bmem hw
  rw [mapbits_body_in_range fg bg hw hsrc hdst rfl, only_if_pos (hlen ▸ hcap), bind_error (raise_apply _ _ _), hlen]

theorem mapbits_body_ok (hw : width ≠ 0) (hsrc : src.toNat + srclen.toNat ≤ s.params.bmemSize)
    (hdst : dst.toNat + dstcap.toNat ≤ s.params.bmemSize)
    (hcap : 2 * expandedPixels width.toNat srclen.toNat ≤ dstcap.toNat) :
    mapbitsBody src.toNat srclen.toNat dst.toNat dstcap.toNat width.toNat fg bg s =
      .ok () { s with
        bmem := writeBytes s.bmem dst.toNat (expand (readBytes s.bmem src.toNat srclen.toNat) width.toNat fg bg),
        results := { s.results with r0 := some (BitVec.ofNat 32 (expandedPixels width.toNat srclen.toNat)) } } := by
  have hlen := mapbits_expansion_length (src := src) (srclen := srclen) fg bg s.bmem hw
  generalize hout : expand (readBytes s.bmem src.toNat srclen.toNat) width.toNat fg bg = out at hlen ⊢
  have hwrite : memWrite dst.toNat out s = .ok () { s with bmem := writeBytes s.bmem dst.toNat out } := by
    rw [mem_write_apply, hlen, if_neg (by omega)]
  have hhalf : out.length / 2 = expandedPixels width.toNat srclen.toNat := by omega
  rw [mapbits_body_in_range fg bg hw hsrc hdst hout, only_if_neg (by omega), pure_bind, bind_ok hwrite, hhalf, toResult,
    BitVec.ofInt_natCast]
  rfl

end

/-- Settles O45. -/
theorem mapbitsCompletes : Obligations.MapbitsCompletes := by
  intro src srclen dst dstcap width fg bg s hm hw hsrc hdst hcap
  have hexec : exec (.mapbits src srclen dst dstcap width fg bg) s =
      execMapbits src srclen dst dstcap width fg bg s := rfl
  refine ⟨writeBytes s.bmem dst.toNat (expand (readBytes s.bmem src.toNat srclen.toNat) width.toNat fg bg),
    hexec.trans (perform_ok (mapbits_body_ok fg bg hw hsrc hdst hcap)), fun a => ?_⟩
  rw [read_write_bytes _ _ _ _ hm.1, expand_length _ fg bg (word_pos hw), read_bytes_length]

/-- Settles O28: the width is tested first and the length of the expansion last, before the write; the other operations'
causes are other ones. -/
theorem mapbitsFaults : Obligations.MapbitsFaults := by
  refine ⟨fun src srclen dst dstcap fg bg s => ?_, fun src srclen dst dstcap width fg bg s hw hsrc hdst hcap hfits =>
    ?_, fun i s t hs hi ht hf => ?_⟩
  · refine exec_mapbits_faulted (c := .badOperand) (n := 0) ?_ rfl
    exact bind_error (show onlyIf (0 = 0) (raise .badOperand 0) s = .error ⟨.badOperand, 0⟩ s from rfl) _
  · exact exec_mapbits_faulted (c := .outOverflow) (mapbits_body_overflow fg bg hw hsrc hdst hcap)
      (info_word_of_lt hfits)
  · obtain ⟨c, hc, hcause⟩ := exec_faults_only i s t ht hs hf
    have other : ∀ o : Opcode, o ≠ .mapbits → ∀ c ∈ causesOf o, c.code ≠ 9 ∧ c.code ≠ 10 := by
      intro o ho
      cases o with
      | mapbits => exact absurd rfl ho
      | _ => decide
    rw [hcause]
    exact other _ hi c hc

end Sys2Proof.Proofs

/-! PROOFS. The line rasterizer: the oriented line by its operands, its runs as the Bresenham points in maximal runs, and
the order of the endpoints (42_line.md R161 to R165). -/

namespace Sys2Proof.Proofs

open Sys2Proof.Machine Sys2Proof.Safety Sys2Proof.Laws

/-! ## The oriented line -/

theorem orient_line_dx_nonneg (x0 y0 x1 y1 : Int) : 0 ≤ (orientLine x0 y0 x1 y1).dx := by
  simp only [orientLine, Line.dx]
  split <;> split <;> simp only at * <;> omega

/-- The axes are exchanged exactly when that makes the major axis the longer one. -/
theorem orient_line_dy_le_dx (x0 y0 x1 y1 : Int) :
    (orientLine x0 y0 x1 y1).dy ≤ (orientLine x0 y0 x1 y1).dx := by
  simp only [orientLine, Line.dx, Line.dy]
  by_cases hsteep : |y1 - y0| > |x1 - x0|
  · simp only [hsteep, decide_true, if_true]
    split <;> simp only [abs] at * <;> omega
  · simp only [hsteep, decide_false, Bool.false_eq_true, if_false]
    split <;> simp only [abs] at * <;> omega

/-- Endpoints with one major coordinate are one point, so their order is fixed by the major coordinates alone. -/
theorem orient_line_swap (x0 y0 x1 y1 : Int) : orientLine x0 y0 x1 y1 = orientLine x1 y1 x0 y0 := by
  have hx := abs_sub_comm x1 x0
  have hy := abs_sub_comm y1 y0
  simp only [orientLine, hx, hy]
  by_cases hsteep : |y0 - y1| > |x0 - x1|
  · simp only [hsteep, decide_true, if_true]
    rcases lt_trichotomy y0 y1 with h | h | h
    · rw [if_neg (by omega), if_pos (by omega)]
    · rw [h, sub_self, abs_zero] at hsteep
      exact absurd hsteep (not_lt.2 (abs_nonneg _))
    · rw [if_pos (by omega), if_neg (by omega)]
  · simp only [hsteep, decide_false, Bool.false_eq_true, if_false]
    rcases lt_trichotomy x0 x1 with h | h | h
    · rw [if_neg (by omega), if_pos (by omega)]
    · have hy : y0 = y1 := by
        rw [h, sub_self, abs_zero] at hsteep
        have := abs_nonpos_iff.1 (not_lt.1 hsteep)
        omega
      rw [h, hy]
    · rw [if_pos (by omega), if_neg (by omega)]

/-- Settles O43: the oriented line is the same, and nothing else of the operands is read. -/
theorem lineEndpointOrder : Obligations.LineEndpointOrder := by
  intro a b c d color s
  have hexec : ∀ x0 y0 x1 y1 : Word, exec (.line x0 y0 x1 y1 color) s = execLine x0 y0 x1 y1 color s :=
    fun _ _ _ _ => rfl
  rw [hexec, hexec, execLine, execLine, orient_line_swap]
  rfl

/-! ## The runs -/

theorem runs_from_nonempty {dx dy ystep : Int} {n : Nat} {x err y xs : Int} {dlen : Nat} :
    ∀ r ∈ runsFrom dx dy ystep n x err y xs dlen, 1 ≤ r.dlen := by
  induction n generalizing x err y xs dlen with
  | zero =>
    rw [runsFrom]
    split
    · exact List.forall_mem_singleton.2 ‹dlen > 0›
    · simp
  | succ n ih =>
    rw [runsFrom]
    split
    · exact List.forall_mem_cons.2 ⟨Nat.le_add_left 1 _, ih⟩
    · exact ih

/-- The first run of the loop is at its minor coordinate. -/
theorem runs_from_head {dx dy ystep : Int} {n : Nat} {x err y xs : Int} {dlen : Nat} :
    ∀ r ∈ (runsFrom dx dy ystep n x err y xs dlen).head?, r.y = y := by
  induction n generalizing x err xs dlen with
  | zero =>
    rw [runsFrom]
    split <;> simp
  | succ n ih =>
    rw [runsFrom]
    split
    · simp
    · exact ih

/-- A run is flushed before its end only when the minor coordinate moves. -/
theorem runs_from_maximal {dx dy ystep : Int} (hstep : ystep ≠ 0) {n : Nat} {x err y xs : Int} {dlen : Nat} :
    (runsFrom dx dy ystep n x err y xs dlen).IsChain fun a b => a.y ≠ b.y := by
  induction n generalizing x err y xs dlen with
  | zero =>
    rw [runsFrom]
    split <;> simp
  | succ n ih =>
    rw [runsFrom]
    split
    · refine List.isChain_cons.2 ⟨fun r hr => ?_, ih⟩
      have hy := runs_from_head r hr
      simp only [ne_eq]
      omega
    · exact ih

theorem ystep_ne_zero (l : Line) : l.ystep ≠ 0 := by
  unfold Line.ystep
  split <;> decide

/-! ## The points of the runs -/

/-- The steps of the minor coordinate in the next `j` iterations from the error term `err`. -/
def minorSteps (dx dy err : Int) (j : Nat) : Int := -((err - j * dy) / dx)

/-- The error term stays within the major extent; a line with no extent has none along the minor axis either. -/
structure ErrorOk (dx dy err : Int) : Prop where
  dy_nonneg : 0 ≤ dy
  dy_le : dy ≤ dx
  nonneg : 0 ≤ err
  le : err ≤ dx
  lt : 0 < dx → err < dx

theorem minor_steps_zero {dx dy err : Int} (h : ErrorOk dx dy err) : minorSteps dx dy err 0 = 0 := by
  obtain ⟨h1, h2, h3, h4, h5⟩ := h
  rw [minorSteps, Nat.cast_zero, zero_mul, sub_zero, neg_eq_zero]
  by_cases hdx : 0 < dx
  · exact Int.ediv_eq_zero_of_lt h3 (h5 hdx)
  · rw [show dx = 0 by omega, Int.ediv_zero]

theorem minor_steps_nonneg {dx dy err : Int} (h : ErrorOk dx dy err) (j : Nat) : 0 ≤ minorSteps dx dy err j := by
  obtain ⟨h1, h2, h3, h4, h5⟩ := h
  have hj : 0 ≤ (j : Int) * dy := by positivity
  rw [minorSteps, Int.neg_nonneg]
  by_cases hdx : 0 < dx
  · have := h5 hdx
    exact Int.le_of_lt_add_one (Int.ediv_lt_of_lt_mul hdx (by omega))
  · rw [show dx = 0 by omega, Int.ediv_zero]

/-- An iteration that steps the minor coordinate. -/
theorem minor_steps_step {dx dy err : Int} (h : ErrorOk dx dy err) (hneg : err - dy < 0) (j : Nat) :
    minorSteps dx dy err (j + 1) = 1 + minorSteps dx dy (err - dy + dx) j := by
  obtain ⟨h1, h2, h3, h4, h5⟩ := h
  have hdx : dx ≠ 0 := by omega
  have e : err - dy + dx - j * dy = err - ((j + 1 : Nat) : Int) * dy + 1 * dx := by push_cast; ring
  rw [minorSteps, minorSteps, e, Int.add_mul_ediv_right _ _ hdx]
  omega

/-- An iteration that does not. -/
theorem minor_steps_stay (dx dy err : Int) (j : Nat) :
    minorSteps dx dy err (j + 1) = minorSteps dx dy (err - dy) j := by
  have e : err - dy - j * dy = err - ((j + 1 : Nat) : Int) * dy := by push_cast; ring
  rw [minorSteps, minorSteps, e]

/-- The pixels of the loop's runs: those of the run it holds, then one for each iteration. -/
theorem runs_from_points {dx dy ystep : Int} {n : Nat} {err y xs : Int} {dlen : Nat} (h : ErrorOk dx dy err) :
    (runsFrom dx dy ystep n (xs + dlen) err y xs dlen).flatMap runPoints =
      (List.range dlen).map (fun j : Nat => (xs + (j : Int), y)) ++
        (List.range n).map fun j : Nat => (xs + dlen + (j : Int), y + ystep * minorSteps dx dy err j) := by
  induction n generalizing err y xs dlen with
  | zero =>
    rw [runsFrom]
    split
    · simp [runPoints]
    · simp [show dlen = 0 by omega]
  | succ n ih =>
    have hnow : (List.range (dlen + 1)).map (fun j : Nat => (xs + (j : Int), y)) =
        (List.range dlen).map (fun j : Nat => (xs + (j : Int), y)) ++
          [(xs + dlen + ((0 : Nat) : Int), y + ystep * minorSteps dx dy err 0)] := by
      rw [List.range_succ, List.map_append, minor_steps_zero h]
      simp
    obtain ⟨h1, h2, h3, h4, h5⟩ := h
    rw [runsFrom, List.range_succ_eq_map, List.map_cons, List.map_map]
    split
    · rename_i hneg
      have hrest := ih (err := err - dy + dx) (y := y + ystep) (xs := xs + dlen + 1) (dlen := 0)
        ⟨h1, h2, by omega, by omega, fun _ => by omega⟩
      rw [Nat.cast_zero, add_zero] at hrest
      rw [List.flatMap_cons, hrest, runPoints, hnow, List.append_assoc]
      simp only [List.range_zero, List.map_nil, List.nil_append, Function.comp_def,
        minor_steps_step ⟨h1, h2, h3, h4, h5⟩ hneg, Nat.cast_succ, List.cons_append]
      congr 2
      refine List.map_congr_left fun j _ => Prod.ext ?_ ?_
      · simp only; omega
      · simp only; ring
    · rename_i hpos
      have hrest := ih (err := err - dy) (y := y) (xs := xs) (dlen := dlen + 1)
        ⟨h1, h2, by omega, by omega, fun hdx => by have := h5 hdx; omega⟩
      rw [Nat.cast_add, Nat.cast_one, ← add_assoc] at hrest
      rw [hrest, hnow, List.append_assoc]
      simp only [List.singleton_append, Function.comp_def, minor_steps_stay, Nat.cast_succ]
      congr 2
      refine List.map_congr_left fun j _ => Prod.ext ?_ rfl
      simp only; omega

theorem start_error_ok {l : Line} (hdx : 0 ≤ l.dx) (hdy : l.dy ≤ l.dx) : ErrorOk l.dx l.dy (l.dx / 2) :=
  ⟨abs_nonneg _, hdy, by omega, by omega, fun _ => by omega⟩

/-- The closed form of a point is the loop's count of steps: with these extents neither the test for no extent nor the
maximum changes it. -/
theorem ideal_point_eq {l : Line} (hdx : 0 ≤ l.dx) (hdy : l.dy ≤ l.dx) (i : Nat) :
    idealPoint l i = (l.x0 + i, l.y0 + l.ystep * minorSteps l.dx l.dy (l.dx / 2) i) := by
  have hnonneg := minor_steps_nonneg (start_error_ok hdx hdy) i
  rw [minorSteps] at hnonneg
  rw [idealPoint, minorSteps]
  split
  · rename_i hzero
    rw [hzero, Int.ediv_zero, Int.neg_zero]
  · rw [max_eq_right hnonneg]

theorem line_runs_points {l : Line} (hdx : 0 ≤ l.dx) (hdy : l.dy ≤ l.dx) :
    l.runs.flatMap runPoints = (List.range (l.dx + 1).toNat).map (idealPoint l) := by
  have h := runs_from_points (ystep := l.ystep) (n := (l.dx + 1).toNat) (y := l.y0) (xs := l.x0) (dlen := 0)
    (start_error_ok hdx hdy)
  rw [Nat.cast_zero, add_zero] at h
  rw [Line.runs, h]
  exact List.map_congr_left fun i _ => (ideal_point_eq hdx hdy i).symm

/-- The oriented line written out in its operands (42_line.md R161). -/
theorem orient_line_cases (x0 y0 x1 y1 : Int) :
    let l := orientLine x0 y0 x1 y1
    if |y1 - y0| > |x1 - x0| then
      if y0 > y1 then
        l = ⟨true, y1, x1, y0, x0⟩ ∧ l.dx = y0 - y1 ∧ l.dy = |x0 - x1| ∧ l.ystep = if x1 < x0 then 1 else -1
      else
        l = ⟨true, y0, x0, y1, x1⟩ ∧ l.dx = y1 - y0 ∧ l.dy = |x1 - x0| ∧ l.ystep = if x0 < x1 then 1 else -1
    else if x0 > x1 then
      l = ⟨false, x1, y1, x0, y0⟩ ∧ l.dx = x0 - x1 ∧ l.dy = |y0 - y1| ∧ l.ystep = if y1 < y0 then 1 else -1
    else
      l = ⟨false, x0, y0, x1, y1⟩ ∧ l.dx = x1 - x0 ∧ l.dy = |y1 - y0| ∧ l.ystep = if y0 < y1 then 1 else -1 := by
  have oriented : ∀ {l m : Line}, l = m → l = m ∧ l.dx = m.x1 - m.x0 ∧ l.dy = |m.y1 - m.y0| ∧
      l.ystep = if m.y0 < m.y1 then 1 else -1 := by
    rintro l _ rfl
    exact ⟨rfl, rfl, rfl, rfl⟩
  intro l
  by_cases hsteep : |y1 - y0| > |x1 - x0|
  · rw [if_pos hsteep]
    split <;> refine oriented ?_ <;> simp [l, orientLine, *]
  · rw [if_neg hsteep]
    split <;> refine oriented ?_ <;> simp [l, orientLine, *]

/-- Settles O42. -/
theorem lineClosedForm : Obligations.LineClosedForm := by
  intro x0 y0 x1 y1 l
  refine ⟨orient_line_cases x0 y0 x1 y1, runs_from_nonempty, fun before a b later h => ?_,
    line_runs_points (orient_line_dx_nonneg _ _ _ _) (orient_line_dy_le_dx _ _ _ _)⟩
  have hchain : l.runs.IsChain fun a b => a.y ≠ b.y := runs_from_maximal (ystep_ne_zero l)
  rw [h] at hchain
  exact (List.isChain_cons_cons.1 (List.isChain_append.1 hchain).2.1).1

end Sys2Proof.Proofs

/-! PROOFS. The dirty box after a sequence of windows: the least first corner and the greatest second corner of those that
were programmed (44_orientation_dirtybox.md R190; 40_command_window_fill.md R123). -/

namespace Sys2Proof.Proofs

open Sys2Proof.Machine Sys2Proof.Safety Sys2Proof.Laws

/-! ## Least and greatest of a list of coordinates -/

/-- The lesser and the greater of two coordinates, as a window expands the box. -/
def lesser (a b : Word) : Word := BitVec.ofNat 16 (min a.toNat b.toNat)

def greater (a b : Word) : Word := BitVec.ofNat 16 (max a.toNat b.toNat)

theorem lesser_eq (a b : Word) : lesser a b = if a ≤ b then a else b := by
  unfold lesser
  split <;> rename_i h <;> rw [BitVec.le_def] at h
  · rw [Nat.min_eq_left h, BitVec.ofNat_toNat, BitVec.setWidth_eq]
  · rw [Nat.min_eq_right (by omega), BitVec.ofNat_toNat, BitVec.setWidth_eq]

theorem greater_eq (a b : Word) : greater a b = if a ≤ b then b else a := by
  unfold greater
  split <;> rename_i h <;> rw [BitVec.le_def] at h
  · rw [Nat.max_eq_right h, BitVec.ofNat_toNat, BitVec.setWidth_eq]
  · rw [Nat.max_eq_left (by omega), BitVec.ofNat_toNat, BitVec.setWidth_eq]

/-- The least of a start value and a list is a lower bound of both and one of them. -/
theorem foldl_lesser (a : Word) (vs : List Word) :
    vs.foldl lesser a ≤ a ∧ (∀ v ∈ vs, vs.foldl lesser a ≤ v) ∧ (vs.foldl lesser a = a ∨ vs.foldl lesser a ∈ vs) := by
  induction vs generalizing a with
  | nil => simp
  | cons v vs ih =>
    obtain ⟨h1, h2, h3⟩ := ih (lesser a v)
    rw [List.foldl_cons]
    generalize vs.foldl lesser (lesser a v) = x at h1 h2 h3 ⊢
    rw [lesser_eq] at h1 h3
    simp only [BitVec.le_def] at *
    split at h1 <;> rename_i hle
    · rw [if_pos hle] at h3
      exact ⟨h1, List.forall_mem_cons.2 ⟨by omega, h2⟩, h3.imp_right (List.mem_cons_of_mem v)⟩
    · rw [if_neg hle] at h3
      exact ⟨by omega, List.forall_mem_cons.2 ⟨h1, h2⟩, .inr (List.mem_cons.2 h3)⟩

/-- The greatest of a start value and a list is an upper bound of both and one of them. -/
theorem foldl_greater (a : Word) (vs : List Word) :
    a ≤ vs.foldl greater a ∧ (∀ v ∈ vs, v ≤ vs.foldl greater a) ∧
      (vs.foldl greater a = a ∨ vs.foldl greater a ∈ vs) := by
  induction vs generalizing a with
  | nil => simp
  | cons v vs ih =>
    obtain ⟨h1, h2, h3⟩ := ih (greater a v)
    rw [List.foldl_cons]
    generalize vs.foldl greater (greater a v) = x at h1 h2 h3 ⊢
    rw [greater_eq] at h1 h3
    simp only [BitVec.le_def] at *
    split at h1 <;> rename_i hle
    · rw [if_pos hle] at h3
      exact ⟨by omega, List.forall_mem_cons.2 ⟨h1, h2⟩, .inr (List.mem_cons.2 h3)⟩
    · rw [if_neg hle] at h3
      exact ⟨h1, List.forall_mem_cons.2 ⟨by omega, h2⟩, h3.imp_right (List.mem_cons_of_mem v)⟩

/-! ## The box after programmed windows -/

/-- A window by its two corners, as `SET_WINDOW` takes it. -/
abbrev Corners := Word × Word × Word × Word

/-- The window lies inside the active area, with its corners in order (40_command_window_fill.md R123). -/
abbrev Corners.Inside (w h : Word) (g : Corners) : Prop :=
  0 ≤ g.1.toInt ∧ g.1.toInt ≤ g.2.2.1.toInt ∧ g.2.2.1.toInt < (w.toNat : Int) ∧
    0 ≤ g.2.1.toInt ∧ g.2.1.toInt ≤ g.2.2.2.toInt ∧ g.2.2.2.toInt < (h.toNat : Int)

/-- The Display after a window of these corners is programmed. -/
def boxStep (d : Display) (g : Corners) : Display := boxWith d g.1.toNat g.2.1.toNat g.2.2.1.toNat g.2.2.2.toNat

theorem foldl_box_step (ps : List Corners) {d : Display} {a b c e : Word} (hb : d.bounding = some true)
    (ha : d.minX = some a) (hb' : d.minY = some b) (hc : d.maxX = some c) (he : d.maxY = some e) :
    ps.foldl boxStep d = { d with
      minX := some ((ps.map fun g => g.1).foldl lesser a), minY := some ((ps.map fun g => g.2.1).foldl lesser b)
      maxX := some ((ps.map fun g => g.2.2.1).foldl greater c)
      maxY := some ((ps.map fun g => g.2.2.2).foldl greater e) } := by
  induction ps generalizing d a b c e with
  | nil => simp [← ha, ← hb', ← hc, ← he]
  | cons g ps ih =>
    have hstep : boxStep d g = { d with
        minX := some (lesser a g.1), minY := some (lesser b g.2.1), maxX := some (greater c g.2.2.1)
        maxY := some (greater e g.2.2.2) } := by
      simp only [boxStep, boxWith, hb, ha, hb', hc, he, if_true, Option.map_some, lesser, greater]
    rw [List.foldl_cons, hstep, ih (d := { d with
        minX := some (lesser a g.1), minY := some (lesser b g.2.1), maxX := some (greater c g.2.2.1)
        maxY := some (greater e g.2.2.2) }) hb rfl rfl rfl rfl]
    simp only [List.map_cons, List.foldl_cons]

/-- From the sentinel, the least first coordinate is that of a window, since every window is inside the area. -/
theorem least_of_windows {vs : List Word} {w : Word} (hne : vs ≠ []) (hlt : ∀ v ∈ vs, v.toNat < w.toNat) :
    vs.foldl lesser w ∈ vs := by
  obtain ⟨-, hle, hmem⟩ := foldl_lesser w vs
  refine hmem.resolve_left fun heq => ?_
  obtain ⟨v, hv⟩ := List.exists_mem_of_ne_nil vs hne
  have h := hle v hv
  rw [heq, BitVec.le_def] at h
  have := hlt v hv
  omega

/-- From zero, the greatest second coordinate is that of a window. -/
theorem greatest_of_windows {vs : List Word} (hne : vs ≠ []) : vs.foldl greater 0 ∈ vs := by
  obtain ⟨-, hle, hmem⟩ := foldl_greater 0 vs
  refine hmem.elim (fun heq => ?_) id
  obtain ⟨v, hv⟩ := List.exists_mem_of_ne_nil vs hne
  have h := hle v hv
  rw [heq] at h ⊢
  rwa [show v = 0 from BitVec.le_zero_iff.1 h] at hv

/-! ## The sequence of operations -/

theorem drawable_windowed {s : State} (h : Drawable s) (x0 y0 x1 y1 : Nat) : Drawable (windowed s x0 y0 x1 y1) :=
  ⟨h.1, h.2.1, draw_ready_box_with (draw_ready_of_drawable h) x0 y0 x1 y1⟩

theorem hal_quiet_windowed {s : State} (h : HalQuiet s) (x0 y0 x1 y1 : Nat) : HalQuiet (windowed s x0 y0 x1 y1) :=
  hal_quiet_emitted h _

/-- A sequence of `SET_WINDOW`s completes; its box is that of the windows inside the area, one after another. -/
theorem exec_all_windows (ws : List Corners) {w h : Word} {s : State} (hd : Drawable s) (hq : HalQuiet s)
    (hw : s.display.width = some w) (hh : s.display.height = some h) :
    ∃ t, execAll (ws.map fun g => .setWindow g.1 g.2.1 g.2.2.1 g.2.2.2) s = .next t ∧
      t.display = (ws.filter fun g => decide (Corners.Inside w h g)).foldl boxStep s.display ∧
      ((ws.filter fun g => decide (Corners.Inside w h g)) = [] → t.trace = s.trace) := by
  induction ws generalizing s with
  | nil => exact ⟨s, rfl, rfl, fun _ => rfl⟩
  | cons g ws ih =>
    have hexec := setWindowCompletes g.1 g.2.1 g.2.2.1 g.2.2.2 w h s hd hq hw hh
    rw [List.map_cons, execAll, hexec]
    by_cases hin : Corners.Inside w h g
    · obtain ⟨t, ht, hbox, -⟩ := ih (s := completed (windowed s g.1.toNat g.2.1.toNat g.2.2.1.toNat g.2.2.2.toNat) 5)
        (drawable_windowed hd _ _ _ _) (hal_quiet_windowed hq _ _ _ _) (by simpa using hw) (by simpa using hh)
      rw [if_pos hin, List.filter_cons_of_pos (by simpa using hin)]
      exact ⟨t, ht, hbox, fun hnil => by cases hnil⟩
    · rw [if_neg hin, List.filter_cons_of_neg (by simpa using hin)]
      exact ih (s := completed s 5) hd hq hw hh

/-- Settles O51: the box is a least and a greatest over the programmed windows, and the sentinel is above and below all of
them. -/
theorem dirtyBoxIsUnion : Obligations.DirtyBoxIsUnion := by
  intro ws w h s hd hq hb hw hh hx0 hy0 hx1 hy1 programmed
  obtain ⟨t, ht, hbox, htrace⟩ := exec_all_windows ws hd hq hw hh
  have hinside : ∀ g ∈ programmed, Corners.Inside w h g := fun g hg => by simpa using (List.mem_filter.1 hg).2
  refine ⟨t, ht, fun hnone => ⟨?_, htrace hnone⟩, fun hsome => ?_⟩
  · rw [hbox, show (ws.filter fun g => decide (Corners.Inside w h g)) = [] from hnone]
    rfl
  · have hne : ∀ f : Corners → Word, programmed.map f ≠ [] := fun f => by simpa using hsome
    have hx : ∀ v ∈ programmed.map fun g => g.1, v.toNat < w.toNat := List.forall_mem_map.2 fun g hg => by
      obtain ⟨h1, h2, h3, -⟩ := hinside g hg
      rw [← to_int_toNat h1]
      omega
    have hy : ∀ v ∈ programmed.map fun g => g.2.1, v.toNat < h.toNat := List.forall_mem_map.2 fun g hg => by
      obtain ⟨-, -, -, h1, h2, h3⟩ := hinside g hg
      rw [← to_int_toNat h1]
      omega
    have chosen : ∀ {f : Corners → Word} {x : Word}, x ∈ programmed.map f → ∃ g ∈ programmed, x = f g := by
      intro f x hx
      obtain ⟨g, hg, rfl⟩ := List.mem_map.1 hx
      exact ⟨g, hg, rfl⟩
    refine ⟨_, _, _, _, hbox.trans (foldl_box_step programmed hb hx0 hy0 hx1 hy1),
      chosen (least_of_windows (hne _) hx), List.forall_mem_map.1 (foldl_lesser w _).2.1,
      chosen (least_of_windows (hne _) hy), List.forall_mem_map.1 (foldl_lesser h _).2.1,
      chosen (greatest_of_windows (hne _)), List.forall_mem_map.1 (foldl_greater 0 _).2.1,
      chosen (greatest_of_windows (hne _)), List.forall_mem_map.1 (foldl_greater 0 _).2.1⟩

end Sys2Proof.Proofs

/-! PROOFS. How every operation is built: from tests that leave the state, writes that emit nothing, and lists of events
handed to the HAL. One induction over this says what an operation can emit, and one that it reads no result register
(10_state.md R23; 20_memory.md R62 to R66). -/

namespace Sys2Proof.Proofs

open Sys2Proof.Machine Sys2Proof.Safety Sys2Proof.Laws

/-! ## Events an operation may emit -/

/-- Wherever the events stand, no byte of them is sent at an unknown level of DC. -/
def LevelKnown (es : List Event) : Prop :=
  ∀ (delivered : Nat → Nat) (dc : Option Bool) (k : Nat), ∀ x ∈ wireFrom delivered dc k es, x.1 ≠ none

/-- Events as an operation asks for them: no failed transfer, no empty one, no byte at an unknown level. -/
structure Requested (es : List Event) : Prop where
  no_fail : ∀ b, .spiFail b ∉ es
  no_empty : .spi [] ∉ es
  level : LevelKnown es

theorem level_known_of_carries {es : List Event} {ws : List (Option Bool × Byte)} (h : Carries es ws)
    (hws : ∀ x ∈ ws, x.1 ≠ none) : LevelKnown es := fun delivered dc k => by
  rw [h]
  exact hws

theorem level_known_append {a b : List Event} (ha : LevelKnown a) (hb : LevelKnown b) : LevelKnown (a ++ b) :=
  fun delivered dc k x hx => by
    rw [wire_from_append] at hx
    exact (List.mem_append.1 hx).elim (ha delivered dc k x) (hb _ _ _ x)

/-- A failed transfer sends a part of what it was asked to, at the same level. -/
theorem level_known_failed {pre post : List Event} {b : List Byte} (h : LevelKnown (pre ++ .spi b :: post))
    (d : Display) : LevelKnown (pre ++ .spiFail b :: pinEvents d .cs true) := by
  intro delivered dc k x hx
  have h := h delivered dc k x
  rw [wire_from_append] at h hx
  have hcs := carries_pin_events d (p := .cs) (by decide) true
  simp only [wireFrom, hcs delivered, List.append_nil, List.mem_append] at h hx
  refine h (hx.imp_right fun hx => .inl ?_)
  obtain ⟨c, hc, rfl⟩ := List.mem_map.1 hx
  exact List.mem_map_of_mem (List.mem_of_mem_take hc)

theorem requested_append {a b : List Event} (ha : Requested a) (hb : Requested b) : Requested (a ++ b) where
  no_fail c hc := (List.mem_append.1 hc).elim (ha.no_fail c) (hb.no_fail c)
  no_empty hc := (List.mem_append.1 hc).elim ha.no_empty hb.no_empty
  level := level_known_append ha.level hb.level

theorem requested_nil : Requested [] := ⟨by simp, by simp, level_known_of_carries carries_nil (by simp)⟩

theorem requested_delay (n : Nat) : Requested [.delay n] :=
  ⟨by simp, by simp, level_known_of_carries (carries_delay n) (by simp)⟩

theorem requested_pin_events (d : Display) (p : Pin) (l : Bool) : Requested (pinEvents d p l) := by
  refine ⟨fun b => ?_, spi_not_mem_pin_events d p l [], ?_⟩
  · unfold pinEvents
    split <;> simp
  · by_cases hp : p = .dc
    · subst hp
      intro _ _ _ x hx
      cases hx
    · exact level_known_of_carries (carries_pin_events d hp l) (by simp)

theorem requested_command (d : Display) (cmd : Byte) (data : List Byte) : Requested (commandEvents d cmd data) := by
  have hpin := requested_pin_events d .cs
  refine ⟨fun b => ?_, ?_, level_known_of_carries (carries_command d cmd data) fun x hx => ?_⟩
  · have h0 := (hpin false).no_fail b
    have h1 := (hpin true).no_fail b
    unfold commandEvents
    split <;> split <;> simp [h0, h1]
  · have h0 := (hpin false).no_empty
    have h1 := (hpin true).no_empty
    unfold commandEvents
    split <;> split <;> simp_all
  · rcases List.mem_append.1 hx with hx | hx
    · split at hx
      · cases hx
      · rw [List.mem_singleton.1 hx]
        simp
    · obtain ⟨b, -, rfl⟩ := List.mem_map.1 hx
      simp

theorem requested_pixels (d : Display) (chunks : List (List Byte)) : Requested (pixelEvents d chunks) := by
  have hpin := requested_pin_events d .cs
  refine ⟨fun b => ?_, ?_, level_known_of_carries (carries_pixels d chunks) fun x hx => ?_⟩
  · have h0 := (hpin false).no_fail b
    have h1 := (hpin true).no_fail b
    simp [pixelEvents, h0, h1]
  · have h0 := (hpin false).no_empty
    have h1 := (hpin true).no_empty
    simp [pixelEvents, h0, h1]
  · obtain ⟨b, -, rfl⟩ := List.mem_map.1 hx
    simp

/-! ## Operations that emit nothing -/

/-- Each register of the second pair is given the value that it has in the first, or both are left alone: the pairs are the
registers before and after the same operation. -/
def SameWrites (r s r' s' : Results) : Prop :=
  ∀ reg ∈ [Results.r0, Results.r1, Results.r2, Results.r3], reg s' = reg s ∨ (reg s' = reg r' ∧ reg s = reg r)

theorem same_writes_refl (r r' : Results) : SameWrites r r r' r' := fun _ _ => .inr ⟨rfl, rfl⟩

theorem same_writes_trans {r s t r' s' t' : Results} (h1 : SameWrites r s r' s') (h2 : SameWrites s t s' t') :
    SameWrites r t r' t' := fun reg hreg => by
  rcases h2 reg hreg with h | ⟨h, h'⟩
  · exact .inl h
  · rcases h1 reg hreg with g | ⟨g, g'⟩
    · exact .inl (by rw [h, g, h'])
    · exact .inr ⟨h.trans g, h'.trans g'⟩

/-- The operation leaves the state, and its answer does not depend on the result registers. -/
def Tests {α : Type} (op : Op α) : Prop :=
  ∀ s : State, (∃ a, ∀ r, op { s with results := r } = .ok a { s with results := r }) ∨
    ∃ e : Raised, e.cause ≠ .halError ∧ ∀ r, op { s with results := r } = .error e { s with results := r }

/-- The operation emits nothing: it completes with a write that the relation admits, or raises with the state as it was;
it reads no result register. -/
def Silent (R : State → State → Prop) {α : Type} (op : Op α) : Prop :=
  ∀ s : State, (∃ a t, op s = .ok a t ∧ R s t ∧ t.trace = s.trace ∧ t.params = s.params ∧
      ∀ r, ∃ r', op { s with results := r } = .ok a { t with results := r' } ∧ SameWrites s.results t.results r r') ∨
    ∃ e : Raised, op s = .error e s ∧ e.cause ≠ .halError ∧
      ∀ r, op { s with results := r } = .error e { s with results := r }

section
variable {α β : Type}

theorem tests_pure (a : α) : Tests (pure a : Op α) := fun _ => .inl ⟨a, fun _ => rfl⟩

theorem tests_raise {c : Cause} (h : c ≠ .halError) (n : Nat) : Tests (raise c n : Op α) :=
  fun _ => .inr ⟨⟨c, n⟩, h, fun _ => rfl⟩

theorem tests_bind {x : Op α} {f : α → Op β} (hx : Tests x) (hf : ∀ a, Tests (f a)) : Tests (x >>= f) := by
  intro s
  rcases hx s with ⟨a, ha⟩ | ⟨e, he, herr⟩
  · exact (hf a s).imp (fun ⟨b, hb⟩ => ⟨b, fun r => by rw [bind_ok (ha r), hb r]⟩)
      fun ⟨e, he, herr⟩ => ⟨e, he, fun r => by rw [bind_ok (ha r), herr r]⟩
  · exact .inr ⟨e, he, fun r => bind_error (herr r) f⟩

theorem tests_only_if {c : Prop} [Decidable c] {op : Op Unit} (h : Tests op) : Tests (onlyIf c op) := by
  unfold onlyIf
  split
  · exact h
  · exact tests_pure ()

theorem tests_need (sr : Nat) (f : Display → Option α) : Tests (need sr f) := fun s => by
  cases h : f s.display with
  | some v => exact .inl ⟨v, fun r => need_some sr h⟩
  | none => exact .inr ⟨_, by simp, fun r => need_none sr h⟩

/-- A test of what is no result register. -/
theorem tests_of_ite {p : State → Prop} [DecidablePred p] {op : Op α} {e : State → Raised} {a : State → α}
    (hop : ∀ s, op s = if p s then .error (e s) s else .ok (a s) s) (he : ∀ s, (e s).cause ≠ .halError)
    (hblind : ∀ s r, (p { s with results := r } ↔ p s) ∧ e { s with results := r } = e s ∧
      a { s with results := r } = a s) : Tests op := fun s => by
  by_cases hp : p s
  · exact .inr ⟨e s, he s, fun r => by rw [hop, if_pos ((hblind s r).1.2 hp), (hblind s r).2.1]⟩
  · exact .inl ⟨a s, fun r => by rw [hop, if_neg (mt (hblind s r).1.1 hp), (hblind s r).2.2]⟩

theorem tests_guard_configured : Tests guardConfigured :=
  tests_of_ite (p := fun s => ¬ s.configured = true) (e := fun _ => ⟨.notConfigured, 0⟩) (a := fun _ => ())
    (fun s => by rw [guard_configured_apply, ite_not]) (by simp) fun _ _ => ⟨Iff.rfl, rfl, rfl⟩

theorem tests_need_geom : Tests needGeom :=
  tests_of_ite (p := fun s => ¬ s.geomValid = true) (e := fun _ => ⟨.unsetState, 2⟩) (a := fun _ => ())
    (fun s => by rw [need_geom_apply, ite_not]) (by simp) fun _ _ => ⟨Iff.rfl, rfl, rfl⟩

theorem tests_guard_unconfigured : Tests guardUnconfigured :=
  tests_of_ite (p := fun s => s.configured = true) (e := fun _ => ⟨.reconfig, 0⟩) (a := fun _ => ())
    guard_unconfigured_apply (by simp) fun _ _ => ⟨Iff.rfl, rfl, rfl⟩

theorem tests_mem_read (addr n : Nat) : Tests (memRead addr n) :=
  tests_of_ite (p := fun s => addr + n > s.params.bmemSize) (e := fun _ => ⟨.bufRange, addr⟩)
    (a := fun s => readBytes s.bmem addr n) (mem_read_apply addr n) (by simp) fun _ _ => ⟨Iff.rfl, rfl, rfl⟩

theorem tests_check_range (addr n : Nat) : Tests (checkRange addr n) :=
  tests_of_ite (p := fun s => addr + n > s.params.bmemSize) (e := fun _ => ⟨.bufRange, addr⟩) (a := fun _ => ())
    (check_range_apply addr n) (by simp) fun _ _ => ⟨Iff.rfl, rfl, rfl⟩

theorem tests_check_script_cap (len : Nat) : Tests (checkScriptCap len) :=
  tests_of_ite (p := fun s => exceedsCap s.params.cinitCap len = true) (e := fun _ => ⟨.cfgScript, len⟩)
    (a := fun _ => ()) (check_script_cap_apply len) (by simp) fun _ _ => ⟨Iff.rfl, rfl, rfl⟩

theorem tests_preset_table (dw dh : Word) : Tests (presetTable dw dh) := fun s => by
  cases h : findPreset s.params.presets dw dh with
  | some table => exact .inl ⟨table, fun r => preset_table_some h⟩
  | none => exact .inr ⟨_, by simp, fun r => preset_table_none h⟩

theorem tests_parse_script (addr len : Nat) : Tests (parseScript addr len) := by
  refine tests_bind (tests_check_range _ _) fun _ => tests_bind (tests_check_script_cap _) fun _ =>
    tests_bind (tests_mem_read _ _) fun b => ?_
  split
  · exact tests_pure _
  · exact tests_raise (by simp) _

theorem tests_choose_script (ci : Bool) (addr len : Nat) : Tests (chooseScript ci addr len) := by
  unfold chooseScript
  split
  · exact tests_bind (tests_parse_script _ _) fun _ => tests_pure _
  · exact tests_pure _

theorem tests_choose_table (nrec dw dh : Word) (recs : List RotRec) : Tests (chooseTable nrec dw dh recs) := by
  unfold chooseTable
  split
  · exact tests_preset_table _ _
  · exact tests_pure _

theorem tests_check_table (table : List RotRec) : Tests (checkTable table) := by
  unfold checkTable
  split
  · exact tests_raise (by simp) _
  · exact tests_pure _

variable {R : State → State → Prop}

theorem silent_of_tests (hr : ∀ s, R s s) {op : Op α} (h : Tests op) : Silent R op := fun s => by
  rcases h s with ⟨a, ha⟩ | ⟨e, he, herr⟩
  · exact .inl ⟨a, s, ha s.results, hr s, rfl, rfl, fun r => ⟨r, ha r, same_writes_refl _ _⟩⟩
  · exact .inr ⟨e, herr s.results, he, herr⟩

theorem silent_tests_bind {x : Op α} {f : α → Op β} (hx : Tests x) (hf : ∀ a, Silent R (f a)) :
    Silent R (x >>= f) := fun s => by
  rcases hx s with ⟨a, ha⟩ | ⟨e, he, herr⟩
  · rcases hf a s with ⟨b, t, hb, hR, htrace, hparams, hblind⟩ | ⟨e, herr, he, hblind⟩
    · refine .inl ⟨b, t, (bind_ok (ha s.results) f).trans hb, hR, htrace, hparams, fun r => ?_⟩
      obtain ⟨r', hr', hsame⟩ := hblind r
      exact ⟨r', (bind_ok (ha r) f).trans hr', hsame⟩
    · exact .inr ⟨e, (bind_ok (ha s.results) f).trans herr, he, fun r => (bind_ok (ha r) f).trans (hblind r)⟩
  · exact .inr ⟨e, bind_error (herr s.results) f, he, fun r => bind_error (herr r) f⟩

/-- After a write that always completes, another one. -/
theorem silent_then {x : Op α} {f : α → Op β} (ht : ∀ s t u, R s t → R t u → R s u) (hx : Silent R x)
    (hf : ∀ a s, ∃ b t, f a s = .ok b t ∧ R s t ∧ t.trace = s.trace ∧ t.params = s.params ∧
      ∀ r, ∃ r', f a { s with results := r } = .ok b { t with results := r' } ∧
        SameWrites s.results t.results r r') : Silent R (x >>= f) := fun s => by
  rcases hx s with ⟨a, t, ha, hR, htrace, hparams, hblind⟩ | ⟨e, herr, he, hblind⟩
  · obtain ⟨b, u, hb, hR', htrace', hparams', hblind'⟩ := hf a t
    refine .inl ⟨b, u, (bind_ok ha f).trans hb, ht s t u hR hR', htrace'.trans htrace, hparams'.trans hparams,
      fun r => ?_⟩
    obtain ⟨r', hr', hsame⟩ := hblind r
    obtain ⟨r'', hr'', hsame'⟩ := hblind' r'
    exact ⟨r'', (bind_ok hr' f).trans hr'', same_writes_trans hsame hsame'⟩
  · exact .inr ⟨e, bind_error herr f, he, fun r => bind_error (hblind r) f⟩

theorem silent_update_display {f : Display → Display} (h : ∀ s : State, R s { s with display := f s.display }) :
    Silent R (updateDisplay f) :=
  fun s => .inl ⟨(), _, rfl, h s, rfl, rfl, fun r => ⟨r, rfl, same_writes_refl _ _⟩⟩

theorem silent_set_geom_valid (h : ∀ s : State, R s { s with geomValid := true }) : Silent R setGeomValid :=
  fun s => .inl ⟨(), _, rfl, h s, rfl, rfl, fun r => ⟨r, rfl, same_writes_refl _ _⟩⟩

/-- A write of the result registers that gives each a value of its own or leaves it. -/
theorem silent_update_results {f : Results → Results} (h : ∀ s : State, R s { s with results := f s.results })
    (hf : ∀ r r', SameWrites r (f r) r' (f r')) : Silent R (updateResults f) :=
  fun s => .inl ⟨(), _, rfl, h s, rfl, rfl, fun r => ⟨f r, rfl, hf _ _⟩⟩

theorem silent_mem_write {addr : Nat} {v : List Byte}
    (h : ∀ s : State, addr + v.length ≤ s.params.bmemSize → R s { s with bmem := writeBytes s.bmem addr v }) :
    Silent R (memWrite addr v) := fun s => by
  by_cases hm : addr + v.length > s.params.bmemSize
  · exact .inr ⟨⟨.bufRange, addr⟩, if_pos hm, by simp, fun r => if_pos hm⟩
  · exact .inl ⟨(), _, if_neg hm, h s (Nat.not_lt.1 hm), rfl, rfl, fun r => ⟨r, if_neg hm, same_writes_refl _ _⟩⟩

end

/-! ## Operations and what they are built from -/

/-- The operation is built from silent parts and from lists of events, each given by the Display. -/
inductive Built (R : State → State → Prop) : {α : Type} → Op α → Prop
  | silent {α : Type} {op : Op α} (h : Silent R op) : Built R op
  | emits {op : Op Unit} (es : Display → List Event) (h : ∀ d, Plays op d (es d)) (hes : ∀ d, Requested (es d)) :
      Built R op
  | bind {α β : Type} {x : Op α} {f : α → Op β} (hx : Built R x) (hf : ∀ a, Built R (f a)) : Built R (x >>= f)

/-- The operation ended in `t` after the events `es`, and all it wrote the relation admits. -/
structure Reached (R : State → State → Prop) (s t : State) (es : List Event) : Prop where
  rel : R s t
  trace : t.trace = s.trace ++ es
  params : t.params = s.params
  requested : Requested es

/-- The operation ended in `t` because the transfer of `bytes`, after the events `es`, was answered with an error. -/
structure Failed (R : State → State → Prop) (s t : State) (es : List Event) (bytes : List Byte) : Prop where
  rel : R s t
  trace : t.trace = s.trace ++ es ++ .spiFail bytes :: pinEvents t.display .cs true
  params : t.params = s.params
  requested : Requested es
  nonempty : bytes ≠ []
  level : LevelKnown (es ++ .spiFail bytes :: pinEvents t.display .cs true)
  failing : transferCount (s.trace ++ es) ∈ s.params.halFail

theorem reached_trans {R : State → State → Prop} (h : Composes R) {s t u : State} {es fs : List Event}
    (h1 : Reached R s t es) (h2 : Reached R t u fs) : Reached R s u (es ++ fs) where
  rel := h.trans _ _ _ h1.rel h2.rel
  trace := by rw [h2.trace, h1.trace, List.append_assoc]
  params := h2.params.trans h1.params
  requested := requested_append h1.requested h2.requested

theorem reached_failed {R : State → State → Prop} (h : Composes R) {s t u : State} {es fs : List Event}
    {bytes : List Byte} (h1 : Reached R s t es) (h2 : Failed R t u fs bytes) : Failed R s u (es ++ fs) bytes where
  rel := h.trans _ _ _ h1.rel h2.rel
  trace := by rw [h2.trace, h1.trace, List.append_assoc s.trace]
  params := h2.params.trans h1.params
  requested := requested_append h1.requested h2.requested
  nonempty := h2.nonempty
  level := by rw [List.append_assoc]; exact level_known_append h1.requested.level h2.level
  failing := by rw [← h1.params, ← List.append_assoc, ← h1.trace]; exact h2.failing

/-- EVERYTHING a built operation can do: it completes, it raises a fault of its own, or a transfer fails. -/
theorem built_cases {R : State → State → Prop} (hR : Composes R) {α : Type} {op : Op α} (h : Built R op) (s : State) :
    (∃ a t es, op s = .ok a t ∧ Reached R s t es) ∨
    (∃ e t es, op s = .error e t ∧ e.cause ≠ .halError ∧ Reached R s t es) ∨
    (∃ t es bytes, op s = .error ⟨.halError, transferCount (s.trace ++ es)⟩ t ∧ Failed R s t es bytes) := by
  induction h generalizing s with
  | silent hop =>
    rcases hop s with ⟨a, t, hok, hrel, htrace, hparams, -⟩ | ⟨e, herr, he, -⟩
    · exact .inl ⟨a, t, [], hok, hrel, by rw [htrace, List.append_nil], hparams, requested_nil⟩
    · exact .inr (.inl ⟨e, s, [], herr, he, hR.refl s, (List.append_nil _).symm, rfl, requested_nil⟩)
  | emits es hplays hes =>
    have hop := hplays s.display s rfl
    have hreq := hes s.display
    rcases play_cases (es s.display) s with hok | ⟨pre, b, post, heq, hfail, herr⟩
    · exact .inl ⟨(), _, es s.display, hop.trans hok, hR.emits s _, rfl, rfl, hreq⟩
    · rw [heq] at hreq
      have hb : b ≠ [] := by rintro rfl; exact hreq.no_empty (by simp)
      have hpre : Requested pre := by
        refine ⟨fun c hc => hreq.no_fail c (by simp [hc]), fun hc => hreq.no_empty (by simp [hc]), ?_⟩
        intro delivered dc k x hx
        refine hreq.level delivered dc k x ?_
        rw [wire_from_append]
        exact List.mem_append_left _ hx
      exact .inr (.inr ⟨_, pre, b, hop.trans herr, hR.emits s _, (List.append_assoc _ _ _).symm, rfl, hpre, hb,
        level_known_failed hreq.level _, hfail⟩)
  | bind hx hf ihx ihf =>
    rcases ihx s with ⟨a, t, es, hok, h1⟩ | ⟨e, t, es, herr, he, h1⟩ | ⟨t, es, bytes, herr, h1⟩
    · rcases ihf a t with ⟨b, u, fs, hok', h2⟩ | ⟨e, u, fs, herr, he, h2⟩ | ⟨u, fs, bytes, herr, h2⟩
      · exact .inl ⟨b, u, es ++ fs, (bind_ok hok _).trans hok', reached_trans hR h1 h2⟩
      · exact .inr (.inl ⟨e, u, es ++ fs, (bind_ok hok _).trans herr, he, reached_trans hR h1 h2⟩)
      · refine .inr (.inr ⟨u, es ++ fs, bytes, (bind_ok hok _).trans (herr.trans ?_), reached_failed hR h1 h2⟩)
        rw [h1.trace, List.append_assoc]
    · exact .inr (.inl ⟨e, t, es, bind_error herr _, he, h1⟩)
    · exact .inr (.inr ⟨t, es, bytes, bind_error herr _, h1⟩)

/-- The operation neither reads nor writes the result registers. -/
def IgnoresResults (op : Op Unit) : Prop :=
  ∀ (s : State) (r : Results),
    (∃ t, op s = .ok () t ∧ t.results = s.results ∧ op { s with results := r } = .ok () { t with results := r }) ∨
    (∃ e t, op s = .error e t ∧ t.results = s.results ∧
      op { s with results := r } = .error e { t with results := r })

theorem play_one_ignores_results (e : Event) : IgnoresResults (playOne e) := by
  intro s r
  cases e with
  | spi b =>
    by_cases hfail : transferCount s.trace ∈ s.params.halFail
    · exact .inr ⟨_, _, spi_error hfail b, rfl, spi_error (s := { s with results := r }) hfail b⟩
    · exact .inl ⟨_, spi_ok hfail b, rfl, spi_ok (s := { s with results := r }) hfail b⟩
  | pin p l => exact .inl ⟨_, rfl, rfl, rfl⟩
  | delay n => exact .inl ⟨_, rfl, rfl, rfl⟩
  | spiFail b => exact .inl ⟨_, rfl, rfl, rfl⟩

theorem play_ignores_results (es : List Event) : IgnoresResults (play es) := by
  induction es with
  | nil => exact fun s r => .inl ⟨s, rfl, rfl, rfl⟩
  | cons e es ih =>
    intro s r
    have hcons : play (e :: es) = playOne e >>= fun _ => play es := rfl
    rw [hcons]
    rcases play_one_ignores_results e s r with ⟨t, hok, hres, hok'⟩ | ⟨e, t, herr, hres, herr'⟩
    · rw [bind_ok hok, bind_ok hok', ← hres]
      exact ih t r
    · exact .inr ⟨e, t, bind_error herr _, hres, bind_error herr' _⟩

/-- From other results a built operation does the same, and writes the same result registers with the same values. -/
theorem built_with_results {R : State → State → Prop} {α : Type} {op : Op α} (h : Built R op) (s : State)
    (r : Results) :
    (∃ a t r', op s = .ok a t ∧ op { s with results := r } = .ok a { t with results := r' } ∧
      SameWrites s.results t.results r r') ∨
    (∃ e t r', op s = .error e t ∧ op { s with results := r } = .error e { t with results := r' } ∧
      SameWrites s.results t.results r r') := by
  induction h generalizing s r with
  | silent hop =>
    rcases hop s with ⟨a, t, hok, -, -, -, hblind⟩ | ⟨e, herr, -, hblind⟩
    · obtain ⟨r', hr', hsame⟩ := hblind r
      exact .inl ⟨a, t, r', hok, hr', hsame⟩
    · exact .inr ⟨e, s, r, herr, hblind r, same_writes_refl _ _⟩
  | emits es hplays hes =>
    have h1 := hplays s.display s rfl
    have h2 := hplays s.display { s with results := r } rfl
    rcases play_ignores_results (es s.display) s r with ⟨t, hok, hres, hok'⟩ | ⟨e, t, herr, hres, herr'⟩
    · exact .inl ⟨(), t, r, h1.trans hok, h2.trans hok', by rw [hres]; exact same_writes_refl _ _⟩
    · exact .inr ⟨e, t, r, h1.trans herr, h2.trans herr', by rw [hres]; exact same_writes_refl _ _⟩
  | bind hx hf ihx ihf =>
    rcases ihx s r with ⟨a, t, r', hok, hok', hsame⟩ | ⟨e, t, r', herr, herr', hsame⟩
    · rcases ihf a t r' with ⟨b, u, r'', hb, hb', hsame'⟩ | ⟨e, u, r'', herr, herr', hsame'⟩
      · exact .inl ⟨b, u, r'', (bind_ok hok _).trans hb, (bind_ok hok' _).trans hb', same_writes_trans hsame hsame'⟩
      · exact .inr ⟨e, u, r'', (bind_ok hok _).trans herr, (bind_ok hok' _).trans herr',
          same_writes_trans hsame hsame'⟩
    · exact .inr ⟨e, t, r', bind_error herr _, bind_error herr' _, hsame⟩

end Sys2Proof.Proofs

/-! PROOFS. The writers of every field: each operation is built from parts whose writes its row of 10_state.md admits, and
the statements on what an operation may write, emit and read follow from that one fact (10_state.md R22 to R42;
20_memory.md R62 to R66). -/

namespace Sys2Proof.Proofs

open Sys2Proof.Machine Sys2Proof.Safety Sys2Proof.Laws

/-! ## What each operation may write -/

/-- The fields that `CONFIG` alone writes are the same. -/
structure SameConfigFields (d e : Display) : Prop where
  displayWidth : e.displayWidth = d.displayWidth
  displayHeight : e.displayHeight = d.displayHeight
  rotationsLen : e.rotationsLen = d.rotationsLen
  rot : e.rot = d.rot
  colorOrder : e.colorOrder = d.colorOrder
  options : e.options = d.options
  csPresent : e.csPresent = d.csPresent
  rstPresent : e.rstPresent = d.rstPresent
  blPresent : e.blPresent = d.blPresent
  cinit : e.cinit = d.cinit

/-- The dirty box is the same. -/
structure SameBox (d e : Display) : Prop where
  minX : e.minX = d.minX
  minY : e.minY = d.minY
  maxX : e.maxX = d.maxX
  maxY : e.maxY = d.maxY

theorem same_config_fields_refl (d : Display) : SameConfigFields d d := ⟨rfl, rfl, rfl, rfl, rfl, rfl, rfl, rfl, rfl, rfl⟩

theorem same_config_fields_trans {d e f : Display} (h1 : SameConfigFields d e) (h2 : SameConfigFields e f) :
    SameConfigFields d f :=
  ⟨h2.1.trans h1.1, h2.2.trans h1.2, h2.3.trans h1.3, h2.4.trans h1.4, h2.5.trans h1.5, h2.6.trans h1.6,
    h2.7.trans h1.7, h2.8.trans h1.8, h2.9.trans h1.9, h2.10.trans h1.10⟩

theorem same_box_refl (d : Display) : SameBox d d := ⟨rfl, rfl, rfl, rfl⟩

theorem same_box_trans {d e f : Display} (h1 : SameBox d e) (h2 : SameBox e f) : SameBox d f :=
  ⟨h2.1.trans h1.1, h2.2.trans h1.2, h2.3.trans h1.3, h2.4.trans h1.4⟩

/-- An operation of opcode `o` leaves the box of a Display: it writes no box, or by windows only and tracking is off. -/
def LeavesBox (o : Opcode) (d : Display) : Prop :=
  o ∉ [Opcode.setWindow, .pixel, .hline, .vline, .rect, .fillRect, .fill, .line, .blit, .rotation, .init, .boundingSet] ∨
    (d.bounding = some false ∧ o ∉ [Opcode.rotation, .init, .boundingSet])

/-- What an operation of opcode `o` may have changed of the Display (10_state.md R27 to R42). -/
structure DisplayFrame (o : Opcode) (d e : Display) : Prop where
  config : o ≠ .config → SameConfigFields d e
  size : o ∉ [Opcode.rotation, .init] → e.width = d.width ∧ e.height = d.height
  offsets : o ∉ [Opcode.rotation, .init, .offset] → e.colstart = d.colstart ∧ e.rowstart = d.rowstart
  madctl : o ∉ [Opcode.rotation, .init, .madctlSet] → e.madctl = d.madctl
  rotation : o ∉ [Opcode.config, .rotation] → e.rotation = d.rotation
  inversion : o ∉ [Opcode.config, .inversionMode] → e.inversion = d.inversion
  bounding : o ∉ [Opcode.config, .boundingSet] → e.bounding = d.bounding
  box : LeavesBox o d → SameBox d e

/-- What an operation of opcode `o` may have changed on the way from `s` to `t` (10_state.md R22 to R42). -/
structure Frame (o : Opcode) (s t : State) : Prop where
  control : SameControl s t
  params : t.params = s.params
  configured : o ≠ .config → t.configured = s.configured
  geomSet : s.geomValid = true → t.geomValid = true
  geomValid : o ∉ [Opcode.rotation, .init] → t.geomValid = s.geomValid
  result0 : o ∉ [Opcode.boundingGet, .boundingSet, .madctlGet, .madctlSet, .color565, .mapbits] →
    t.results.r0 = s.results.r0
  results : o ∉ [Opcode.boundingGet, .boundingSet] →
    t.results.r1 = s.results.r1 ∧ t.results.r2 = s.results.r2 ∧ t.results.r3 = s.results.r3
  memory : MemoryOk s → MemoryOk t
  display : DisplayFrame o s.display t.display

theorem display_frame_refl (o : Opcode) (d : Display) : DisplayFrame o d d where
  config _ := same_config_fields_refl d
  size _ := ⟨rfl, rfl⟩
  offsets _ := ⟨rfl, rfl⟩
  madctl _ := rfl
  rotation _ := rfl
  inversion _ := rfl
  bounding _ := rfl
  box _ := same_box_refl d

/-- `CONFIG` turns tracking off, but it writes no box. -/
theorem leaves_box_of_display_frame {o : Opcode} {d e : Display} (h : DisplayFrame o d e) (hbox : LeavesBox o d) :
    LeavesBox o e := by
  by_cases hc : o = .config
  · subst hc
    exact .inl (by decide)
  · refine hbox.imp id fun ⟨hoff, ho⟩ => ⟨?_, ho⟩
    rw [h.bounding (by simp_all), hoff]

theorem display_frame_trans {o : Opcode} {d e f : Display} (h1 : DisplayFrame o d e) (h2 : DisplayFrame o e f) :
    DisplayFrame o d f where
  config h := same_config_fields_trans (h1.config h) (h2.config h)
  size h := ⟨(h2.size h).1.trans (h1.size h).1, (h2.size h).2.trans (h1.size h).2⟩
  offsets h := ⟨(h2.offsets h).1.trans (h1.offsets h).1, (h2.offsets h).2.trans (h1.offsets h).2⟩
  madctl h := (h2.madctl h).trans (h1.madctl h)
  rotation h := (h2.rotation h).trans (h1.rotation h)
  inversion h := (h2.inversion h).trans (h1.inversion h)
  bounding h := (h2.bounding h).trans (h1.bounding h)
  box h := same_box_trans (h1.box h) (h2.box (leaves_box_of_display_frame h1 h))

/-- A write of the Display alone. -/
theorem frame_display {o : Opcode} {s : State} {d : Display} (h : DisplayFrame o s.display d) :
    Frame o s { s with display := d } :=
  ⟨same_control_admits_registers.display s d, rfl, fun _ => rfl, id, fun _ => rfl, fun _ => rfl,
    fun _ => ⟨rfl, rfl, rfl⟩, id, h⟩

theorem frame_composes (o : Opcode) : Composes (Frame o) where
  refl s := frame_display (display_frame_refl o s.display)
  trans s t u h1 h2 := {
    control := same_control_admits_registers.trans s t u h1.control h2.control
    params := h2.params.trans h1.params
    configured := fun h => (h2.configured h).trans (h1.configured h)
    geomSet := h2.geomSet ∘ h1.geomSet
    geomValid := fun h => (h2.geomValid h).trans (h1.geomValid h)
    result0 := fun h => (h2.result0 h).trans (h1.result0 h)
    results := fun h => by
      obtain ⟨a1, a2, a3⟩ := h1.results h
      obtain ⟨b1, b2, b3⟩ := h2.results h
      exact ⟨b1.trans a1, b2.trans a2, b3.trans a3⟩
    memory := h2.memory ∘ h1.memory
    display := display_frame_trans h1.display h2.display }
  emits s es := ⟨same_control_admits_registers.emits s es, rfl, fun _ => rfl, id, fun _ => rfl, fun _ => rfl,
    fun _ => ⟨rfl, rfl, rfl⟩, id, display_frame_refl o s.display⟩

/-! ## The writes of each operation -/

/-- The opcodes whose operations write the box by windows. -/
abbrev ProgramsWindows (o : Opcode) : Prop :=
  o ∈ [Opcode.setWindow, .pixel, .hline, .vline, .rect, .fillRect, .fill, .line, .blit, .init]

theorem not_leaves_box_of_tracking {o : Opcode} {d : Display} (ho : ProgramsWindows o) (h : d.bounding = some true) :
    ¬ LeavesBox o d := by
  rintro (hn | ⟨hoff, -⟩)
  · simp only [ProgramsWindows, List.mem_cons, List.not_mem_nil, or_false] at ho
    simp only [List.mem_cons, List.not_mem_nil, or_false] at hn
    tauto
  · rw [h] at hoff
    cases hoff

/-- A write of the box, by an operation that may not leave it. -/
theorem display_frame_box {o : Opcode} {d : Display} (h : ¬ LeavesBox o d) (a b c e : Option Word) :
    DisplayFrame o d { d with minX := a, minY := b, maxX := c, maxY := e } where
  config _ := ⟨rfl, rfl, rfl, rfl, rfl, rfl, rfl, rfl, rfl, rfl⟩
  size _ := ⟨rfl, rfl⟩
  offsets _ := ⟨rfl, rfl⟩
  madctl _ := rfl
  rotation _ := rfl
  inversion _ := rfl
  bounding _ := rfl
  box hbox := absurd hbox h

theorem not_leaves_box_of_reset {o : Opcode} (ho : o ∈ [Opcode.rotation, .init, .boundingSet]) (d : Display) :
    ¬ LeavesBox o d := by
  rintro (hn | ⟨-, hn⟩)
  · simp only [List.mem_cons, List.not_mem_nil, or_false] at ho hn
    tauto
  · exact hn ho

theorem display_frame_record {o : Opcode} (ho : o ∈ [Opcode.rotation, .init]) (d : Display) (co : Byte) (rec : RotRec) :
    DisplayFrame o d (applyRecord co rec d) where
  config _ := ⟨rfl, rfl, rfl, rfl, rfl, rfl, rfl, rfl, rfl, rfl⟩
  size h := absurd ho h
  offsets h := absurd (List.mem_of_mem_take (i := 2) ho) h
  madctl h := absurd (List.mem_of_mem_take (i := 2) ho) h
  rotation _ := rfl
  inversion _ := rfl
  bounding _ := rfl
  box _ := ⟨rfl, rfl, rfl, rfl⟩

theorem display_frame_rotation (d : Display) (k : Option Byte) :
    DisplayFrame .rotation d { d with rotation := k } where
  config _ := ⟨rfl, rfl, rfl, rfl, rfl, rfl, rfl, rfl, rfl, rfl⟩
  size _ := ⟨rfl, rfl⟩
  offsets _ := ⟨rfl, rfl⟩
  madctl _ := rfl
  rotation h := absurd (by decide) h
  inversion _ := rfl
  bounding _ := rfl
  box _ := ⟨rfl, rfl, rfl, rfl⟩

theorem display_frame_offset (d : Display) (col row : Option Word) :
    DisplayFrame .offset d { d with colstart := col, rowstart := row } where
  config _ := ⟨rfl, rfl, rfl, rfl, rfl, rfl, rfl, rfl, rfl, rfl⟩
  size _ := ⟨rfl, rfl⟩
  offsets h := absurd (by decide) h
  madctl _ := rfl
  rotation _ := rfl
  inversion _ := rfl
  bounding _ := rfl
  box _ := ⟨rfl, rfl, rfl, rfl⟩

theorem display_frame_madctl (d : Display) (v : Option Word) : DisplayFrame .madctlSet d { d with madctl := v } where
  config _ := ⟨rfl, rfl, rfl, rfl, rfl, rfl, rfl, rfl, rfl, rfl⟩
  size _ := ⟨rfl, rfl⟩
  offsets _ := ⟨rfl, rfl⟩
  madctl h := absurd (by decide) h
  rotation _ := rfl
  inversion _ := rfl
  bounding _ := rfl
  box _ := ⟨rfl, rfl, rfl, rfl⟩

theorem display_frame_inversion (d : Display) (v : Option Bool) :
    DisplayFrame .inversionMode d { d with inversion := v } where
  config _ := ⟨rfl, rfl, rfl, rfl, rfl, rfl, rfl, rfl, rfl, rfl⟩
  size _ := ⟨rfl, rfl⟩
  offsets _ := ⟨rfl, rfl⟩
  madctl _ := rfl
  rotation _ := rfl
  inversion h := absurd (by decide) h
  bounding _ := rfl
  box _ := ⟨rfl, rfl, rfl, rfl⟩

theorem display_frame_bounding (d : Display) (v : Option Bool) :
    DisplayFrame .boundingSet d { d with bounding := v } where
  config _ := ⟨rfl, rfl, rfl, rfl, rfl, rfl, rfl, rfl, rfl, rfl⟩
  size _ := ⟨rfl, rfl⟩
  offsets _ := ⟨rfl, rfl⟩
  madctl _ := rfl
  rotation _ := rfl
  inversion _ := rfl
  bounding h := absurd (by decide) h
  box _ := ⟨rfl, rfl, rfl, rfl⟩

theorem display_frame_config (f : ConfigFlags) (dw dh rotation options : Word) (table : List RotRec)
    (script : CustomInit) (d : Display) :
    DisplayFrame .config d (configuredDisplay f dw dh rotation options table script d) where
  config h := absurd rfl h
  size _ := ⟨rfl, rfl⟩
  offsets _ := ⟨rfl, rfl⟩
  madctl _ := rfl
  rotation h := absurd (by decide) h
  inversion h := absurd (by decide) h
  bounding h := absurd (by decide) h
  box _ := ⟨rfl, rfl, rfl, rfl⟩

theorem frame_set_geom_valid {o : Opcode} (ho : o ∈ [Opcode.rotation, .init]) (s : State) :
    Frame o s { s with geomValid := true } :=
  ⟨same_control_admits_registers.geomValid s, rfl, fun _ => rfl, fun _ => rfl, fun h => absurd ho h, fun _ => rfl,
    fun _ => ⟨rfl, rfl, rfl⟩, id, display_frame_refl o s.display⟩

theorem frame_set_configured (s : State) : Frame .config s { s with configured := true } :=
  ⟨same_control_admits_registers.configured s, rfl, fun h => absurd rfl h, id, fun _ => rfl, fun _ => rfl,
    fun _ => ⟨rfl, rfl, rfl⟩, id, display_frame_refl _ s.display⟩

/-- A write of `r[0]`, by one of its writers. -/
theorem frame_result0 {o : Opcode}
    (ho : o ∈ [Opcode.boundingGet, .boundingSet, .madctlGet, .madctlSet, .color565, .mapbits]) (s : State)
    (v : Option DWord) : Frame o s { s with results := { s.results with r0 := v } } :=
  ⟨same_control_admits_registers.results s _, rfl, fun _ => rfl, id, fun _ => rfl, fun h => absurd ho h,
    fun _ => ⟨rfl, rfl, rfl⟩, id, display_frame_refl o s.display⟩

/-- A write of all four results, by one of the two operations that do. -/
theorem frame_results {o : Opcode} (ho : o ∈ [Opcode.boundingGet, .boundingSet]) (s : State) (r : Results) :
    Frame o s { s with results := r } :=
  ⟨same_control_admits_registers.results s _, rfl, fun _ => rfl, id, fun _ => rfl,
    fun h => absurd (List.mem_of_mem_take (i := 2) ho) h, fun h => absurd ho h, id, display_frame_refl o s.display⟩

theorem frame_mem_write (o : Opcode) (s : State) {addr : Nat} {v : List Byte}
    (h : addr + v.length ≤ s.params.bmemSize) : Frame o s { s with bmem := writeBytes s.bmem addr v } :=
  ⟨⟨rfl, rfl, rfl, rfl, id⟩, rfl, fun _ => rfl, id, fun _ => rfl, fun _ => rfl, fun _ => ⟨rfl, rfl, rfl⟩,
    fun hm => ⟨write_bytes_wf v _ _ hm.1, write_bytes_within v _ _ _ hm.2 h⟩, display_frame_refl o s.display⟩

/-! ## The parts of the shared procedures -/

section
variable {R : State → State → Prop}

theorem built_of_tests (hr : ∀ s, R s s) {α : Type} {op : Op α} (h : Tests op) : Built R op :=
  .silent (silent_of_tests hr h)

theorem built_only_if (hr : ∀ s, R s s) {c : Prop} [Decidable c] {op : Op Unit} (h : Built R op) :
    Built R (onlyIf c op) := by
  unfold onlyIf
  split
  · exact h
  · exact built_of_tests hr (tests_pure ())

theorem built_for_each (hr : ∀ s, R s s) {α : Type} {f : α → Op Unit} (l : List α) (h : ∀ a, Built R (f a)) :
    Built R (forEach l f) := by
  induction l with
  | nil => exact built_of_tests hr (tests_pure ())
  | cons a l ih => exact .bind (h a) fun _ => ih

theorem built_write_cmd (cmd : Byte) (data : List Byte) : Built R (writeCmd cmd data) :=
  .emits _ (fun d => plays_write_cmd d cmd data) fun d => requested_command d cmd data

theorem built_pixel_phase (chunks : List (List Byte)) : Built R (pixelPhase chunks) :=
  .emits _ (fun d => plays_pixel_phase d chunks) fun d => requested_pixels d chunks

theorem built_stream (color : Word) (n : Nat) : Built R (stream color n) := built_pixel_phase _

theorem built_pin (p : Pin) (l : Bool) : Built R (pin p l) :=
  .emits _ (fun d => plays_pin d p l) fun d => requested_pin_events d p l

theorem built_delay (n : Nat) : Built R (delay n) :=
  .emits _ (fun d => plays_delay d n) fun _ => requested_delay n

theorem built_hard_reset : Built R hardReset :=
  .bind (built_pin _ _) fun _ => .bind (built_pin _ _) fun _ => .bind (built_delay _) fun _ =>
  .bind (built_pin _ _) fun _ => .bind (built_delay _) fun _ => .bind (built_pin _ _) fun _ =>
  .bind (built_delay _) fun _ => built_pin _ _

theorem built_soft_reset : Built R softReset := .bind (built_write_cmd _ _) fun _ => built_delay _

theorem built_need (hr : ∀ s, R s s) {α : Type} (sr : Nat) (f : Display → Option α) : Built R (need sr f) :=
  built_of_tests hr (tests_need sr f)

theorem built_default_init (hr : ∀ s, R s s) : Built R defaultInit :=
  .bind built_soft_reset fun _ => .bind (built_write_cmd _ _) fun _ => .bind (built_write_cmd _ _) fun _ =>
  .bind (built_delay _) fun _ => .bind (built_need hr _ _) fun _ => .bind (built_write_cmd _ _) fun _ =>
  .bind (built_write_cmd _ _) fun _ => .bind (built_delay _) fun _ => .bind (built_write_cmd _ _) fun _ =>
  built_delay _

theorem built_panel_init (hr : ∀ s, R s s) (c : CustomInit) : Built R (panelInit c) := by
  cases c with
  | absent => exact built_default_init hr
  | script es =>
    refine built_for_each hr es fun e => .bind (built_write_cmd _ _) fun _ => .bind (built_delay _) fun _ => ?_
    split
    · exact built_of_tests hr (tests_pure ())
    · exact built_delay _

theorem built_program_window (hr : ∀ s, R s s) (x0 y0 x1 y1 : Int) : Built R (programWindow x0 y0 x1 y1) :=
  .bind (built_need hr _ _) fun _ => .bind (built_need hr _ _) fun _ => .bind (built_write_cmd _ _) fun _ =>
  .bind (built_write_cmd _ _) fun _ => built_write_cmd _ _

end

/-- The relation is one between a state and itself, and admits writes of the box while tracking is on. -/
structure AdmitsWindows (R : State → State → Prop) : Prop where
  refl : ∀ s, R s s
  expand : ∀ (s : State) (a b c d : Option Word), s.display.bounding = some true →
    R s { s with display := { s.display with minX := a, minY := b, maxX := c, maxY := d } }

section
variable {R : State → State → Prop} (h : AdmitsWindows R)
include h

/-- The box is written by a window only where tracking is read as on. -/
theorem silent_expand_if_tracking (x0 y0 x1 y1 : Int) :
    Silent R (need 12 Display.bounding >>= fun bounding => onlyIf (bounding = true) (expandBox x0 y0 x1 y1)) := by
  have hexpand : Silent (fun s t => s.display.bounding = some true → R s t) (expandBox x0 y0 x1 y1) :=
    silent_tests_bind (tests_need _ _) fun _ => silent_tests_bind (tests_need _ _) fun _ =>
    silent_tests_bind (tests_need _ _) fun _ => silent_tests_bind (tests_need _ _) fun _ =>
    silent_update_display fun s hb => h.expand s _ _ _ _ hb
  intro s
  rcases hb : s.display.bounding with _ | _ | _
  · exact .inr ⟨_, bind_error (need_none 12 hb) _, by simp,
      fun r => bind_error (need_none (s := { s with results := r }) 12 hb) _⟩
  · exact .inl ⟨(), s, bind_ok (need_some 12 hb) _, h.refl s, rfl, rfl,
      fun r => ⟨r, bind_ok (need_some (s := { s with results := r }) 12 hb) _, same_writes_refl _ _⟩⟩
  · have hbind : ∀ r, (need 12 Display.bounding >>= fun bounding =>
        onlyIf (bounding = true) (expandBox x0 y0 x1 y1)) { s with results := r } =
          expandBox x0 y0 x1 y1 { s with results := r } := fun r =>
      bind_ok (need_some (s := { s with results := r }) 12 hb) _
    rcases hexpand s with ⟨a, t, hok, hR, htrace, hparams, hblind⟩ | ⟨e, herr, he, hblind⟩
    · exact .inl ⟨a, t, (hbind s.results).trans hok, hR hb, htrace, hparams,
        fun r => (hblind r).imp fun r' hr' => ⟨(hbind r).trans hr'.1, hr'.2⟩⟩
    · exact .inr ⟨e, (hbind s.results).trans herr, he, fun r => (hbind r).trans (hblind r)⟩

theorem built_set_window (x0 y0 x1 y1 : Int) : Built R (setWindow x0 y0 x1 y1) := by
  refine .bind (built_need h.refl _ _) fun width => .bind (built_need h.refl _ _) fun height => ?_
  split
  · have hbuilt := Built.bind (.silent (silent_expand_if_tracking h x0 y0 x1 y1)) fun _ =>
      .bind (built_program_window h.refl x0 y0 x1 y1) fun _ => built_of_tests h.refl (tests_pure true)
    rw [bind_assoc] at hbuilt
    exact hbuilt
  · exact built_of_tests h.refl (tests_pure false)

theorem built_window_then (x0 y0 x1 y1 : Int) {pixels : Op Unit} (hp : Built R pixels) :
    Built R (windowThen x0 y0 x1 y1 pixels) :=
  .bind (built_set_window h _ _ _ _) fun _ => built_only_if h.refl hp

theorem built_draw_pixel (x y : Int) (color : Word) : Built R (drawPixel x y color) :=
  .bind (built_need h.refl _ _) fun _ => .bind (built_need h.refl _ _) fun _ => .bind (built_need h.refl _ _) fun _ =>
  built_only_if h.refl (built_window_then h _ _ _ _ (built_pixel_phase _))

theorem built_fast_hline (x y w : Int) (color : Word) : Built R (fastHline x y w color) := by
  refine .bind (built_need h.refl _ _) fun _ => .bind (built_need h.refl _ _) fun _ =>
    .bind (built_need h.refl _ _) fun _ => ?_
  split
  · exact built_only_if h.refl (built_only_if h.refl (built_window_then h _ _ _ _ (built_stream _ _)))
  · exact built_for_each h.refl _ fun _ => built_draw_pixel h _ _ _

theorem built_fast_vline (x y len : Int) (color : Word) : Built R (fastVline x y len color) := by
  refine .bind (built_need h.refl _ _) fun _ => .bind (built_need h.refl _ _) fun _ =>
    .bind (built_need h.refl _ _) fun _ => ?_
  split
  · exact built_only_if h.refl (built_only_if h.refl (built_window_then h _ _ _ _ (built_stream _ _)))
  · exact built_for_each h.refl _ fun _ => built_draw_pixel h _ _ _

theorem built_draw_rect (x y w len : Int) (color : Word) : Built R (drawRect x y w len color) :=
  .bind (built_fast_hline h _ _ _ _) fun _ => .bind (built_fast_vline h _ _ _ _) fun _ =>
  .bind (built_fast_hline h _ _ _ _) fun _ => built_fast_vline h _ _ _ _

theorem built_fill_rect (x y w len : Int) (color : Word) : Built R (fillRectBody x y w len color) :=
  .bind (built_need h.refl _ _) fun _ => .bind (built_need h.refl _ _) fun _ =>
  built_only_if h.refl (built_window_then h _ _ _ _ (built_stream _ _))

theorem built_fill_screen (color : Word) : Built R (fillScreen color) :=
  .bind (built_need h.refl _ _) fun _ => .bind (built_need h.refl _ _) fun _ =>
  built_window_then h _ _ _ _ (built_stream _ _)

theorem built_draw_line (l : Line) (color : Word) : Built R (drawLine l color) := by
  refine built_for_each h.refl _ fun r => ?_
  unfold flushRun
  split
  · split
    · exact built_draw_pixel h _ _ _
    · exact built_fast_hline h _ _ _ _
  · split
    · exact built_draw_pixel h _ _ _
    · exact built_fast_vline h _ _ _ _

theorem built_blit_body (addr len : Nat) (x y w hh : Int) : Built R (blitBody addr len x y w hh) :=
  .bind (built_of_tests h.refl (tests_mem_read _ _)) fun _ => built_window_then h _ _ _ _ (built_pixel_phase _)

end

/-! ## The operations that write more than the box -/

theorem frame_refl (o : Opcode) (s : State) : Frame o s s := (frame_composes o).refl s

theorem frame_admits_windows {o : Opcode} (ho : ProgramsWindows o) : AdmitsWindows (Frame o) where
  refl := frame_refl o
  expand _ _ _ _ _ hb := frame_display (display_frame_box (not_leaves_box_of_tracking ho hb) _ _ _ _)

theorem built_box_reset {o : Opcode} (ho : o ∈ [Opcode.rotation, .init, .boundingSet]) : Built (Frame o) boxReset :=
  .bind (built_need (frame_refl o) _ _) fun _ => .bind (built_need (frame_refl o) _ _) fun _ =>
  .silent (silent_update_display fun s =>
    frame_display (display_frame_box (not_leaves_box_of_reset ho s.display) _ _ _ _))

theorem built_set_rotation {o : Opcode} (ho : o ∈ [Opcode.rotation, .init]) : Built (Frame o) setRotation := by
  refine .bind (built_need (frame_refl o) _ _) fun _ => .bind (built_need (frame_refl o) _ _) fun _ =>
    .bind (built_of_tests (frame_refl o) (tests_only_if (tests_raise (by simp) _))) fun _ =>
    .bind (built_need (frame_refl o) _ _) fun _ => ?_
  split
  · exact built_of_tests (frame_refl o) (tests_raise (by simp) _)
  · exact .bind (built_need (frame_refl o) _ _) fun _ =>
      .bind (.silent (silent_update_display fun s => frame_display (display_frame_record ho s.display _ _))) fun _ =>
      .bind (.silent (silent_set_geom_valid (frame_set_geom_valid ho))) fun _ =>
      .bind (built_box_reset (List.mem_of_mem_take (i := 2) ho)) fun _ => built_write_cmd _ _

theorem same_writes_const (v r r' : Results) : SameWrites r v r' v := fun _ _ => .inl rfl

theorem same_writes_result0 (v : Option DWord) (r r' : Results) :
    SameWrites r { r with r0 := v } r' { r' with r0 := v } := by
  intro reg hreg
  simp only [List.mem_cons, List.not_mem_nil, or_false] at hreg
  rcases hreg with rfl | rfl | rfl | rfl
  · exact .inl rfl
  all_goals exact .inr ⟨rfl, rfl⟩

theorem built_result0 {o : Opcode}
    (ho : o ∈ [Opcode.boundingGet, .boundingSet, .madctlGet, .madctlSet, .color565, .mapbits]) (v : Option DWord) :
    Built (Frame o) (updateResults fun r => { r with r0 := v }) :=
  .silent (silent_update_results (fun s => frame_result0 ho s v) (same_writes_result0 v))

theorem built_read_box {o : Opcode} (ho : o ∈ [Opcode.boundingGet, .boundingSet]) (asSize : Bool) :
    Built (Frame o) (readBox asSize) :=
  .bind (built_need (frame_refl o) _ _) fun _ => .bind (built_need (frame_refl o) _ _) fun _ =>
  .bind (built_need (frame_refl o) _ _) fun _ => .bind (built_need (frame_refl o) _ _) fun _ =>
  .silent (silent_update_results (fun s => frame_results ho s _) (same_writes_const _))

theorem built_init_body : Built (Frame .init) initBody :=
  .bind built_hard_reset fun _ => .bind (built_need (frame_refl _) _ _) fun _ =>
  .bind (built_panel_init (frame_refl _) _) fun _ => .bind (built_set_rotation (by decide)) fun _ =>
  .bind (built_delay _) fun _ =>
  .bind (built_fill_screen (frame_admits_windows (by decide)) _) fun _ => built_pin _ _

/-- `CONFIG` writes once, when every test has passed. -/
theorem silent_config_body (f : ConfigFlags) (dw dh rotation options nrec : Word) (addr len : Nat)
    (recs : List RotRec) : Silent (Frame .config) (configBody f dw dh rotation options nrec addr len recs) :=
  silent_tests_bind tests_guard_unconfigured fun _ =>
  silent_tests_bind (tests_only_if (tests_raise (by simp) _)) fun _ =>
  silent_tests_bind (tests_only_if (tests_raise (by simp) _)) fun _ =>
  silent_tests_bind (tests_choose_table _ _ _ _) fun _ => silent_tests_bind (tests_check_table _) fun _ =>
  silent_tests_bind (tests_choose_script _ _ _) fun _ =>
  silent_then (frame_composes _).trans
    (silent_update_display fun s => frame_display (display_frame_config _ _ _ _ _ _ _ s.display))
    fun _ s => ⟨(), _, rfl, frame_set_configured s, rfl, rfl, fun r => ⟨r, rfl, same_writes_refl _ _⟩⟩

/-- `MAPBITS` writes when every test has passed. -/
theorem silent_mapbits_body (src srclen dst dstcap width : Nat) (fg bg : Word) :
    Silent (Frame .mapbits) (mapbitsBody src srclen dst dstcap width fg bg) :=
  silent_tests_bind (tests_only_if (tests_raise (by simp) _)) fun _ =>
  silent_tests_bind (tests_check_range _ _) fun _ => silent_tests_bind (tests_check_range _ _) fun _ =>
  silent_tests_bind (tests_mem_read _ _) fun _ =>
  silent_tests_bind (tests_only_if (tests_raise (by simp) _)) fun _ =>
  silent_then (frame_composes _).trans (silent_mem_write fun s hle => frame_mem_write _ s hle)
    fun _ s => ⟨(), _, rfl, frame_result0 (by decide) s _, rfl, rfl,
      fun r => ⟨_, rfl, same_writes_result0 _ _ _⟩⟩

/-! ## Every operation -/

theorem built_guarded {o : Opcode} {op : Op Unit} (h : Built (Frame o) op) :
    Built (Frame o) (guardConfigured >>= fun _ => op) :=
  .bind (built_of_tests (frame_refl o) tests_guard_configured) fun _ => h

theorem built_guarded_geometry {o : Opcode} {op : Op Unit} (h : Built (Frame o) op) :
    Built (Frame o) (guardConfigured >>= fun _ => needGeom >>= fun _ => op) :=
  built_guarded (.bind (built_of_tests (frame_refl o) tests_need_geom) fun _ => h)

/-- A guarded operation that programs windows. -/
theorem built_drawing {o : Opcode} {op : Op Unit} (ho : ProgramsWindows o)
    (h : AdmitsWindows (Frame o) → Built (Frame o) op) :
    Built (Frame o) (guardConfigured >>= fun _ => needGeom >>= fun _ => op) :=
  built_guarded_geometry (h (frame_admits_windows ho))

/-- EVERY instruction performs an operation that is built from parts its opcode may write. -/
theorem exec_built (i : Instr) : ∃ op, (∀ s, exec i s = perform i.words op s) ∧ Built (Frame i.opcode) op := by
  cases i with
  | writeCmd =>
    exact ⟨_, fun _ => rfl, built_guarded (.bind (built_of_tests (frame_refl _) (tests_mem_read _ _)) fun _ =>
      built_write_cmd _ _)⟩
  | setWindow =>
    exact ⟨_, fun _ => rfl, built_drawing (o := .setWindow) (by decide) fun h =>
      built_window_then h _ _ _ _ (built_of_tests h.refl (tests_pure ()))⟩
  | fillBuf => exact ⟨_, fun _ => rfl, built_guarded (built_stream _ _)⟩
  | pixel => exact ⟨_, fun _ => rfl, built_drawing (o := .pixel) (by decide) fun h => built_draw_pixel h _ _ _⟩
  | hline => exact ⟨_, fun _ => rfl, built_drawing (o := .hline) (by decide) fun h => built_fast_hline h _ _ _ _⟩
  | vline => exact ⟨_, fun _ => rfl, built_drawing (o := .vline) (by decide) fun h => built_fast_vline h _ _ _ _⟩
  | rect => exact ⟨_, fun _ => rfl, built_drawing (o := .rect) (by decide) fun h => built_draw_rect h _ _ _ _ _⟩
  | fillRect =>
    exact ⟨_, fun _ => rfl, built_drawing (o := .fillRect) (by decide) fun h => built_fill_rect h _ _ _ _ _⟩
  | fill => exact ⟨_, fun _ => rfl, built_drawing (o := .fill) (by decide) fun h => built_fill_screen h _⟩
  | line => exact ⟨_, fun _ => rfl, built_drawing (o := .line) (by decide) fun h => built_draw_line h _ _⟩
  | blit => exact ⟨_, fun _ => rfl, built_drawing (o := .blit) (by decide) fun h => built_blit_body h _ _ _ _ _ _⟩
  | mapbits => exact ⟨_, fun _ => rfl, .silent (silent_mapbits_body _ _ _ _ _ _ _)⟩
  | rotation =>
    exact ⟨_, fun _ => rfl, built_guarded (.bind
      (.silent (silent_update_display fun s => frame_display (display_frame_rotation s.display _))) fun _ =>
      built_set_rotation (o := .rotation) (by decide))⟩
  | offset =>
    exact ⟨_, fun _ => rfl, built_guarded
      (.silent (silent_update_display fun s => frame_display (display_frame_offset s.display _ _)))⟩
  | madctlGet =>
    exact ⟨_, fun _ => rfl, built_guarded (.bind (built_need (frame_refl _) _ _) fun _ =>
      built_result0 (o := .madctlGet) (by decide) _)⟩
  | madctlSet =>
    exact ⟨_, fun _ => rfl, built_guarded (.bind
      (.silent (silent_update_display fun s => frame_display (display_frame_madctl s.display _))) fun _ =>
      .bind (built_write_cmd _ _) fun _ => built_result0 (o := .madctlSet) (by decide) _)⟩
  | boundingGet => exact ⟨_, fun _ => rfl, built_guarded_geometry (built_read_box (o := .boundingGet) (by decide) _)⟩
  | boundingSet =>
    exact ⟨_, fun _ => rfl, built_guarded_geometry (.bind (built_read_box (o := .boundingSet) (by decide) _) fun _ => .bind
      (.silent (silent_update_display fun s => frame_display (display_frame_bounding s.display _))) fun _ =>
      built_box_reset (o := .boundingSet) (by decide))⟩
  | config => exact ⟨_, fun _ => rfl, .silent (silent_config_body _ _ _ _ _ _ _ _ _)⟩
  | init => exact ⟨_, fun _ => rfl, built_guarded built_init_body⟩
  | hardReset => exact ⟨_, fun _ => rfl, built_guarded built_hard_reset⟩
  | softReset => exact ⟨_, fun _ => rfl, built_guarded built_soft_reset⟩
  | sleepMode => exact ⟨_, fun _ => rfl, built_guarded (built_write_cmd _ _)⟩
  | inversionMode =>
    exact ⟨_, fun _ => rfl, built_guarded (.bind
      (.silent (silent_update_display fun s => frame_display (display_frame_inversion s.display _))) fun _ =>
      built_write_cmd _ _)⟩
  | on => exact ⟨_, fun _ => rfl, built_guarded (.bind (built_pin _ _) fun _ => built_delay _)⟩
  | off => exact ⟨_, fun _ => rfl, built_guarded (.bind (built_pin _ _) fun _ => built_delay _)⟩
  | vscrdef => exact ⟨_, fun _ => rfl, built_guarded (built_write_cmd _ _)⟩
  | vscsad => exact ⟨_, fun _ => rfl, built_guarded (built_write_cmd _ _)⟩
  | color565 r g b =>
    exact ⟨_, fun s => show exec (.color565 r g b) s = execColor565 r g b s from rfl,
      built_result0 (o := .color565) (by decide) _⟩

end Sys2Proof.Proofs

/-! PROOFS. What every instruction may write, emit and read (10_state.md R22 to R42; 20_memory.md R62 to R66;
70_reset_and_hazards.md R285). -/

namespace Sys2Proof.Proofs

open Sys2Proof.Machine Sys2Proof.Safety Sys2Proof.Laws

/-- EVERYTHING an instruction can do: it completes, it raises a fault of its own, or a transfer fails. -/
theorem exec_cases {i : Instr} {s t : State} (ht : exec i s = .next t) :
    (∃ u es, t = completed u i.words ∧ Reached (Frame i.opcode) s u es) ∨
    (∃ (e : Raised) (u : State) (es : List Event), t = enterFault e.cause e.info u ∧ e.cause ≠ .halError ∧
      Reached (Frame i.opcode) s u es) ∨
    (∃ u es bytes, t = enterFault .halError (transferCount (s.trace ++ es)) u ∧
      Failed (Frame i.opcode) s u es bytes) := by
  obtain ⟨op, hexec, hbuilt⟩ := exec_built i
  rw [hexec] at ht
  rcases built_cases (frame_composes _) hbuilt s with ⟨_, u, es, hok, h⟩ | ⟨e, u, es, herr, he, h⟩ |
    ⟨u, es, bytes, herr, h⟩
  · rw [perform_ok hok] at ht
    cases ht
    exact .inl ⟨u, es, rfl, h⟩
  · rw [perform_error herr] at ht
    cases ht
    exact .inr (.inl ⟨e, u, es, rfl, he, h⟩)
  · rw [perform_error herr] at ht
    cases ht
    exact .inr (.inr ⟨u, es, bytes, rfl, h⟩)

/-- What the instruction may have written before it completed or faulted. -/
theorem exec_writes {i : Instr} {s t : State} (ht : exec i s = .next t) :
    ∃ u, Frame i.opcode s u ∧ (t = completed u i.words ∨ ∃ e : Raised, t = enterFault e.cause e.info u) := by
  rcases exec_cases ht with ⟨u, es, h, hu⟩ | ⟨e, u, es, h, -, hu⟩ | ⟨u, es, bytes, h, hu⟩
  · exact ⟨u, hu.rel, .inl h⟩
  · exact ⟨u, hu.rel, .inr ⟨e, h⟩⟩
  · exact ⟨u, hu.rel, .inr ⟨⟨.halError, _⟩, h⟩⟩

/-- A silent operation that faults leaves everything else. -/
theorem perform_silent {R : State → State → Prop} {op : Op Unit} (h : Silent R op) {len : Nat} {s t : State}
    (ht : perform len op s = .next t) :
    (∃ u, t = completed u len ∧ R s u) ∨ ∃ e : Raised, t = enterFault e.cause e.info s ∧ e.cause ≠ .halError := by
  rcases h s with ⟨_, u, hok, hR, -⟩ | ⟨e, herr, he, -⟩
  · rw [perform_ok hok] at ht
    cases ht
    exact .inl ⟨u, rfl, hR⟩
  · rw [perform_error herr] at ht
    cases ht
    exact .inr ⟨e, rfl, he⟩

/-! ## The events -/

/-- Settles O16: every event an operation asks for is a whole command or pixel phase, which sets DC first. -/
theorem traceGrowsWithKnownLevel : Obligations.TraceGrowsWithKnownLevel := by
  intro i s t ht
  rcases exec_cases ht with ⟨u, es, rfl, hu⟩ | ⟨e, u, es, rfl, -, hu⟩ | ⟨u, es, bytes, rfl, hu⟩
  · exact ⟨es, hu.trace, fun delivered k => hu.requested.level delivered none k⟩
  · exact ⟨es, hu.trace, fun delivered k => hu.requested.level delivered none k⟩
  · exact ⟨_, hu.trace.trans (List.append_assoc _ _ _), fun delivered k => hu.level delivered none k⟩

theorem hal_quiet_of_reached {R : State → State → Prop} {s u : State} {es : List Event} (h : HalQuiet s)
    (hu : Reached R s u es) : HalQuiet u := by
  have hemitted := hal_quiet_emitted h es
  intro k hk
  rw [hu.params] at hk
  rw [hu.trace]
  exact hemitted k hk

theorem no_new_failed_of_reached {R : State → State → Prop} {s u : State} {es : List Event} (hu : Reached R s u es)
    {b : List Byte} (hb : .spiFail b ∈ u.trace) : .spiFail b ∈ s.trace := by
  rw [hu.trace] at hb
  exact (List.mem_append.1 hb).resolve_right (hu.requested.no_fail b)

/-- A transfer whose number is past every failing one does not fail. -/
theorem not_failed_of_hal_quiet {R : State → State → Prop} {s u : State} {es : List Event} {bytes : List Byte}
    (h : HalQuiet s) : ¬ Failed R s u es bytes := fun hu => by
  have hlt := h _ hu.failing
  rw [transfer_count_append] at hlt
  omega

/-- Settles O24: the number of a failing transfer would be one that the HAL fails. -/
theorem quietHal : Obligations.QuietHal := by
  intro i s t hs hq ht
  rcases exec_cases ht with ⟨u, es, rfl, hu⟩ | ⟨⟨cause, info⟩, u, es, rfl, he, hu⟩ | ⟨u, es, bytes, -, hu⟩
  · have hfault : u.fault = false := hu.rel.control.fault.trans hs
    have hquiet : HalQuiet u := hal_quiet_of_reached hq hu
    refine ⟨fun hf => ?_, fun b hb => no_new_failed_of_reached hu hb, hquiet⟩
    rw [completed_fault, hfault] at hf
    cases hf
  · have hquiet : HalQuiet u := hal_quiet_of_reached hq hu
    refine ⟨fun _ => ?_, fun b hb => no_new_failed_of_reached hu hb, hquiet⟩
    change cause.code ≠ 11
    cases cause with
    | halError => exact absurd rfl he
    | _ => decide
  · exact absurd hu (not_failed_of_hal_quiet hq)

/-! ## The registers and the flags -/

/-- Settles O18: every part of an operation is blind to the result registers. -/
theorem resultsNeverRead : Obligations.ResultsNeverRead := by
  intro i s t r ht
  obtain ⟨op, hexec, hbuilt⟩ := exec_built i
  rw [hexec] at ht
  rw [hexec]
  rcases built_with_results hbuilt s r with ⟨_, u, r', hok, hok', hsame⟩ | ⟨e, u, r', herr, herr', hsame⟩
  · rw [perform_ok hok] at ht
    cases ht
    exact ⟨r', perform_ok hok', hsame⟩
  · rw [perform_error herr] at ht
    cases ht
    exact ⟨r', perform_error herr', hsame⟩

/-- A `CONFIG` that faults has written nothing. -/
theorem exec_config_fault {f : ConfigFlags} {dw dh rotation options nrec : Word} {addr len : DWord}
    {recs : List RotRec} {s t : State}
    (ht : exec (.config f dw dh rotation options nrec addr len recs) s = .next t) :
    (∃ u, t = completed u (Instr.config f dw dh rotation options nrec addr len recs).words ∧ Frame .config s u) ∨
      ∃ e : Raised, t = enterFault e.cause e.info s ∧ e.cause ≠ .halError :=
  perform_silent (silent_config_body _ _ _ _ _ _ _ _ _) ht

/-- Settles O19: the writes of each opcode, and `CONFIG` writes when every test has passed. -/
theorem statusFlagWriters : Obligations.StatusFlagWriters := by
  intro i s t ht
  have hconfigured : t.configured ≠ s.configured → i.opcode = .config ∧ t.fault = s.fault := by
    intro hne
    cases i with
    | config =>
      refine ⟨rfl, ?_⟩
      rcases exec_config_fault ht with ⟨u, rfl, hu⟩ | ⟨e, rfl, -⟩
      · exact hu.control.fault
      · exact absurd rfl hne
    | _ =>
      obtain ⟨u, hu, rfl | ⟨e, rfl⟩⟩ := exec_writes ht
      all_goals exact absurd (hu.configured (by simp [Instr.opcode])) hne
  obtain ⟨u, hu, rfl | ⟨e, rfl⟩⟩ := exec_writes ht
  · refine ⟨hu.control.configured, hconfigured, hu.geomSet, fun hne => ?_,
      fun _ => ⟨hu.control.cause, hu.control.info⟩⟩
    by_contra ho
    exact hne (hu.geomValid (by simpa using ho))
  · refine ⟨hu.control.configured, hconfigured, hu.geomSet, fun hne => ?_, fun hf => (by cases hf)⟩
    by_contra ho
    exact hne (hu.geomValid (by simpa using ho))

theorem exec_display {i : Instr} {s t : State} (ht : exec i s = .next t) :
    DisplayFrame i.opcode s.display t.display := by
  obtain ⟨u, hu, rfl | ⟨e, rfl⟩⟩ := exec_writes ht
  all_goals exact hu.display

/-- Settles O20: what each opcode may write of the Display, field by field. -/
theorem displayFieldWriters : Obligations.DisplayFieldWriters := by
  intro i s t ht
  have h := exec_display ht
  refine ⟨fun hc => ?_, h.size, h.offsets, h.madctl, h.rotation, h.inversion, h.bounding, fun hbox => ?_⟩
  · obtain ⟨a, b, c, d, e, f, g, k, l, m⟩ := h.config hc
    exact ⟨a, b, c, d, e, f, g, k, l, m⟩
  · obtain ⟨a, b, c, d⟩ := h.box hbox
    exact ⟨a, b, c, d⟩

end Sys2Proof.Proofs

/-! PROOFS. What a configured Display keeps under every write an operation makes: the fields of `CONFIG`, the geometry, and
the dirty box inside the active area (10_state.md R28, R31, R32, R39, R41, R45, R47). -/

namespace Sys2Proof.Proofs

open Sys2Proof.Machine Sys2Proof.Safety Sys2Proof.Laws

/-! ## Windows lie inside the active area -/

/-- The window is not empty and lies inside the active area. -/
def WindowInside (w h : Word) (x0 y0 x1 y1 : Nat) : Prop :=
  x0 ≤ x1 ∧ x1 < w.toNat ∧ y0 ≤ y1 ∧ y1 < h.toNat

/-- Each draw's window lies inside the active area of the Display. -/
def DrawsInside (d : Display) (gs : List Draw) : Prop :=
  ∀ g ∈ gs, ∀ w ∈ d.width, ∀ h ∈ d.height, WindowInside w h g.x0 g.y0 g.x1 g.y1

theorem draws_inside_nil (d : Display) : DrawsInside d [] := fun g hg => by cases hg

theorem draws_inside_append {d : Display} {gs hs : List Draw} (h1 : DrawsInside d gs) (h2 : DrawsInside d hs) :
    DrawsInside d (gs ++ hs) := fun g hg => (List.mem_append.1 hg).elim (h1 g) (h2 g)

theorem draws_inside_flat_map {α : Type} {d : Display} {l : List α} {f : α → List Draw}
    (h : ∀ a, DrawsInside d (f a)) : DrawsInside d (l.flatMap f) := fun g hg => by
  obtain ⟨a, -, ha⟩ := List.mem_flatMap.1 hg
  exact h a g ha

/-- One draw under a condition that puts it inside. -/
theorem draws_inside_ite {d : Display} {w h : Word} (hw : d.width = some w) (hh : d.height = some h) {p : Prop}
    [Decidable p] {g : Draw} (hg : p → WindowInside w h g.x0 g.y0 g.x1 g.y1) :
    DrawsInside d (if p then [g] else []) := by
  split
  · intro g' hg' w' hw' h' hh'
    rw [List.mem_singleton] at hg'
    rw [hw] at hw'
    rw [hh] at hh'
    cases hw'
    cases hh'
    rw [hg']
    exact hg ‹p›
  · exact draws_inside_nil d

theorem pixel_draws_inside (d : Display) (x y : Int) (color : Word) : DrawsInside d (pixelDraws d x y color) := by
  unfold pixelDraws
  split
  · rename_i o w h ho hw hh
    refine draws_inside_ite hw hh fun hin => ?_
    simp only [WindowInside]
    omega
  · exact draws_inside_nil d

theorem hline_draws_inside (d : Display) (x y w : Int) (color : Word) : DrawsInside d (hlineDraws d x y w color) := by
  unfold hlineDraws
  split
  · rename_i o width height ho hw hh
    split
    · exact draws_inside_flat_map fun i => pixel_draws_inside d _ _ _
    · refine draws_inside_ite hw hh fun hin => ?_
      simp only [WindowInside]
      omega
  · exact draws_inside_nil d

theorem vline_draws_inside (d : Display) (x y h : Int) (color : Word) : DrawsInside d (vlineDraws d x y h color) := by
  unfold vlineDraws
  split
  · rename_i o width height ho hw hh
    split
    · exact draws_inside_flat_map fun i => pixel_draws_inside d _ _ _
    · refine draws_inside_ite hw hh fun hin => ?_
      simp only [WindowInside]
      omega
  · exact draws_inside_nil d

theorem rect_draws_inside (d : Display) (x y w h : Int) (color : Word) : DrawsInside d (rectDraws d x y w h color) :=
  draws_inside_append (draws_inside_append (draws_inside_append (hline_draws_inside d _ _ _ _)
    (vline_draws_inside d _ _ _ _)) (hline_draws_inside d _ _ _ _)) (vline_draws_inside d _ _ _ _)

theorem fill_rect_draws_inside (d : Display) (x y w h : Int) (color : Word) :
    DrawsInside d (fillRectDraws d x y w h color) := by
  unfold fillRectDraws
  split
  · rename_i width height hw hh
    refine draws_inside_ite hw hh fun hin => ?_
    simp only [WindowInside]
    omega
  · exact draws_inside_nil d

theorem word_toNat_pos {v : Word} (h : v ≠ 0) : 0 < v.toNat :=
  Nat.pos_of_ne_zero fun hz => h (BitVec.eq_of_toNat_eq (by simpa using hz))

theorem fill_draws_inside {d : Display} (hw : d.width ≠ some 0) (hh : d.height ≠ some 0) (color : Word) :
    DrawsInside d (fillDraws d color) := by
  unfold fillDraws
  split
  · rename_i w h hdw hdh
    have hwpos := word_toNat_pos fun hz : w = 0 => hw (by rw [hdw, hz])
    have hhpos := word_toNat_pos fun hz : h = 0 => hh (by rw [hdh, hz])
    have hin := draws_inside_ite hdw hdh (p := True)
      (g := ⟨0, 0, w.toNat - 1, h.toNat - 1, fillChunks color (w.toNat * h.toNat)⟩) fun _ => by
        simp only [WindowInside]
        omega
    simpa using hin
  · exact draws_inside_nil d

theorem blit_draws_inside (d : Display) (data : List Byte) (x y w h : Int) :
    DrawsInside d (blitDraws d data x y w h) := by
  unfold blitDraws
  split
  · rename_i width height hw hh
    refine draws_inside_ite hw hh fun hin => ?_
    simp only [WindowInside]
    omega
  · exact draws_inside_nil d

theorem run_draws_inside (d : Display) (steep : Bool) (color : Word) (r : Run) :
    DrawsInside d (runDraws d steep color r) := by
  unfold runDraws
  split
  · exact vline_draws_inside d _ _ _ _
  · exact hline_draws_inside d _ _ _ _

/-- Every draw of every drawing operation lies inside the active area. -/
theorem draws_of_inside {s : State} (hw : s.display.width ≠ some 0) (hh : s.display.height ≠ some 0) (i : Instr) :
    DrawsInside s.display (drawsOf s i) := by
  cases i with
  | pixel => exact pixel_draws_inside _ _ _ _
  | hline => exact hline_draws_inside _ _ _ _ _
  | vline => exact vline_draws_inside _ _ _ _ _
  | rect => exact rect_draws_inside _ _ _ _ _ _
  | fillRect => exact fill_rect_draws_inside _ _ _ _ _ _
  | fill => exact fill_draws_inside hw hh _
  | line => exact draws_inside_flat_map fun r => run_draws_inside _ _ _ r
  | blit => exact blit_draws_inside _ _ _ _ _ _
  | _ => exact draws_inside_nil _

/-! ## A settled Display -/

/-- What the invariant says of the Display and the geometry flag of a configured state, the stored rotation index aside. -/
structure Settled (d : Display) (geomValid : Bool) : Prop where
  fields : ConfigFieldsSet d
  order : ∀ c ∈ d.colorOrder, c = orderRGB ∨ c = orderBGR
  table : TableOk d
  flag : geomValid = d.width.isSome
  geometry : geomValid = true → GeomFieldsSet d
  width : d.width ≠ some 0
  height : d.height ≠ some 0
  box : BoxOk d

/-- The stored rotation index is below the stored length. -/
def IndexOk (d : Display) : Prop := ∀ k ∈ d.rotation, ∀ n ∈ d.rotationsLen, k.toNat < n.toNat

theorem settled_of_inv {s : State} (h : Inv s) (hs : s.configured = true) : Settled s.display s.geomValid := by
  obtain ⟨-, hfields, horder, htable, -⟩ := h.config
  obtain ⟨hflag, hgeometry, hwidth, hheight⟩ := h.geom
  exact ⟨hfields hs, horder, htable, hflag, hgeometry, hwidth, hheight, h.box⟩

theorem index_ok_of_inv {s : State} (h : Inv s) (hs : s.fault = false) : IndexOk s.display := by
  obtain ⟨-, -, -, -, hrotation⟩ := h.config
  exact fun k hk n hn => (hrotation k hk n hn).resolve_right (by simp [hs])

theorem rotation_reaches_of_settled {d : Display} {g : Bool} (h : Settled d g) (hi : IndexOk d) : RotationReaches d :=
  rotation_reaches_of_table_ok h.table hi

/-- A settled Display with a geometry is ready to be drawn on. -/
theorem draw_ready_of_settled {d : Display} {g : Bool} (h : Settled d g) (hg : g = true) : DrawReady d := by
  obtain ⟨-, -, -, -, -, -, hoptions, hbounding, -⟩ := h.fields
  exact ⟨h.geometry hg, hoptions, hbounding, h.width, h.height⟩

/-- Expanding the box by a window inside the area leaves it a rectangle inside the area, from the sentinel too. -/
theorem box_ok_box_with {d : Display} (h : BoxOk d) {x0 y0 x1 y1 : Nat}
    (hin : ∀ w ∈ d.width, ∀ h ∈ d.height, WindowInside w h x0 y0 x1 y1) : BoxOk (boxWith d x0 y0 x1 y1) := by
  unfold boxWith
  split
  · intro w hw hh hhh a ha b hb c hc e he
    obtain ⟨hx, hx1, hy, hy1⟩ := hin w hw hh hhh
    obtain ⟨a, hda, rfl⟩ := Option.map_eq_some_iff.1 ha
    obtain ⟨b, hdb, rfl⟩ := Option.map_eq_some_iff.1 hb
    obtain ⟨c, hdc, rfl⟩ := Option.map_eq_some_iff.1 hc
    obtain ⟨e, hde, rfl⟩ := Option.map_eq_some_iff.1 he
    have hbox := h w hw hh hhh a hda b hdb c hdc e hde
    have hwlt := w.isLt
    have hhlt := hh.isLt
    have hzero : (0 : Word).toNat = 0 := rfl
    refine .inr ?_
    simp only [← BitVec.toNat_inj, hzero, BitVec.le_def, BitVec.lt_def, BitVec.toNat_ofNat] at hbox ⊢
    omega
  · exact h

theorem settled_box_with {d : Display} {g : Bool} (h : Settled d g) {x0 y0 x1 y1 : Nat}
    (hin : ∀ w ∈ d.width, ∀ h ∈ d.height, WindowInside w h x0 y0 x1 y1) :
    Settled (boxWith d x0 y0 x1 y1) g where
  fields := by unfold boxWith; split <;> exact h.fields
  order := by simpa using h.order
  table := by unfold boxWith; split <;> exact h.table
  flag := by simpa using h.flag
  geometry hg := (draw_ready_box_with (draw_ready_of_settled h hg) x0 y0 x1 y1).1
  width := by simpa using h.width
  height := by simpa using h.height
  box := box_ok_box_with h.box hin

theorem index_ok_box_with {d : Display} (h : IndexOk d) (x0 y0 x1 y1 : Nat) : IndexOk (boxWith d x0 y0 x1 y1) := by
  simpa [IndexOk] using h

/-- A record of the table gives a geometry with the empty box. -/
theorem settled_rotated {d : Display} {g : Bool} (h : Settled d g) (co : Byte) {table : List RotRec} {rec : RotRec}
    (ht : d.rot = some table) (hrec : rec ∈ table) : Settled (rotated d co rec) true := by
  obtain ⟨-, -, -, hareas⟩ := h.table table ht
  obtain ⟨hw, hh⟩ := hareas rec hrec
  refine ⟨h.fields, h.order, h.table, rfl, fun _ => ⟨rfl, rfl, rfl, rfl, rfl, rfl, rfl, rfl, rfl⟩,
    fun he => hw (Option.some.inj he), fun he => hh (Option.some.inj he), ?_⟩
  rintro _ ⟨⟩ _ ⟨⟩ _ ⟨⟩ _ ⟨⟩ _ ⟨⟩ _ ⟨⟩
  exact .inl ⟨rfl, rfl, rfl, rfl⟩

theorem settled_with_rotation {d : Display} {g : Bool} (h : Settled d g) (value : Byte) :
    Settled (withRotation d value) g := by
  obtain ⟨h1, h2, -, h4, h5⟩ := h.fields
  exact ⟨⟨h1, h2, rfl, h4, h5⟩, h.order, h.table, h.flag, h.geometry, h.width, h.height, h.box⟩

theorem settled_offset {d : Display} {g : Bool} (h : Settled d g) (col row : Word) :
    Settled { d with colstart := some col, rowstart := some row } g := by
  refine ⟨h.fields, h.order, h.table, h.flag, fun hg => ?_, h.width, h.height, h.box⟩
  obtain ⟨hw, hh, -, -, hrest⟩ := h.geometry hg
  exact ⟨hw, hh, rfl, rfl, hrest⟩

theorem settled_madctl {d : Display} {g : Bool} (h : Settled d g) (v : Word) :
    Settled { d with madctl := some v } g := by
  refine ⟨h.fields, h.order, h.table, h.flag, fun hg => ?_, h.width, h.height, h.box⟩
  obtain ⟨hw, hh, hc, hr, -, hrest⟩ := h.geometry hg
  exact ⟨hw, hh, hc, hr, rfl, hrest⟩

theorem settled_inversion {d : Display} {g : Bool} (h : Settled d g) (flag : Bool) :
    Settled { d with inversion := some flag } g := by
  obtain ⟨h1, h2, h3, h4, h5, -, hrest⟩ := h.fields
  exact ⟨⟨h1, h2, h3, h4, h5, rfl, hrest⟩, h.order, h.table, h.flag, h.geometry, h.width, h.height, h.box⟩

/-- The box read by `BOUNDING_SET` is replaced by the sentinel of the geometry. -/
theorem settled_bounding_set {d : Display} {g : Bool} (h : Settled d g) (hg : g = true) (flag : Bool) {w hh : Word}
    (hw : d.width = some w) (hhh : d.height = some hh) :
    Settled { d with bounding := some flag, minX := some w, minY := some hh, maxX := some 0, maxY := some 0 } g := by
  obtain ⟨h1, h2, h3, h4, h5, h6, h7, -, hrest⟩ := h.fields
  obtain ⟨k1, k2, k3, k4, k5, -⟩ := h.geometry hg
  refine ⟨⟨h1, h2, h3, h4, h5, h6, h7, rfl, hrest⟩, h.order, h.table, h.flag,
    fun _ => ⟨k1, k2, k3, k4, k5, rfl, rfl, rfl, rfl⟩, h.width, h.height, ?_⟩
  intro w' hw' hh' hhh'
  have e1 : w = w' := Option.some.inj (hw.symm.trans hw')
  have e2 : hh = hh' := Option.some.inj (hhh.symm.trans hhh')
  rintro _ ⟨⟩ _ ⟨⟩ _ ⟨⟩ _ ⟨⟩
  exact .inl ⟨e1, e2, rfl, rfl⟩

/-- `CONFIG` leaves a legal Display with no geometry. -/
theorem settled_configured {f : ConfigFlags} {dw dh rotation options : Word} {table : List RotRec} {script : CustomInit}
    (hpos : 1 ≤ table.length) (hlen : table.length ≤ 255) (hareas : ∀ r ∈ table, r.width ≠ 0 ∧ r.height ≠ 0) :
    Settled (configuredDisplay f dw dh rotation options table script Display.unset) false ∧
      IndexOk (configuredDisplay f dw dh rotation options table script Display.unset) := by
  refine ⟨⟨⟨rfl, rfl, rfl, rfl, rfl, rfl, rfl, rfl, rfl, rfl, rfl, rfl, rfl⟩, ?_, ?_, rfl, fun h => (by cases h),
    fun h => (by cases h), fun h => (by cases h), fun w hw => by cases hw⟩, ?_⟩
  · rintro c ⟨⟩
    split
    · exact .inr rfl
    · exact .inl rfl
  · rintro t ⟨⟩
    exact ⟨hpos, hlen, rfl, hareas⟩
  · rintro k ⟨⟩ n ⟨⟩
    have := Nat.mod_lt rotation.toNat hpos
    simp only [BitVec.toNat_ofNat]
    omega

end Sys2Proof.Proofs

/-! PROOFS. How every instruction ends in a state with the invariant: with the three fault fields alone written, or with a
legal Display, and then no fault but `HAL_ERROR` is entered. The invariant is kept, and faults are precise (60_exceptions.md
R252, R253, R259; 10_state.md sections 3 to 7). -/

namespace Sys2Proof.Proofs

open Sys2Proof.Machine Sys2Proof.Safety Sys2Proof.Laws

/-! ## Operations that can fail by the HAL alone -/

/-- An unfaulted state with a legal Display and the geometry flag `g`. -/
structure Sound (g : Bool) (t : State) : Prop where
  fault : t.fault = false
  flag : t.geomValid = g
  settled : Settled t.display g
  index : IndexOk t.display

/-- From `u` the operation completes or ends in a HAL error, with a legal Display in either case. -/
def Lands (g : Bool) (op : Op Unit) (u : State) : Prop :=
  match op u with
  | .ok _ t => Sound g t
  | .error e t => e.cause = .halError ∧ Sound g t

section
variable {g : Bool} {u : State}

theorem lands_of_ok {op : Op Unit} {t : State} (h : op u = .ok () t) (ht : Sound g t) : Lands g op u := by
  rw [Lands, h]
  exact ht

theorem lands_of_error {op : Op Unit} {t : State} {e : Raised} (h : op u = .error e t) (he : e.cause = .halError)
    (ht : Sound g t) : Lands g op u := by
  rw [Lands, h]
  exact ⟨he, ht⟩

theorem lands_congr {a b : Op Unit} {v : State} (h : a u = b v) (hb : Lands g b v) : Lands g a u := by
  rw [Lands, h]
  exact hb

theorem lands_bind {x : Op Unit} {f : Op Unit} (hx : Lands g x u) (hf : ∀ t, Sound g t → Lands g f t) :
    Lands g (x >>= fun _ => f) u := by
  unfold Lands at hx
  split at hx
  · rename_i t hok
    exact lands_congr (bind_ok hok _) (hf t hx)
  · rename_i e t herr
    exact lands_of_error (bind_error herr _) hx.1 hx.2

theorem sound_emitted (h : Sound g u) (es : List Event) : Sound g (u.emitted es) :=
  ⟨h.fault, h.flag, h.settled, h.index⟩

theorem lands_play (h : Sound g u) (es : List Event) : Lands g (play es) u := by
  rcases play_cases es u with hok | ⟨pre, b, post, -, -, herr⟩
  · exact lands_of_ok hok (sound_emitted h es)
  · exact lands_of_error herr rfl (sound_emitted h _)

theorem sound_box_with (h : Sound g u) {x0 y0 x1 y1 : Nat}
    (hin : ∀ w ∈ u.display.width, ∀ h ∈ u.display.height, WindowInside w h x0 y0 x1 y1) :
    Sound g { u with display := boxWith u.display x0 y0 x1 y1 } :=
  ⟨h.fault, h.flag, settled_box_with h.settled hin, index_ok_box_with h.index _ _ _ _⟩

theorem draws_inside_box_with {d : Display} {gs : List Draw} (h : DrawsInside d gs) (x0 y0 x1 y1 : Nat) :
    DrawsInside (boxWith d x0 y0 x1 y1) gs := by
  simpa [DrawsInside] using h

theorem lands_play_draws {gs : List Draw} (h : Sound g u) (hin : DrawsInside u.display gs) :
    Lands g (playDraws gs) u := by
  induction gs generalizing u with
  | nil => exact lands_of_ok (play_draws_nil u) h
  | cons a gs ih =>
    have hbox := sound_box_with h (hin a (by simp))
    rcases play_draw_cases a u with hok | ⟨pre, b, post, -, -, herr⟩
    · have hone : Sound g (drawOne u a) := ⟨h.fault, h.flag, hbox.settled, hbox.index⟩
      refine lands_congr (bind_ok hok fun _ => playDraws gs) (ih hone ?_)
      exact draws_inside_box_with (fun b hb => hin b (by simp [hb])) _ _ _ _
    · exact lands_of_error (bind_error herr fun _ => playDraws gs) rfl (sound_emitted hbox _)

/-- `INIT` from its panel sequence on takes a record of the table. -/
theorem lands_init_from_rotation (h : Sound g u) : Lands true initFromRotation u := by
  obtain ⟨-, -, hrotation, hlen, horder, -, hoptions, hbounding, -, -, -, hrot, -⟩ := h.settled.fields
  obtain ⟨k, hk⟩ := Option.isSome_iff_exists.1 hrotation
  obtain ⟨n, hn⟩ := Option.isSome_iff_exists.1 hlen
  obtain ⟨co, hco⟩ := Option.isSome_iff_exists.1 horder
  obtain ⟨table, ht⟩ := Option.isSome_iff_exists.1 hrot
  obtain ⟨hlt, hreach⟩ := rotation_reaches_of_settled h.settled h.index k hk
  have hrec := List.getElem?_eq_getElem (hreach table ht)
  have hsound : Sound true { u with
      display := rotated u.display co (table[k.toNat]'(hreach table ht)), geomValid := true } :=
    ⟨h.fault, rfl, settled_rotated h.settled co ht (List.getElem_mem _), h.index⟩
  refine lands_congr (init_from_rotation_apply hk hn ht hco (hlt n hn) hrec) (lands_bind (lands_play hsound _)
    fun t ht => ?_)
  have hready := draw_ready_of_settled ht.settled rfl
  refine lands_bind (lands_congr ((draws_fill_screen colorBLACK).2 t hready)
    (lands_play_draws ht (fill_draws_inside ht.settled.width ht.settled.height _))) fun v hv => ?_
  exact lands_of_ok (pin_apply _ _ v) (sound_emitted hv _)

/-- `INIT` keeps a legal Display up to its panel sequence, and has a geometry from then on. -/
theorem init_body_ends (h : Sound g u) :
    (∃ e t, initBody u = .error e t ∧ e.cause = .halError ∧ Sound g t) ∨ Lands true initBody u := by
  obtain ⟨-, -, -, -, -, hinv, -, -, -, -, -, -, hcinit⟩ := h.settled.fields
  obtain ⟨panel, hpanel⟩ : ∃ panel, panelInitEvents u.display = some panel := by
    obtain ⟨c, hc⟩ := Option.isSome_iff_exists.1 hcinit
    obtain ⟨inversion, hi⟩ := Option.isSome_iff_exists.1 hinv
    cases c with
    | absent => exact ⟨defaultInitEvents u.display inversion, by simp only [panelInitEvents, hc, hi, Option.map_some]⟩
    | script entries => exact ⟨entries.flatMap (entryEvents u.display), by simp only [panelInitEvents, hc]⟩
  have hbody := init_body_apply hpanel
  rcases play_cases (hardResetEvents u.display ++ panel) u with hok | ⟨pre, b, post, -, -, herr⟩
  · exact .inr (lands_congr (hbody.trans (bind_ok hok _)) (lands_init_from_rotation (sound_emitted h _)))
  · exact .inl ⟨_, _, hbody.trans (bind_error herr _), rfl, sound_emitted h _⟩

end

/-! ## How an instruction ends -/

/-- The instruction has left a legal Display, and if it faulted, it did so by the HAL. -/
structure Ended (t : State) : Prop where
  cause : t.fault = true → t.cause = 11
  settled : Settled t.display t.geomValid
  index : IndexOk t.display

theorem ended_of_sound {g : Bool} {t : State} (h : Sound g t) : Ended t where
  cause hf := by
    rw [h.fault] at hf
    cases hf
  settled := by rw [h.flag]; exact h.settled
  index := h.index

theorem ended_of_hal_error {g : Bool} {u : State} {e : Raised} (h : Sound g u) (he : e.cause = .halError) :
    Ended (enterFault e.cause e.info u) where
  cause _ := by rw [he]; rfl
  settled := by
    rw [enter_fault_geom_valid, h.flag]
    exact h.settled
  index := h.index

theorem ended_of_lands {g : Bool} {op : Op Unit} {u t : State} {len : Nat} (h : Lands g op u)
    (ht : perform len op u = .next t) : Ended t := by
  unfold Lands at h
  rcases perform_cases len op u with ⟨v, hok, hnext⟩ | ⟨e, v, herr, hnext⟩
  · rw [hok] at h
    rw [hnext] at ht
    cases ht
    exact ended_of_sound (g := g) ⟨h.fault, h.flag, h.settled, h.index⟩
  · rw [herr] at h
    rw [hnext] at ht
    cases ht
    exact ended_of_hal_error h.2 h.1

/-- EVERY way an instruction ends in a configured state with the invariant. -/
inductive Ends (i : Instr) (s t : State) : Prop
  /-- a fault with nothing else written -/
  | precise (c : Byte) (v : DWord) (h : t = faulted s c v)
  /-- `ROT_RANGE`, with the index written -/
  | rotRange (value : Byte) (v : DWord) (hi : i = .rotation value)
      (h : t = faulted { s with display := withRotation s.display value } 7 v)
  /-- completed, or a failed transfer -/
  | ended (h : Ended t)

theorem display_same_of_frame {o : Opcode} {d e : Display} (h : DisplayFrame o d e)
    (ho : o ∉ [Opcode.config, .rotation, .init, .offset, .madctlSet, .inversionMode, .boundingSet, .setWindow, .pixel,
      .hline, .vline, .rect, .fillRect, .fill, .line, .blit]) : e = d := by
  simp only [List.mem_cons, List.not_mem_nil, or_false, not_or] at ho
  obtain ⟨c1, c2, c3, c4, c5, c6, c7, c8, c9, c10⟩ := h.config (by tauto)
  obtain ⟨w1, w2⟩ := h.size (by simp; tauto)
  obtain ⟨o1, o2⟩ := h.offsets (by simp; tauto)
  have hmadctl := h.madctl (by simp; tauto)
  have hrotation := h.rotation (by simp; tauto)
  have hinversion := h.inversion (by simp; tauto)
  have hbounding := h.bounding (by simp; tauto)
  obtain ⟨b1, b2, b3, b4⟩ := h.box (.inl (by simp; tauto))
  cases d
  cases e
  simp_all

/-- An instruction that plays events, or another operation that lands. -/
theorem ends_of_lands {i : Instr} {s t : State} {len : Nat} {op : Op Unit} {g : Bool} {u : State}
    (hexec : exec i s = perform len op u) (h : Lands g op u) (ht : exec i s = .next t) : Ends i s t :=
  .ended (ended_of_lands h (hexec.symm.trans ht))

/-- Without a geometry, what needs one faults with nothing written. -/
theorem ends_no_geometry {i : Instr} {s t : State} (hc : s.configured = true)
    (hi : i.opcode ∈ [Opcode.setWindow, .pixel, .hline, .vline, .rect, .fillRect, .fill, .line, .blit, .boundingGet,
      .boundingSet]) (hg : ¬ s.geomValid = true) (ht : exec i s = .next t) : Ends i s t := by
  rw [(unsetState i s hc).1 hi (by simpa using hg)] at ht
  cases ht
  exact .precise _ _ rfl

section
variable {s t : State} (hinv : Inv s) (hs : s.fault = false) (hc : s.configured = true)
include hinv hs hc

theorem sound_of_inv : Sound s.geomValid s :=
  ⟨hs, rfl, settled_of_inv hinv hc, index_ok_of_inv hinv hs⟩

theorem ends_of_play {i : Instr} {len : Nat} {es : List Event} (hexec : exec i s = perform len (play es) s)
    (ht : exec i s = .next t) : Ends i s t :=
  ends_of_lands hexec (lands_play (sound_of_inv hinv hs hc) es) ht

/-- An instruction that completes with the Display as it was. -/
theorem ends_of_next {i : Instr} {u : State} (hexec : exec i s = .next u) (hu : u.fault = s.fault)
    (hg : u.geomValid = s.geomValid) (hd : u.display = s.display) (ht : exec i s = .next t) : Ends i s t := by
  rw [hexec] at ht
  cases ht
  have h := sound_of_inv hinv hs hc
  exact .ended (ended_of_sound ⟨hu.trans hs, hg, by rw [hd]; exact h.settled, by rw [hd]; exact h.index⟩)

theorem ends_drawing {i : Instr}
    (hi : i.opcode ∈ [Opcode.pixel, .hline, .vline, .rect, .fillRect, .fill, .line, .blit])
    (hm : ∀ addr len x y w hh, i = .blit addr len x y w hh → addr.toNat + len.toNat ≤ s.params.bmemSize)
    (hg : s.geomValid = true) (ht : exec i s = .next t) : Ends i s t := by
  have hsound := sound_of_inv hinv hs hc
  have hdraw := flagsMeanDrawable s hinv hc hg
  have hin := draws_of_inside hsound.settled.width hsound.settled.height i
  exact ends_of_lands (exec_drawing hdraw hi hm) (lands_play_draws hsound hin) ht

theorem ends_set_window {x0 y0 x1 y1 : Word} (hg : s.geomValid = true)
    (ht : exec (.setWindow x0 y0 x1 y1) s = .next t) : Ends (.setWindow x0 y0 x1 y1) s t := by
  have hsound := sound_of_inv hinv hs hc
  have hdraw := flagsMeanDrawable s hinv hc hg
  obtain ⟨hwset, hhset, -⟩ := hsound.settled.geometry hg
  obtain ⟨w, hw⟩ := Option.isSome_iff_exists.1 hwset
  obtain ⟨h, hh⟩ := Option.isSome_iff_exists.1 hhset
  have hexec := exec_set_window hdraw hw hh x0 y0 x1 y1
  split at hexec
  · rename_i hfits
    have hin : WindowInside w h x0.toNat y0.toNat x1.toNat y1.toNat := by
      simp only [windowFits, decide_eq_true_eq] at hfits
      simp only [WindowInside, ← to_int_toNat (show 0 ≤ x0.toInt by omega), ← to_int_toNat (show 0 ≤ y0.toInt by omega),
        ← to_int_toNat (show 0 ≤ x1.toInt by omega), ← to_int_toNat (show 0 ≤ y1.toInt by omega)]
      omega
    have hbox := sound_box_with hsound fun w' hw' h' hh' => by
      rw [hw] at hw'
      rw [hh] at hh'
      cases hw'
      cases hh'
      exact hin
    exact ends_of_lands hexec (lands_play hbox _) ht
  · exact ends_of_next hinv hs hc hexec rfl rfl rfl ht

theorem ends_rotation {value : Byte} (ht : exec (.rotation value) s = .next t) : Ends (.rotation value) s t := by
  have hsound := sound_of_inv hinv hs hc
  obtain ⟨-, -, -, hlen, horder, -, -, -, -, -, -, hrot, -⟩ := hsound.settled.fields
  obtain ⟨n, hn⟩ := Option.isSome_iff_exists.1 hlen
  obtain ⟨co, hco⟩ := Option.isSome_iff_exists.1 horder
  obtain ⟨table, htable⟩ := Option.isSome_iff_exists.1 hrot
  by_cases hlt : value.toNat % 4 < n.toNat
  · have hreach := rotation_reaches_of_lt hsound.settled.table hn hlt
    have hk : (BitVec.ofNat 8 (value.toNat % 4)).toNat = value.toNat % 4 := by
      rw [BitVec.toNat_ofNat, Nat.mod_eq_of_lt (by omega)]
    obtain ⟨hklt, hkreach⟩ := hreach _ rfl
    have hin := hkreach table htable
    rw [hk] at hin
    have hsettled := settled_rotated (settled_with_rotation hsound.settled value) co htable (List.getElem_mem hin)
    have hset : Sound true { s with
        display := rotated (withRotation s.display value) co table[value.toNat % 4], geomValid := true } :=
      ⟨hs, rfl, hsettled, fun k hk m hm => (hreach k hk).1 m hm⟩
    exact ends_of_lands (exec_rotation_in_range hc hn htable hco hlt (List.getElem?_eq_getElem hin))
      (lands_play hset _) ht
  · rw [exec_rotation_out_of_range hc hn (Nat.not_lt.1 hlt)] at ht
    cases ht
    exact .rotRange value _ rfl rfl

theorem ends_bounding {asSize enable : Bool} (hg : s.geomValid = true) :
    (exec (.boundingGet asSize) s = .next t → Ends (.boundingGet asSize) s t) ∧
    (exec (.boundingSet asSize enable) s = .next t → Ends (.boundingSet asSize enable) s t) := by
  have hsound := sound_of_inv hinv hs hc
  obtain ⟨hwset, hhset, -, -, -, hx0set, hy0set, hx1set, hy1set⟩ := hsound.settled.geometry hg
  obtain ⟨w, hw⟩ := Option.isSome_iff_exists.1 hwset
  obtain ⟨h, hh⟩ := Option.isSome_iff_exists.1 hhset
  obtain ⟨x0, hx0⟩ := Option.isSome_iff_exists.1 hx0set
  obtain ⟨y0, hy0⟩ := Option.isSome_iff_exists.1 hy0set
  obtain ⟨x1, hx1⟩ := Option.isSome_iff_exists.1 hx1set
  obtain ⟨y1, hy1⟩ := Option.isSome_iff_exists.1 hy1set
  obtain ⟨hget, hset⟩ := boundingCompletes asSize enable x0 y0 x1 y1 w h s hc hg hx0 hy0 hx1 hy1 hw hh
  refine ⟨ends_of_next hinv hs hc hget rfl rfl rfl, fun ht => ?_⟩
  rw [hset] at ht
  cases ht
  exact .ended (ended_of_sound ⟨hs, rfl, settled_bounding_set hsound.settled hg enable hw hh, hsound.index⟩)

theorem ends_init (ht : exec .init s = .next t) : Ends .init s t := by
  have hexec : exec .init s = perform 1 initBody s := perform_guarded hc 1 _
  rcases init_body_ends (sound_of_inv hinv hs hc) with ⟨e, u, herr, he, hu⟩ | hlands
  · rw [hexec, perform_error herr] at ht
    cases ht
    exact .ended (ended_of_hal_error hu he)
  · exact ends_of_lands hexec hlands ht

theorem ends_mapbits {src srclen dst dstcap : DWord} {width fg bg : Word}
    (ht : exec (.mapbits src srclen dst dstcap width fg bg) s = .next t) :
    Ends (.mapbits src srclen dst dstcap width fg bg) s t := by
  rcases perform_silent (silent_mapbits_body _ _ _ _ _ _ _) ht with ⟨u, rfl, hu⟩ | ⟨e, rfl, -⟩
  · exact ends_of_next hinv hs hc ht hu.control.fault (hu.geomValid (by decide))
      (display_same_of_frame hu.display (by decide)) ht
  · exact .precise _ _ rfl

/-- EVERY instruction ends in one of the three ways. -/
theorem exec_ends (i : Instr) (ht : exec i s = .next t) : Ends i s t := by
  have hsound := sound_of_inv hinv hs hc
  have draws := ends_drawing (t := t) hinv hs hc (i := i)
  cases i with
  | writeCmd cmd addr len =>
    by_cases hm : addr.toNat + len.toNat ≤ s.params.bmemSize
    · exact ends_of_play hinv hs hc (exec_write_cmd hc cmd hm) ht
    · rw [exec_write_cmd_out_of_range cmd hc (Nat.not_le.1 hm)] at ht
      cases ht
      exact .precise _ _ rfl
  | setWindow =>
    by_cases hg : s.geomValid = true
    · exact ends_set_window hinv hs hc hg ht
    · exact ends_no_geometry hc (by simp [Instr.opcode]) hg ht
  | fillBuf => exact ends_of_play hinv hs hc (exec_fill_buf hc _ _) ht
  | pixel | hline | vline | rect | fillRect | fill | line =>
    by_cases hg : s.geomValid = true
    · exact draws (by simp [Instr.opcode]) (by simp) hg ht
    · exact ends_no_geometry hc (by simp [Instr.opcode]) hg ht
  | blit addr len x y w h =>
    by_cases hg : s.geomValid = true
    · by_cases hm : addr.toNat + len.toNat ≤ s.params.bmemSize
      · exact draws (by simp [Instr.opcode]) (by rintro _ _ _ _ _ _ ⟨⟩; exact hm) hg ht
      · rw [exec_blit_out_of_range x y w h hc hg (Nat.not_le.1 hm)] at ht
        cases ht
        exact .precise _ _ rfl
    · exact ends_no_geometry hc (by simp [Instr.opcode]) hg ht
  | mapbits => exact ends_mapbits hinv hs hc ht
  | rotation => exact ends_rotation hinv hs hc ht
  | offset col row =>
    rw [exec_offset hc] at ht
    cases ht
    exact .ended (ended_of_sound ⟨hs, rfl, settled_offset hsound.settled col row, hsound.index⟩)
  | madctlGet =>
    cases hm : s.display.madctl with
    | none =>
      rw [(unsetState _ s hc).2 rfl hm] at ht
      cases ht
      exact .precise _ _ rfl
    | some v => exact ends_of_next hinv hs hc (exec_madctl_get hc hm) rfl rfl rfl ht
  | madctlSet v =>
    have hset : Sound s.geomValid { s with display := { s.display with madctl := some v } } :=
      ⟨hs, rfl, settled_madctl hsound.settled v, hsound.index⟩
    exact ends_of_lands (exec_madctl_set hc v) (lands_bind (lands_play hset _) fun u hu =>
      lands_of_ok (update_results_apply _ u) ⟨hu.fault, hu.flag, hu.settled, hu.index⟩) ht
  | boundingGet =>
    by_cases hg : s.geomValid = true
    · exact (ends_bounding hinv hs hc (enable := true) hg).1 ht
    · exact ends_no_geometry hc (by simp [Instr.opcode]) hg ht
  | boundingSet =>
    by_cases hg : s.geomValid = true
    · exact (ends_bounding hinv hs hc hg).2 ht
    · exact ends_no_geometry hc (by simp [Instr.opcode]) hg ht
  | config =>
    rw [exec_config_faulted (config_body_reconfig _ _ _ _ hc) rfl] at ht
    cases ht
    exact .precise _ _ rfl
  | init => exact ends_init hinv hs hc ht
  | hardReset => exact ends_of_play hinv hs hc (exec_hard_reset hc) ht
  | softReset => exact ends_of_play hinv hs hc (exec_soft_reset hc) ht
  | sleepMode => exact ends_of_play hinv hs hc (exec_sleep_mode hc _) ht
  | inversionMode flag =>
    have hset : Sound s.geomValid { s with display := { s.display with inversion := some flag } } :=
      ⟨hs, rfl, settled_inversion hsound.settled flag, hsound.index⟩
    exact ends_of_lands (exec_inversion_mode hc flag)
      (lands_play hset _) ht
  | on => exact ends_of_play hinv hs hc (exec_on hc) ht
  | off => exact ends_of_play hinv hs hc (exec_off hc) ht
  | vscrdef => exact ends_of_play hinv hs hc (exec_vscrdef hc _ _ _) ht
  | vscsad => exact ends_of_play hinv hs hc (exec_vscsad hc _) ht
  | color565 r g b => exact ends_of_next hinv hs hc (exec_color565 r g b s) rfl rfl rfl ht

end

end Sys2Proof.Proofs

/-! PROOFS. Faults are precise, the results are written on completion alone, and every step keeps the invariant
(60_exceptions.md R252, R259; 10_state.md R23 and sections 3 to 7). -/

namespace Sys2Proof.Proofs

open Sys2Proof.Machine Sys2Proof.Safety Sys2Proof.Laws

/-! ## Faults -/

/-- EVERY fault in a state with the invariant. -/
theorem exec_fault_cases {i : Instr} {s t : State} (hinv : Inv s) (hs : s.fault = false) (ht : exec i s = .next t)
    (hf : t.fault = true) :
    (∃ c v, t = faulted s c v) ∨
    (∃ value v, i = .rotation value ∧ t = faulted { s with display := withRotation s.display value } 7 v) ∨
    t.cause = 11 := by
  by_cases hc : s.configured = true
  · cases exec_ends hinv hs hc i ht with
    | precise c v h => exact .inl ⟨c, v, h⟩
    | rotRange value v hi h => exact .inr (.inl ⟨value, v, hi, h⟩)
    | ended h => exact .inr (.inr (h.cause hf))
  · have silent : ∀ {o : Opcode} {len : Nat} {op : Op Unit}, Silent (Frame o) op → perform len op s = .next t →
        ∃ c v, t = faulted s c v := by
      intro o len op hop hperform
      rcases perform_silent hop hperform with ⟨u, rfl, hu⟩ | ⟨e, rfl, -⟩
      · rw [completed_fault, hu.control.fault, hs] at hf
        cases hf
      · exact ⟨_, _, rfl⟩
    cases i with
    | config => exact .inl (silent (silent_config_body _ _ _ _ _ _ _ _ _) ht)
    | mapbits => exact .inl (silent (silent_mapbits_body _ _ _ _ _ _ _) ht)
    | color565 =>
      rw [exec_color565] at ht
      cases ht
      rw [hs] at hf
      cases hf
    | _ =>
      rw [exec_unconfigured (by simp [Instr.opcode]) (by simpa using hc)] at ht
      cases ht
      exact .inl ⟨2, 0, rfl⟩

/-- Settles O22: a fault is raised before the first write, `ROT_RANGE` after that of the index; `HAL_ERROR` alone can come
later. -/
theorem faultsArePrecise : Obligations.FaultsArePrecise := by
  intro i s t hinv hs ht hf
  refine ⟨(exec_pc hs ht).2 hf, ?_⟩
  rcases exec_fault_cases hinv hs ht hf with ⟨c, v, rfl⟩ | ⟨value, v, rfl, rfl⟩ | hcause
  · refine ⟨fun _ _ => rfl, fun hc => ?_⟩
    change c = 7 at hc
    rw [hc]
    rfl
  · exact ⟨fun h _ => absurd rfl h, fun _ => rfl⟩
  · refine ⟨fun _ h => absurd hcause h, fun h => ?_⟩
    rw [h] at hcause
    cases hcause

/-! ## The result registers -/

theorem cause_code_eq_hal_error {c : Cause} (h : c.code = 11) : c = .halError := by
  cases c with
  | halError => rfl
  | _ => exact absurd h (by decide)

/-- An instruction that ends in `HAL_ERROR` has passed its guard and is one whose operation makes transfers. -/
theorem exec_hal_error {i : Instr} {s t : State} (hs : s.fault = false) (ht : exec i s = .next t) (hf : t.fault = true)
    (hcause : t.cause = 11) : s.configured = true ∧ i.opcode ∉ [Opcode.config, .color565, .mapbits] := by
  have hi : i.opcode ∉ [Opcode.config, .color565, .mapbits] := fun hi => by
    obtain ⟨c, hc, hcode⟩ := exec_faults_only i s t ht hs hf
    rw [cause_code_eq_hal_error (hcode.symm.trans hcause)] at hc
    have hnone : ∀ o ∈ [Opcode.config, .color565, .mapbits], Cause.halError ∉ causesOf o := by decide
    exact hnone _ hi hc
  refine ⟨?_, hi⟩
  by_contra hc
  rw [exec_unconfigured hi (by simpa using hc)] at ht
  cases ht
  exact absurd hcause (show (2 : Byte) ≠ 11 by decide)

/-- The two box operations complete in every drawable state. -/
theorem bounding_next {s : State} (h : Drawable s) (asSize enable : Bool) :
    (∃ u, exec (.boundingGet asSize) s = .next u ∧ u.fault = s.fault) ∧
      ∃ u, exec (.boundingSet asSize enable) s = .next u ∧ u.fault = s.fault := by
  obtain ⟨hc, hg, ⟨hwset, hhset, -, -, -, hx0set, hy0set, hx1set, hy1set⟩, -⟩ := h
  obtain ⟨w, hw⟩ := Option.isSome_iff_exists.1 hwset
  obtain ⟨h, hh⟩ := Option.isSome_iff_exists.1 hhset
  obtain ⟨x0, hx0⟩ := Option.isSome_iff_exists.1 hx0set
  obtain ⟨y0, hy0⟩ := Option.isSome_iff_exists.1 hy0set
  obtain ⟨x1, hx1⟩ := Option.isSome_iff_exists.1 hx1set
  obtain ⟨y1, hy1⟩ := Option.isSome_iff_exists.1 hy1set
  obtain ⟨hget, hset⟩ := boundingCompletes asSize enable x0 y0 x1 y1 w h s hc hg hx0 hy0 hx1 hy1 hw hh
  exact ⟨⟨_, hget, rfl⟩, ⟨_, hset, rfl⟩⟩

/-- The reads make no transfer in a state with the invariant. -/
theorem not_hal_error_of_read {i : Instr} {s t : State} (hinv : Inv s) (hs : s.fault = false)
    (hi : i.opcode ∈ [Opcode.boundingGet, .boundingSet, .madctlGet]) (ht : exec i s = .next t) (hf : t.fault = true) :
    t.cause ≠ 11 := by
  intro hcause
  obtain ⟨hc, -⟩ := exec_hal_error hs ht hf hcause
  have hunset : ∀ v, exec i s ≠ .next (faulted s 3 v) := fun v h => by
    rw [ht] at h
    cases h
    exact absurd hcause (show (3 : Byte) ≠ 11 by decide)
  have hnext : ∀ u : State, exec i s = .next u → u.fault ≠ s.fault := fun u h hu => by
    rw [ht] at h
    cases h
    rw [hu, hs] at hf
    cases hf
  cases i with
  | madctlGet =>
    cases hm : s.display.madctl with
    | none => exact hunset 9 ((unsetState _ s hc).2 rfl hm)
    | some v => exact hnext _ (exec_madctl_get hc hm) rfl
  | boundingGet asSize =>
    by_cases hg : s.geomValid = true
    · obtain ⟨⟨u, hu, hfault⟩, -⟩ := bounding_next (flagsMeanDrawable s hinv hc hg) asSize true
      exact hnext u hu hfault
    · exact hunset 2 ((unsetState _ s hc).1 (by simp [Instr.opcode]) (by simpa using hg))
  | boundingSet asSize enable =>
    by_cases hg : s.geomValid = true
    · obtain ⟨-, u, hu, hfault⟩ := bounding_next (flagsMeanDrawable s hinv hc hg) asSize enable
      exact hnext u hu hfault
    · exact hunset 2 ((unsetState _ s hc).1 (by simp [Instr.opcode]) (by simpa using hg))
  | _ => simp [Instr.opcode] at hi

theorem results_of_frame {o : Opcode} {s u : State} (h : Frame o s u)
    (ho : o ∉ [Opcode.boundingGet, .boundingSet, .madctlGet, .madctlSet, .color565, .mapbits]) :
    u.results = s.results := by
  have h0 := h.result0 ho
  obtain ⟨h1, h2, h3⟩ := h.results fun h => ho (List.mem_of_mem_take (i := 2) h)
  cases hr : u.results
  cases hr' : s.results
  rw [hr, hr'] at h0 h1 h2 h3
  simp_all

/-- What the end of an instruction writes is no result. -/
theorem end_results {i : Instr} {t u : State}
    (h : t = completed u i.words ∨ ∃ e : Raised, t = enterFault e.cause e.info u) : t.results = u.results := by
  rcases h with rfl | ⟨e, rfl⟩
  · rfl
  · rfl

/-- An operation whose transfer fails has written no result: the one that makes transfers and writes one does so last. -/
theorem results_of_hal_error {i : Instr} {s t : State} (hinv : Inv s) (hs : s.fault = false)
    (ht : exec i s = .next t) (hf : t.fault = true) (hcause : t.cause = 11) : t.results = s.results := by
  obtain ⟨hc, hi⟩ := exec_hal_error hs ht hf hcause
  cases i with
  | boundingGet | boundingSet | madctlGet =>
    exact absurd hcause (not_hal_error_of_read hinv hs (by simp [Instr.opcode]) ht hf)
  | madctlSet v =>
    rw [exec_madctl_set hc] at ht
    rcases play_cases (commandEvents s.display 0x36 [lowByte v])
      { s with display := { s.display with madctl := some v } } with hok | ⟨pre, b, post, -, -, herr⟩
    · rw [perform_ok ((bind_ok hok _).trans (update_results_apply _ _))] at ht
      cases ht
      exact absurd hf (by simp [hs])
    · rw [perform_error (bind_error herr _)] at ht
      cases ht
      rfl
  | config | color565 | mapbits => exact absurd (by simp [Instr.opcode]) hi
  | _ =>
    obtain ⟨u, hu, htu⟩ := exec_writes ht
    rw [end_results htu]
    exact results_of_frame hu (by simp [Instr.opcode])

/-- Settles O17: a fault finds the results as they were, and the writers of each register are those of its row. -/
theorem resultWriters : Obligations.ResultWriters := by
  intro i s t hs ht
  obtain ⟨u, hu, htu⟩ := exec_writes ht
  refine ⟨fun hinv hf => ?_, ?_, fun hi => (end_results htu).trans (results_of_frame hu hi)⟩
  · rcases exec_fault_cases hinv hs ht hf with ⟨c, v, rfl⟩ | ⟨value, v, rfl, rfl⟩ | hcause
    · rfl
    · rfl
    · exact results_of_hal_error hinv hs ht hf hcause
  · rw [end_results htu]
    exact hu.results

/-! ## The invariant -/

end Sys2Proof.Proofs

/-! PROOFS. Every step keeps the invariant: what it says of the inputs, the fault fields and the trace follows from what an
instruction may write, and what it says of the Display from how an instruction ends (10_state.md sections 3 to 7). -/

namespace Sys2Proof.Proofs

open Sys2Proof.Machine Sys2Proof.Safety Sys2Proof.Laws

/-! ## The inputs, the fault fields and the trace -/

theorem cause_code_range (c : Cause) : 1 ≤ c.code ∧ c.code ≤ 12 := by
  cases c <;> decide

theorem exec_fault_ok {i : Instr} {s t : State} (hs : s.fault = false) (hok : FaultOk s) (ht : exec i s = .next t) :
    FaultOk t := by
  obtain ⟨u, hu, rfl | ⟨e, rfl⟩⟩ := exec_same_control ht
  · refine ⟨fun _ => ?_, fun hf => ?_⟩
    · rw [completed_cause, completed_info, hu.cause, hu.info]
      exact hok.1 hs
    · rw [completed_fault, hu.fault, hs] at hf
      cases hf
  · exact ⟨fun hf => (by cases hf), fun _ => cause_code_range e.cause⟩

/-- The events of an unfaulted state with the invariant are legal whatever the fault fields become. -/
theorem event_ok_of_unfaulted {s t : State} (hs : s.fault = false) {e : Event} (h : EventOk s e) : EventOk t e := by
  refine ⟨h.1, h.2.1, fun hfail => ?_⟩
  have hf := (h.2.2 hfail).1
  rw [hs] at hf
  cases hf

theorem event_ok_of_requested {t : State} {es : List Event} (h : Requested es) : ∀ e ∈ es, EventOk t e := by
  intro e he
  refine ⟨fun hnil => h.no_empty (hnil ▸ he), fun hnil => h.no_fail [] (hnil ▸ he), ?_⟩
  rintro ⟨b, rfl⟩
  exact absurd he (h.no_fail b)

theorem exec_trace_ok {i : Instr} {s t : State} (hs : s.fault = false) (hok : TraceOk s) (ht : exec i s = .next t) :
    TraceOk t := by
  have hold : ∀ e ∈ s.trace, EventOk t e := fun e he => event_ok_of_unfaulted hs (hok e he)
  rcases exec_cases ht with ⟨u, es, rfl, hu⟩ | ⟨e, u, es, rfl, -, hu⟩ | ⟨u, es, bytes, rfl, hu⟩
  · intro e he
    rw [completed_trace, hu.trace] at he
    exact (List.mem_append.1 he).elim (hold e) (event_ok_of_requested hu.requested e)
  · intro e he
    rw [enter_fault_trace, hu.trace] at he
    exact (List.mem_append.1 he).elim (hold e) (event_ok_of_requested hu.requested e)
  · intro e he
    rw [enter_fault_trace, hu.trace, List.mem_append, List.mem_append, List.mem_cons] at he
    rcases he with (he | he) | rfl | he
    · exact hold e he
    · exact event_ok_of_requested hu.requested e he
    · refine ⟨by simp, by simpa using hu.nonempty, fun _ => ⟨rfl, rfl⟩⟩
    · exact event_ok_of_requested (requested_pin_events _ _ _) e he

/-! ## The Display -/

/-- What the invariant says of the Display and the two status flags. -/
structure DisplayInv (t : State) : Prop where
  config : ConfigOk t
  geom : GeomOk t
  box : BoxOk t.display

theorem display_inv_of_settled {t : State} (hc : t.configured = true) (h : Settled t.display t.geomValid)
    (hi : IndexOk t.display ∨ t.fault = true) : DisplayInv t where
  config := by
    refine ⟨fun hf => ?_, fun _ => h.fields, h.order, h.table, fun k hk n hn => hi.imp (fun hi => hi k hk n hn) id⟩
    rw [hc] at hf
    cases hf
  geom := ⟨h.flag, h.geometry, h.width, h.height⟩
  box := h.box

/-- The fault fields do not matter once the rotation index is legal. -/
theorem display_inv_of_same {s t : State} (hinv : Inv s) (hs : s.fault = false) (hc : t.configured = s.configured)
    (hg : t.geomValid = s.geomValid) (hd : t.display = s.display) : DisplayInv t := by
  obtain ⟨hunset, hfields, horder, htable, hrotation⟩ := hinv.config
  obtain ⟨hflag, hgeometry, hsize⟩ := hinv.geom
  have hindex := index_ok_of_inv hinv hs
  refine ⟨⟨?_, ?_, ?_, ?_, ?_⟩, ⟨?_, ?_, ?_⟩, ?_⟩
  · rw [hc, hd, hg]; exact hunset
  · rw [hc, hd]; exact hfields
  · rw [hd]; exact horder
  · rw [hd]; exact htable
  · unfold RotationOk
    rw [hd]
    exact fun k hk n hn => .inl (hindex k hk n hn)
  · rw [hd, hg]; exact hflag
  · rw [hd, hg]; exact hgeometry
  · rw [hd]; exact hsize
  · rw [hd]; exact hinv.box

/-- From a configured state. -/
theorem exec_display_inv {i : Instr} {s t : State} (hinv : Inv s) (hs : s.fault = false) (hc : s.configured = true)
    (ht : exec i s = .next t) : DisplayInv t := by
  obtain ⟨u, hu, htu⟩ := exec_same_control ht
  have hct : t.configured = true := by
    rcases htu with rfl | ⟨e, rfl⟩
    · exact hu.configured hc
    · exact hu.configured hc
  cases exec_ends hinv hs hc i ht with
  | precise c v h =>
    subst h
    exact display_inv_of_same hinv hs rfl rfl rfl
  | rotRange value v hi h =>
    subst h
    exact display_inv_of_settled hct (settled_with_rotation (settled_of_inv hinv hc) value) (.inr rfl)
  | ended h => exact display_inv_of_settled hct h.settled (.inl h.index)

/-! ## `CONFIG` -/

/-- What a test passes on it passes on in the same state. -/
theorem tests_bind_ok {α β : Type} {x : Op α} {f : α → Op β} {s t : State} {b : β} (hx : Tests x)
    (h : (x >>= f) s = .ok b t) : ∃ a, x s = .ok a s ∧ f a s = .ok b t := by
  rcases hx s with ⟨a, ha⟩ | ⟨e, -, herr⟩
  · have hok : x s = .ok a s := ha s.results
    rw [bind_ok hok] at h
    exact ⟨a, hok, h⟩
  · have herror : x s = .error e s := herr s.results
    rw [bind_error herror] at h
    cases h

theorem only_if_raise_ok {c : Prop} [Decidable c] {k : Cause} {n : Nat} {s t : State}
    (h : onlyIf c (raise k n) s = .ok () t) : ¬ c := fun hc => by
  rw [only_if_pos hc, raise_apply] at h
  cases h

/-- A table that passes the checks of `CONFIG` is legal. -/
theorem config_table_ok {nrec dw dh : Word} {recs table : List RotRec} {s t : State}
    (hrecs : tableMatches nrec recs = true) (hn : nrec.toNat ≤ 255)
    (hchoose : chooseTable nrec dw dh recs s = .ok table s) (hcheck : checkTable table s = .ok () t) :
    1 ≤ table.length ∧ table.length ≤ 255 ∧ ∀ r ∈ table, r.width ≠ 0 ∧ r.height ≠ 0 := by
  have hlen : 1 ≤ table.length ∧ table.length ≤ 255 := by
    unfold chooseTable at hchoose
    split at hchoose
    · unfold presetTable at hchoose
      split at hchoose
      · rename_i found hfound
        cases hchoose
        obtain ⟨-, entry, -, -, -, -, rfl, -⟩ := (find_preset_eq_some_iff _ _ _ _).1 hfound
        simp
      · cases hchoose
    · rename_i hzero
      cases hchoose
      simp only [tableMatches, if_pos hn, beq_iff_eq] at hrecs
      have hpos := word_toNat_pos hzero
      omega
  refine ⟨hlen.1, hlen.2, ?_⟩
  cases hfirst : firstEmptyArea table with
  | some i =>
    simp only [checkTable, hfirst, raise_apply] at hcheck
    cases hcheck
  | none => simpa [firstEmptyArea, List.findIdx?_eq_none_iff, is_empty_area_eq_false_iff] using hfirst

/-- EVERYTHING a `CONFIG` that completes has done. -/
theorem config_body_completed {f : ConfigFlags} {dw dh rotation options nrec : Word} {addr len : Nat}
    {recs : List RotRec} {s t : State} (hrecs : tableMatches nrec recs = true)
    (h : configBody f dw dh rotation options nrec addr len recs s = .ok () t) :
    ∃ (table : List RotRec) (script : CustomInit), s.configured = false ∧
      (1 ≤ table.length ∧ table.length ≤ 255 ∧ ∀ r ∈ table, r.width ≠ 0 ∧ r.height ≠ 0) ∧
      t = { s with
        configured := true, display := configuredDisplay f dw dh rotation options table script s.display } := by
  obtain ⟨_, hguard, h⟩ := tests_bind_ok tests_guard_unconfigured h
  obtain ⟨_, -, h⟩ := tests_bind_ok (tests_only_if (tests_raise (by simp) _)) h
  obtain ⟨_, hcount, h⟩ := tests_bind_ok (tests_only_if (tests_raise (by simp) _)) h
  obtain ⟨table, hchoose, h⟩ := tests_bind_ok (tests_choose_table _ _ _ _) h
  obtain ⟨_, hcheck, h⟩ := tests_bind_ok (tests_check_table _) h
  obtain ⟨script, -, h⟩ := tests_bind_ok (tests_choose_script _ _ _) h
  refine ⟨table, script, ?_, ?_, ?_⟩
  · rw [guard_unconfigured_apply] at hguard
    split at hguard
    · cases hguard
    · simpa using ‹¬ s.configured = true›
  · exact config_table_ok hrecs (Nat.not_lt.1 (only_if_raise_ok hcount)) hchoose hcheck
  · rw [bind_ok (update_display_apply _ s)] at h
    cases h
    rfl

theorem exec_config_display_inv {f : ConfigFlags} {dw dh rotation options nrec : Word} {addr len : DWord}
    {recs : List RotRec} {s t : State} (hinv : Inv s) (hs : s.fault = false)
    (hwf : (Instr.config f dw dh rotation options nrec addr len recs).wellFormed = true)
    (ht : exec (.config f dw dh rotation options nrec addr len recs) s = .next t) : DisplayInv t := by
  have hexec : exec (.config f dw dh rotation options nrec addr len recs) s =
      execConfig f dw dh rotation options nrec addr len recs s := rfl
  rw [hexec, execConfig] at ht
  rcases silent_config_body f dw dh rotation options nrec (valU32 addr) (valU32 len) recs s with
    ⟨_, u, hok, -⟩ | ⟨e, herr, -⟩
  · obtain ⟨table, script, hc, ⟨hpos, hlen, hareas⟩, rfl⟩ := config_body_completed hwf hok
    obtain ⟨hunset, hgeom⟩ := hinv.config.1 hc
    rw [perform_ok hok] at ht
    cases ht
    obtain ⟨hsettled, hindex⟩ := settled_configured (f := f) (dw := dw) (dh := dh) (rotation := rotation)
      (options := options) (script := script) hpos hlen hareas
    refine display_inv_of_settled rfl ?_ (.inl ?_)
    · change Settled (configuredDisplay f dw dh rotation options table script s.display) s.geomValid
      rw [hunset, hgeom]
      exact hsettled
    · change IndexOk (configuredDisplay f dw dh rotation options table script s.display)
      rw [hunset]
      exact hindex
  · rw [perform_error herr] at ht
    cases ht
    exact display_inv_of_same hinv hs rfl rfl rfl

/-- From an unconfigured state the Display is written by `CONFIG` alone. -/
theorem exec_display_inv_unconfigured {i : Instr} {s t : State} (hinv : Inv s) (hs : s.fault = false)
    (hc : s.configured = false) (hwf : i.wellFormed = true) (ht : exec i s = .next t) : DisplayInv t := by
  cases i with
  | config => exact exec_config_display_inv hinv hs hwf ht
  | mapbits =>
    rcases perform_silent (silent_mapbits_body _ _ _ _ _ _ _) ht with ⟨u, rfl, hu⟩ | ⟨e, rfl, -⟩
    · exact display_inv_of_same hinv hs (hu.configured (by decide)) (hu.geomValid (by decide))
        (display_same_of_frame hu.display (by decide))
    · exact display_inv_of_same hinv hs rfl rfl rfl
  | color565 =>
    rw [exec_color565] at ht
    cases ht
    exact display_inv_of_same hinv hs rfl rfl rfl
  | _ =>
    rw [exec_unconfigured (by simp [Instr.opcode]) hc] at ht
    cases ht
    exact display_inv_of_same hinv hs rfl rfl rfl

/-! ## The step -/

theorem exec_memory_ok {i : Instr} {s t : State} (hm : MemoryOk s) (ht : exec i s = .next t) : MemoryOk t := by
  obtain ⟨u, hu, rfl | ⟨e, rfl⟩⟩ := exec_writes ht
  all_goals exact hu.memory hm

/-- An instruction whose words lie in the stream keeps the invariant. -/
theorem exec_keeps_inv {i : Instr} {s t : State} (hinv : Inv s) (hs : s.fault = false) (hwf : i.wellFormed = true)
    (hpc : s.pc + i.words ≤ s.prog.length) (ht : exec i s = .next t) : Inv t := by
  have hdisplay : DisplayInv t := by
    cases hc : s.configured with
    | true => exact exec_display_inv hinv hs hc ht
    | false => exact exec_display_inv_unconfigured hinv hs hc hwf ht
  have hsame := exec_same_inputs ht
  exact {
    params := by rw [hsame.params]; exact hinv.params
    pc := by
      rw [hsame.prog]
      cases hf : t.fault with
      | false => rw [(exec_pc hs ht).1 hf]; exact hpc
      | true => rw [(exec_pc hs ht).2 hf]; exact hinv.pc
    memory := exec_memory_ok hinv.memory ht
    config := hdisplay.config
    geom := hdisplay.geom
    box := hdisplay.box
    fault := exec_fault_ok hs hinv.fault ht
    trace := exec_trace_ok hs hinv.trace ht }

/-- An illegal header writes the three fault fields. -/
theorem faulted_keeps_inv {s : State} (hinv : Inv s) (hs : s.fault = false) {c : Byte} (hc : 1 ≤ c ∧ c ≤ 12)
    (v : DWord) : Inv (faulted s c v) := by
  have hdisplay : DisplayInv (faulted s c v) := display_inv_of_same hinv hs rfl rfl rfl
  exact {
    params := hinv.params
    pc := hinv.pc
    memory := hinv.memory
    config := hdisplay.config
    geom := hdisplay.geom
    box := hdisplay.box
    fault := ⟨fun hf => (by cases hf), fun _ => hc⟩
    trace := fun e he => event_ok_of_unfaulted hs (hinv.trace e he) }

/-- Settles O13: the step is an illegal header's fault or a well-formed instruction whose words lie in the stream. -/
theorem stepKeepsInv : Obligations.StepKeepsInv := by
  intro s t hinv hstep
  rcases step_cases s with ⟨-, h⟩ | ⟨-, -, h⟩ | ⟨-, -, h⟩ | ⟨hs, g, -, h⟩ | ⟨hs, i, rest, u, hf, hexec, h⟩
  · rw [h] at hstep; cases hstep
  · rw [h] at hstep; cases hstep
  · rw [h] at hstep; cases hstep
  · rw [h] at hstep
    cases hstep
    exact faulted_keeps_inv hinv hs (by decide) _
  · rw [h] at hstep
    cases hstep
    obtain ⟨hwf, hpc⟩ := fetch_ok hf
    exact exec_keeps_inv hinv hs hwf hpc hexec

end Sys2Proof.Proofs

/-! PROOFS. What a `HAL_ERROR` leaves: the events up to the failing transfer, and what the operation stored before it
(60_exceptions.md R253; 20_memory.md R64; 45_lifecycle.md R206). -/

namespace Sys2Proof.Proofs

open Sys2Proof.Machine Sys2Proof.Safety Sys2Proof.Laws

/-! ## Operations that store first and then only emit -/

/-- Run from `s` the operation stores what makes the state `u`, and then emits: it completes there, raises a fault of its
own, or ends at a failed transfer. -/
def RunsFrom {α : Type} (op : Op α) (s u : State) : Prop :=
  (∃ a es, op s = .ok a (u.emitted es)) ∨ (∃ e t, op s = .error e t ∧ e.cause ≠ .halError) ∨
    ∃ n pre b post, op s = .error ⟨.halError, n⟩ (u.emitted (pre ++ .spiFail b :: post))

section
variable {α β : Type} {s u : State}

theorem runs_from_of_ok {op : Op α} {a : α} (h : op s = .ok a u) : RunsFrom op s u :=
  .inl ⟨a, [], by simpa [State.emitted] using h⟩

theorem runs_from_play (es : List Event) (s : State) : RunsFrom (play es) s s := by
  rcases play_cases es s with hok | ⟨pre, b, post, -, -, herr⟩
  · exact .inl ⟨(), es, hok⟩
  · exact .inr (.inr ⟨_, pre, b, _, herr⟩)

theorem runs_from_plays {op : Op Unit} {es : List Event} (h : Plays op s.display es) : RunsFrom op s s := by
  unfold RunsFrom
  rw [h s rfl]
  exact runs_from_play es s

theorem runs_from_bind {x : Op α} {f : α → Op β} (hx : RunsFrom x s u)
    (hf : ∀ a es, RunsFrom (f a) (u.emitted es) (u.emitted es)) : RunsFrom (x >>= f) s u := by
  rcases hx with ⟨a, es, hok⟩ | ⟨e, t, herr, he⟩ | ⟨n, pre, b, post, herr⟩
  · have hbind := bind_ok hok f
    rcases hf a es with ⟨c, fs, h⟩ | ⟨e, t, h, he⟩ | ⟨n, pre, b, post, h⟩
    · exact .inl ⟨c, es ++ fs, by rw [hbind, h, emitted_emitted]⟩
    · exact .inr (.inl ⟨e, t, hbind.trans h, he⟩)
    · exact .inr (.inr ⟨n, es ++ pre, b, post, by rw [hbind, h, emitted_emitted, List.append_assoc]⟩)
  · exact .inr (.inl ⟨e, t, bind_error herr f, he⟩)
  · exact .inr (.inr ⟨n, pre, b, post, bind_error herr f⟩)

/-- Storing comes first. -/
theorem runs_from_bind_of_ok {x : Op α} {f : α → Op β} {t : State} {a : α} (hx : x s = .ok a t)
    (hf : RunsFrom (f a) t u) : RunsFrom (x >>= f) s u := by
  unfold RunsFrom
  rw [bind_ok hx f]
  exact hf

theorem runs_from_need_then {sr : Nat} {f : Display → Option α} {g : α → Op β}
    (h : ∀ v, f s.display = some v → RunsFrom (g v) s u) : RunsFrom (need sr f >>= g) s u := by
  rcases need_cases sr f s with ⟨v, hv, hok⟩ | ⟨-, herr⟩
  · exact runs_from_bind_of_ok hok (h v hv)
  · exact .inr (.inl ⟨_, s, bind_error herr g, by simp⟩)

theorem runs_from_write_cmd (cmd : Byte) (data : List Byte) (s : State) : RunsFrom (writeCmd cmd data) s s :=
  runs_from_plays (plays_write_cmd _ _ _)

/-- What a HAL error of such an operation has left. -/
theorem perform_runs_from {op : Op Unit} {len : Nat} {t : State} (h : RunsFrom op s u) (hu : u.fault = false)
    (ht : perform len op s = .next t) (hf : t.fault = true) (hcause : t.cause = 11) :
    t = faulted { u with trace := t.trace } 11 t.info ∧
      ∃ pre b post, t.trace = u.trace ++ (pre ++ .spiFail b :: post) := by
  rcases h with ⟨_, es, hok⟩ | ⟨e, v, herr, he⟩ | ⟨n, pre, b, post, herr⟩
  · rw [perform_ok hok] at ht
    cases ht
    exact absurd hf (by simp [hu])
  · rw [perform_error herr] at ht
    cases ht
    exact absurd (cause_code_eq_hal_error hcause) he
  · rw [perform_error herr] at ht
    cases ht
    exact ⟨rfl, pre, b, post, rfl⟩

end

/-! ## Windows in any state -/

/-- The state with its box expanded by a window. -/
def boxed (s : State) (x0 y0 x1 y1 : Int) : State :=
  { s with display := boxWith s.display x0.toNat y0.toNat x1.toNat y1.toNat }

theorem runs_from_expand_box {s : State} (hb : s.display.bounding = some true) {x0 y0 x1 y1 : Int} (hx0 : 0 ≤ x0)
    (hy0 : 0 ≤ y0) (hx1 : 0 ≤ x1) (hy1 : 0 ≤ y1) : RunsFrom (expandBox x0 y0 x1 y1) s (boxed s x0 y0 x1 y1) := by
  refine runs_from_need_then fun a ha => runs_from_need_then fun b hb' => runs_from_need_then fun c hc =>
    runs_from_need_then fun e he => runs_from_of_ok (a := ()) ?_
  rw [update_display_apply]
  lift x0 to Nat using hx0
  lift y0 to Nat using hy0
  lift x1 to Nat using hx1
  lift y1 to Nat using hy1
  simp only [boxed, boxWith, hb, ha, hb', hc, he, if_pos, Int.toNat_natCast, Option.map_some, ← Nat.cast_min,
    ← Nat.cast_max, to_u16_nat]

theorem runs_from_program_window (x0 y0 x1 y1 : Int) (s : State) : RunsFrom (programWindow x0 y0 x1 y1) s s :=
  runs_from_need_then fun _ _ => runs_from_need_then fun _ _ =>
  runs_from_bind (runs_from_write_cmd _ _ _) fun _ _ => runs_from_bind (runs_from_write_cmd _ _ _) fun _ _ =>
  runs_from_write_cmd _ _ _

theorem runs_from_only_if {c : Prop} [Decidable c] {op : Op Unit} {s : State} (h : RunsFrom op s s) :
    RunsFrom (onlyIf c op) s s := by
  unfold onlyIf
  split
  · exact h
  · exact runs_from_of_ok (a := ()) rfl

/-- A window that fits is programmed after its box is stored. -/
theorem runs_from_window_then {pixels : Op Unit} (hp : ∀ t, RunsFrom pixels t t) {s : State} {w h : Word}
    (hw : s.display.width = some w) (hh : s.display.height = some h) {x0 y0 x1 y1 : Int}
    (hf : windowFits w h x0 y0 x1 y1 = true) :
    RunsFrom (windowThen x0 y0 x1 y1 pixels) s (boxed s x0 y0 x1 y1) := by
  have program : ∀ t, RunsFrom (programWindow x0 y0 x1 y1 >>= fun _ => (pure true : Op Bool)) t t := fun t =>
    runs_from_bind (runs_from_program_window _ _ _ _ t) fun _ _ => runs_from_of_ok rfl
  refine runs_from_bind (runs_from_bind_of_ok (need_some 2 hw) (runs_from_bind_of_ok (need_some 3 hh) ?_))
    fun _ _ => runs_from_only_if (hp _)
  rw [if_pos hf]
  refine runs_from_need_then fun bounding hb => ?_
  simp only [windowFits, decide_eq_true_eq] at hf
  cases bounding with
  | true =>
    exact runs_from_bind (runs_from_expand_box hb (by omega) (by omega) (by omega) (by omega)) fun _ _ => program _
  | false =>
    have hbox : boxed s x0 y0 x1 y1 = s := by simp [boxed, boxWith, hb]
    rw [hbox]
    exact program s

theorem window_then_dropped (pixels : Op Unit) {s : State} {w h : Word} (hw : s.display.width = some w)
    (hh : s.display.height = some h) {x0 y0 x1 y1 : Int} (hf : ¬ windowFits w h x0 y0 x1 y1 = true) :
    windowThen x0 y0 x1 y1 pixels s = .ok () s := by
  have hset : setWindow x0 y0 x1 y1 s = .ok false s := by
    rw [setWindow, bind_ok (need_some 2 hw), bind_ok (need_some 3 hh), if_neg hf]
    rfl
  rw [windowThen, bind_ok hset]
  rfl

/-- Without a size no window can be tried. -/
theorem window_then_unset (x0 y0 x1 y1 : Int) (pixels : Op Unit) {s : State}
    (h : s.display.width = none ∨ s.display.height = none) :
    ∃ e, windowThen x0 y0 x1 y1 pixels s = .error e s ∧ e.cause ≠ .halError := by
  have hset : ∃ e, setWindow x0 y0 x1 y1 s = .error e s ∧ e.cause ≠ .halError := by
    rcases hw : s.display.width with _ | w
    · exact ⟨_, bind_error (need_none 2 hw) _, by simp⟩
    · have hh := h.resolve_left (by simp [hw])
      exact ⟨_, (bind_ok (need_some 2 hw) _).trans (bind_error (need_none 3 hh) _), by simp⟩
  obtain ⟨e, herr, he⟩ := hset
  exact ⟨e, bind_error herr _, he⟩

/-! ## Each clause -/

section
variable {s t : State}

theorem left_of_play {len : Nat} {es : List Event} {u : State} (hu : u.fault = false)
    (ht : perform len (play es) u = .next t) (hf : t.fault = true) (hcause : t.cause = 11) :
    t = faulted { u with trace := t.trace } 11 t.info :=
  (perform_runs_from (runs_from_play es u) hu ht hf hcause).1

/-- Another fault than `HAL_ERROR` has another cause. -/
theorem other_cause {i : Instr} {u : State} {c : Byte} {v : DWord} (hexec : exec i s = .next (faulted u c v))
    (hc : c ≠ 11) (ht : exec i s = .next t) : t.cause ≠ 11 := by
  rw [hexec] at ht
  cases ht
  exact hc

theorem set_rotation_unset {k : Byte} (hk : s.display.rotation = some k) (hn : s.display.rotationsLen = none) :
    setRotation s = .error ⟨.unsetState, 7⟩ s := by
  rw [setRotation, bind_ok (need_some 6 hk), bind_error (need_none 7 hn)]

/-- The shape of the trace. -/
theorem hal_error_trace {i : Instr} (hs : s.fault = false) (ht : exec i s = .next t) (hf : t.fault = true)
    (hcause : t.cause = 11) : ∃ (es : List Event) (bytes : List Byte),
      t.trace = s.trace ++ es ++ .spiFail bytes :: (if t.display.csPresent = some true then [.pin .cs true] else []) ∧
      bytes ≠ [] ∧ (∀ b, .spiFail b ∉ es) ∧ transferCount (s.trace ++ es) ∈ s.params.halFail ∧
      (transferCount (s.trace ++ es) < 2 ^ 32 → t.info.toNat = transferCount (s.trace ++ es)) := by
  rcases exec_cases ht with ⟨u, es, rfl, hu⟩ | ⟨e, u, es, rfl, he, hu⟩ | ⟨u, es, bytes, rfl, hu⟩
  · rw [completed_fault, hu.rel.control.fault, hs] at hf
    cases hf
  · exact absurd (cause_code_eq_hal_error hcause) he
  · refine ⟨es, bytes, ?_, hu.nonempty, hu.requested.no_fail, hu.failing, fun hlt => ?_⟩
    · rw [← pin_events_cs]
      exact hu.trace
    · rw [enter_fault_info, info_word_of_lt hlt, BitVec.toNat_ofNat, Nat.mod_eq_of_lt hlt]

variable (hs : s.fault = false) (hf : t.fault = true) (hcause : t.cause = 11)
include hs hf hcause

/-- An operation that stores nothing. -/
theorem hal_error_emitting {i : Instr}
    (hi : i.opcode ∈ [Opcode.writeCmd, .fillBuf, .softReset, .sleepMode, .vscrdef, .vscsad])
    (ht : exec i s = .next t) : LeftByHalError s s.display t := by
  obtain ⟨hc, -⟩ := exec_hal_error hs ht hf hcause
  have played : ∀ {len : Nat} {es : List Event}, exec i s = perform len (play es) s →
      LeftByHalError s s.display t := fun hexec => left_of_play hs (hexec.symm.trans ht) hf hcause
  cases i with
  | writeCmd cmd addr len =>
    by_cases hm : addr.toNat + len.toNat ≤ s.params.bmemSize
    · exact played (exec_write_cmd hc cmd hm)
    · exact (other_cause (exec_write_cmd_out_of_range cmd hc (Nat.not_le.1 hm)) (by decide) ht hcause).elim
  | fillBuf => exact played (exec_fill_buf hc _ _)
  | softReset => exact played (exec_soft_reset hc)
  | sleepMode => exact played (exec_sleep_mode hc _)
  | vscrdef => exact played (exec_vscrdef hc _ _ _)
  | vscsad => exact played (exec_vscsad hc _)
  | _ => simp [Instr.opcode] at hi

theorem hal_error_inversion {flag : Bool} (ht : exec (.inversionMode flag) s = .next t) :
    LeftByHalError s { s.display with inversion := some flag } t := by
  obtain ⟨hc, -⟩ := exec_hal_error hs ht hf hcause
  rw [exec_inversion_mode hc] at ht
  exact left_of_play (u := { s with display := { s.display with inversion := some flag } }) hs ht hf hcause

theorem hal_error_madctl {value : Word} (ht : exec (.madctlSet value) s = .next t) :
    LeftByHalError s { s.display with madctl := some value } t := by
  obtain ⟨hc, -⟩ := exec_hal_error hs ht hf hcause
  rw [exec_madctl_set hc] at ht
  rcases play_cases (commandEvents s.display 0x36 [lowByte value])
    { s with display := { s.display with madctl := some value } } with hok | ⟨pre, b, post, -, -, herr⟩
  · rw [perform_ok ((bind_ok hok _).trans (update_results_apply _ _))] at ht
    cases ht
    exact absurd hf (by simp [hs])
  · rw [perform_error (bind_error herr _)] at ht
    cases ht
    rfl

theorem hal_error_rotation {value co : Byte} {table : List RotRec} {rec : RotRec} (htable : s.display.rot = some table)
    (hrec : table[value.toNat % 4]? = some rec) (hco : s.display.colorOrder = some co)
    (ht : exec (.rotation value) s = .next t) :
    LeftByHalError { s with geomValid := true }
      { rotated s.display co rec with rotation := some (BitVec.ofNat 8 (value.toNat % 4)) } t := by
  obtain ⟨hc, -⟩ := exec_hal_error hs ht hf hcause
  cases hn : s.display.rotationsLen with
  | none =>
    have hunset := set_rotation_unset (s := { s with display := withRotation s.display value }) rfl hn
    have hexec : exec (.rotation value) s = .next (faulted { s with display := withRotation s.display value } 3 7) :=
      exec_guarded_faulted (c := .unsetState) rfl hc ((bind_ok (update_display_apply _ s) _).trans hunset) rfl
    exact (other_cause hexec (by decide) ht hcause).elim
  | some n =>
    by_cases hlt : value.toNat % 4 < n.toNat
    · rw [exec_rotation_in_range hc hn htable hco hlt hrec] at ht
      exact left_of_play (u := { s with
        display := rotated (withRotation s.display value) co rec, geomValid := true }) hs ht hf hcause
    · exact (other_cause (exec_rotation_out_of_range hc hn (Nat.not_lt.1 hlt)) (by decide) ht hcause).elim

/-- A window that reaches the HAL has its corners ordered and not negative. -/
theorem hal_error_set_window {x0 y0 x1 y1 : Word} (ht : exec (.setWindow x0 y0 x1 y1) s = .next t) :
    LeftByHalError s (boxWith s.display x0.toNat y0.toNat x1.toNat y1.toNat) t := by
  obtain ⟨hc, -⟩ := exec_hal_error hs ht hf hcause
  by_cases hg : s.geomValid = true
  · have hexec : exec (.setWindow x0 y0 x1 y1) s =
        perform 5 (windowThen x0.toInt y0.toInt x1.toInt y1.toInt (pure ())) s := perform_guarded_geometry hc hg 5 _
    rw [hexec] at ht
    by_cases hsize : s.display.width = none ∨ s.display.height = none
    · obtain ⟨e, herr, he⟩ := window_then_unset x0.toInt y0.toInt x1.toInt y1.toInt (pure ()) hsize
      rw [perform_error herr] at ht
      cases ht
      exact absurd (cause_code_eq_hal_error hcause) he
    · rw [not_or, ← ne_eq, ← ne_eq, Option.ne_none_iff_exists', Option.ne_none_iff_exists'] at hsize
      obtain ⟨⟨w, hw⟩, h, hh⟩ := hsize
      by_cases hfits : windowFits w h x0.toInt y0.toInt x1.toInt y1.toInt = true
      · have hruns := runs_from_window_then (pixels := pure ()) (fun t => runs_from_of_ok rfl) hw hh hfits
        obtain ⟨hleft, -⟩ := perform_runs_from hruns hs ht hf hcause
        simp only [windowFits, decide_eq_true_eq] at hfits
        rw [boxed, to_int_toNat (by omega), to_int_toNat (by omega), to_int_toNat (by omega),
          to_int_toNat (by omega)] at hleft
        exact hleft
      · rw [perform_ok (window_then_dropped _ hw hh hfits)] at ht
        cases ht
        exact absurd hf (by simp [hs])
  · exact absurd hcause (other_cause ((unsetState _ s hc).1 (by simp [Instr.opcode]) (by simpa using hg)) (by decide) ht)

/-! ## Drawing -/

omit hs hf hcause in
/-- Draws change the Display and the trace alone. -/
theorem draw_all_eq (s : State) (gs : List Draw) :
    drawAll s gs = { s with display := (drawAll s gs).display, trace := (drawAll s gs).trace } := by
  induction gs generalizing s with
  | nil => rfl
  | cons g gs ih => exact ih (drawOne s g)

omit hs hf hcause in
theorem draw_all_pin_events (s : State) (gs : List Draw) (p : Pin) (l : Bool) :
    pinEvents (drawAll s gs).display p l = pinEvents s.display p l :=
  draw_all_display (P := fun d => pinEvents d p l = pinEvents s.display p l) (fun d _ _ _ _ h => by simpa using h) rfl gs

omit hs hf hcause in
theorem draw_all_window_events (s : State) (gs : List Draw) (x0 y0 x1 y1 : Nat) :
    windowEvents (drawAll s gs).display x0 y0 x1 y1 = windowEvents s.display x0 y0 x1 y1 :=
  draw_all_display (P := fun d => windowEvents d x0 y0 x1 y1 = windowEvents s.display x0 y0 x1 y1)
    (fun d _ _ _ _ h => by simpa using h) rfl gs

omit hs hf hcause in
theorem draw_all_pixel_events (s : State) (gs : List Draw) (chunks : List (List Byte)) :
    pixelEvents (drawAll s gs).display chunks = pixelEvents s.display chunks :=
  draw_all_display (P := fun d => pixelEvents d chunks = pixelEvents s.display chunks)
    (fun d _ _ _ _ h => by simpa using h) rfl gs

/-- One draw of the list fails, after those before it. -/
theorem hal_error_draws {gs : List Draw} {len : Nat} (ht : perform len (playDraws gs) s = .next t) :
    ∃ (done : List Draw) (g : Draw) (rest : List Draw) (es : List Event) (bytes : List Byte) (later : List Event),
      gs = done ++ g :: rest ∧
      windowEvents s.display g.x0 g.y0 g.x1 g.y1 ++ pixelEvents s.display g.chunks = es ++ .spi bytes :: later ∧
      t.trace = (drawAll s done).trace ++ es ++
        .spiFail bytes :: (if s.display.csPresent = some true then [.pin .cs true] else []) ∧
      LeftByHalError s (boxWith (drawAll s done).display g.x0 g.y0 g.x1 g.y1) t := by
  rcases play_draws_cases gs s with hok | ⟨done, g, rest, rfl, hdraw, e, u, herror⟩
  · have hfault : (drawAll s gs).fault = s.fault := by rw [draw_all_eq]
    rw [perform_ok hok] at ht
    cases ht
    exact absurd hf (by simp [hfault, hs])
  · rcases play_draw_cases g (drawAll s done) with hok | ⟨es, bytes, later, heq, -, herr⟩
    · rw [hok] at herror
      cases herror
    · rw [perform_error (hdraw.trans herr)] at ht
      cases ht
      rw [draw_all_window_events, draw_all_pixel_events] at heq
      refine ⟨done, g, rest, es, bytes, later, rfl, heq, ?_, ?_⟩
      · rw [← pin_events_cs, ← draw_all_pin_events s done]
        exact (List.append_assoc _ _ _).symm
      · unfold LeftByHalError
        rw [draw_all_eq s done]
        rfl

theorem hal_error_drawing {i : Instr} (hd : Drawable s)
    (hi : i.opcode ∈ [Opcode.pixel, .hline, .vline, .rect, .fillRect, .fill, .line, .blit]) (ht : exec i s = .next t) :
    ∃ (done : List Draw) (g : Draw) (rest : List Draw) (es : List Event) (bytes : List Byte) (later : List Event),
      drawsOf s i = done ++ g :: rest ∧
      windowEvents s.display g.x0 g.y0 g.x1 g.y1 ++ pixelEvents s.display g.chunks = es ++ .spi bytes :: later ∧
      t.trace = (drawAll s done).trace ++ es ++
        .spiFail bytes :: (if s.display.csPresent = some true then [.pin .cs true] else []) ∧
      LeftByHalError s (boxWith (drawAll s done).display g.x0 g.y0 g.x1 g.y1) t := by
  by_cases hm : ∀ addr len x y w hh, i = .blit addr len x y w hh → addr.toNat + len.toNat ≤ s.params.bmemSize
  · exact hal_error_draws hs hf hcause ((exec_drawing hd hi hm).symm.trans ht)
  · push Not at hm
    obtain ⟨addr, len, x, y, w, h, rfl, hlt⟩ := hm
    exact absurd hcause (other_cause (exec_blit_out_of_range x y w h hd.1 hd.2.1 hlt) (by decide) ht)

/-! ## `INIT` -/

omit hs hf hcause in
/-- A part of a list up to one of its transfers holds fewer transfers. -/
theorem transfer_count_before {es pre post : List Event} {b : List Byte} (h : es = pre ++ .spi b :: post) :
    transferCount pre < transferCount es := by
  rw [h, transfer_count_append]
  exact Nat.lt_add_of_pos_right (by simp [transferCount, Event.isTransfer])

omit hs hf hcause in
theorem transfer_count_pin_events (d : Display) (p : Pin) (l : Bool) : transferCount (pinEvents d p l) = 0 := by
  unfold pinEvents
  split <;> rfl

omit hs hf hcause in
theorem transfer_count_hard_reset (d : Display) : transferCount (hardResetEvents d) = 0 := by
  simp only [hardResetEvents, transfer_count_append, transfer_count_pin_events]
  rfl

omit hs hf hcause in
/-- A command with data is two transfers. -/
theorem transfer_count_command (d : Display) {cmd : Byte} {data : List Byte} (hc : cmd ≠ 0) (hd : data ≠ []) :
    transferCount (commandEvents d cmd data) = 2 := by
  simp only [commandEvents, if_neg hc, if_neg hd, transfer_count_append, transfer_count_pin_events]
  rfl

omit hs hf hcause in
/-- The number of transfers in the trace of a failed transfer. -/
theorem transfer_count_failed (es : List Event) (b : List Byte) (d : Display) (pre : List Event) :
    transferCount (es ++ (pre ++ .spiFail b :: pinEvents d .cs true)) = transferCount es + transferCount pre + 1 := by
  have hcons : transferCount (.spiFail b :: pinEvents d .cs true) = 1 + transferCount (pinEvents d .cs true) :=
    (List.countP_cons_of_pos rfl).trans (Nat.add_comm _ _)
  rw [transfer_count_append, transfer_count_append, hcons, transfer_count_pin_events]
  omega

omit hs hf hcause in
theorem fill_screen_cases (color : Word) {w h : Word} (hw : s.display.width = some w) (hh : s.display.height = some h) :
    fillScreen color s = .ok () s ∨ RunsFrom (fillScreen color) s
      { s with display := boxWith s.display 0 0 (w.toNat - 1) (h.toNat - 1) } := by
  have hx : ((w.toNat : Int) - 1).toNat = w.toNat - 1 := by omega
  have hy : ((h.toNat : Int) - 1).toNat = h.toNat - 1 := by omega
  have hscreen : fillScreen color s = windowThen 0 0 ((w.toNat : Int) - 1) ((h.toNat : Int) - 1)
      (stream color (w.toNat * h.toNat)) s := by
    rw [fillScreen, bind_ok (need_some 2 hw), bind_ok (need_some 3 hh)]
  by_cases hf : windowFits w h 0 0 ((w.toNat : Int) - 1) ((h.toNat : Int) - 1) = true
  · have hruns := runs_from_window_then (fun t => runs_from_plays (plays_stream t.display color (w.toNat * h.toNat)))
      hw hh hf
    rw [boxed, hx, hy] at hruns
    refine .inr ?_
    unfold RunsFrom
    rw [hscreen]
    exact hruns
  · exact .inl (hscreen.trans (window_then_dropped _ hw hh hf))

omit hs in
/-- After its panel sequence, `INIT` fails in its command, with the record stored, or in the black screen's window, with
the tracked box expanded too. -/
theorem hal_error_init_from_rotation {u : State} {k co : Byte} {table : List RotRec} {rec : RotRec} (hu : u.fault = false)
    (hk : u.display.rotation = some k) (htable : u.display.rot = some table) (hrec : table[k.toNat]? = some rec)
    (hco : u.display.colorOrder = some co) (ht : perform 1 initFromRotation u = .next t) :
    ((transferCount u.trace < transferCount t.trace ∧ transferCount t.trace ≤ transferCount u.trace + 2) ∧
      LeftByHalError { u with geomValid := true } (rotated u.display co rec) t) ∨
    (transferCount u.trace + 2 < transferCount t.trace ∧ LeftByHalError { u with geomValid := true }
      (boxWith (rotated u.display co rec) 0 0 (rec.width.toNat - 1) (rec.height.toNat - 1)) t) := by
  have own : ∀ e, initFromRotation u = .error e u → e.cause = .halError := by
    intro e herr
    rw [perform_error herr] at ht
    cases ht
    exact cause_code_eq_hal_error hcause
  cases hn : u.display.rotationsLen with
  | none => exact absurd (own _ (bind_error (set_rotation_unset hk hn) _)) (by simp)
  | some n =>
    by_cases hlt : k.toNat < n.toNat
    · rw [perform_congr (init_from_rotation_apply hk hn htable hco hlt hrec)] at ht
      have hcount : transferCount (commandEvents u.display 0x36 [lowByte (co.setWidth 16 ||| rec.madctl)] ++
          [.delay 10]) = 2 := by
        rw [transfer_count_append, transfer_count_command u.display (by decide) (by simp)]
        rfl
      generalize commandEvents u.display 0x36 [lowByte (co.setWidth 16 ||| rec.madctl)] ++ [.delay 10] = es
        at ht hcount
      let v : State := { u with display := rotated u.display co rec, geomValid := true }
      rcases play_cases es v with hok | ⟨pre, b, post, heq, -, herr⟩
      · rw [perform_congr (bind_ok hok _)] at ht
        rcases fill_screen_cases (s := v.emitted es) colorBLACK rfl rfl with hdropped | hruns
        · rw [perform_ok ((bind_ok hdropped _).trans (pin_apply _ _ _))] at ht
          cases ht
          exact absurd hf (by simp [v, hu])
        · obtain ⟨hleft, pre, b, post, htrace⟩ := perform_runs_from
            (runs_from_bind hruns fun _ _ => runs_from_plays (plays_pin _ _ _)) hu ht hf hcause
          refine .inr ⟨?_, hleft⟩
          have hpos : 0 < transferCount (.spiFail b :: post) := List.countP_pos_iff.2 ⟨_, List.mem_cons_self, rfl⟩
          have hv : v.trace = u.trace := rfl
          simp only [htrace, emitted_trace, transfer_count_append, hcount, hv]
          omega
      · rw [perform_error (bind_error herr _)] at ht
        cases ht
        have hlt := transfer_count_before heq
        refine .inl ⟨?_, rfl⟩
        have hv : v.trace = u.trace := rfl
        rw [enter_fault_trace, emitted_trace, transfer_count_failed, hv]
        omega
    · exact absurd (own _ (bind_error (set_rotation_range hk hn (Nat.not_lt.1 hlt)) _)) (by simp)

/-- The three stages of `INIT` that make transfers, in order. -/
theorem hal_error_init {k co : Byte} {table : List RotRec} {rec : RotRec} {panel : List Event} {before : Nat}
    (hpanel : panelInitEvents s.display = some panel) (hk : s.display.rotation = some k)
    (htable : s.display.rot = some table) (hrec : table[k.toNat]? = some rec) (hco : s.display.colorOrder = some co)
    (hcount : transferCount t.trace = transferCount s.trace + before + 1) (ht : exec .init s = .next t) :
    if before < transferCount panel then LeftByHalError s s.display t
    else if before < transferCount panel + 2 then
      LeftByHalError { s with geomValid := true } (rotated s.display co rec) t
    else
      LeftByHalError { s with geomValid := true }
        (boxWith (rotated s.display co rec) 0 0 (rec.width.toNat - 1) (rec.height.toNat - 1)) t := by
  obtain ⟨hc, -⟩ := exec_hal_error hs ht hf hcause
  have hexec : exec .init s = perform 1 initBody s := perform_guarded hc 1 _
  have hbody := init_body_apply hpanel
  rw [hexec] at ht
  rcases play_cases (hardResetEvents s.display ++ panel) s with hok | ⟨pre, b, post, heq, -, herr⟩
  · rw [perform_congr (hbody.trans (bind_ok hok _))] at ht
    have hstages := hal_error_init_from_rotation hf hcause (u := s.emitted (hardResetEvents s.display ++ panel)) hs hk
      htable hrec hco ht
    simp only [emitted_trace, transfer_count_append, transfer_count_hard_reset] at hstages
    rcases hstages with ⟨⟨hlt, hle⟩, hleft⟩ | ⟨hlt, hleft⟩
    · rw [if_neg (by omega), if_pos (by omega)]
      exact hleft
    · rw [if_neg (by omega), if_neg (by omega)]
      exact hleft
  · rw [perform_error (hbody.trans (bind_error herr _))] at ht
    cases ht
    have hlt := transfer_count_before heq
    rw [enter_fault_trace, emitted_trace, transfer_count_failed] at hcount
    rw [transfer_count_append, transfer_count_hard_reset] at hlt
    rw [if_pos (by omega)]
    rfl

end

/-- Settles O23. -/
theorem halErrorShape : Obligations.HalErrorShape := by
  intro i s t hs ht hf hcause
  refine ⟨hal_error_trace hs ht hf hcause, fun hi => hal_error_emitting hs hf hcause hi ht, ?_, ?_, ?_, ?_,
    fun hd hi => hal_error_drawing hs hf hcause hd hi ht, ?_⟩
  · rintro flag rfl
    exact hal_error_inversion hs hf hcause ht
  · rintro value rfl
    exact hal_error_madctl hs hf hcause ht
  · rintro value co table rec rfl htable hrec hco
    exact hal_error_rotation hs hf hcause htable hrec hco ht
  · rintro x0 y0 x1 y1 rfl
    exact hal_error_set_window hs hf hcause ht
  · rintro k co table rec panel before rfl hpanel hk htable hrec hco hcount
    exact hal_error_init hs hf hcause hpanel hk htable hrec hco hcount ht

end Sys2Proof.Proofs

/-! PROOFS. What the reference observer holds after windows and their pixels: a filled window deposits its rectangle, row by
row, and a list of draws deposits the union of theirs (20_memory.md R82, R83). -/

namespace Sys2Proof.Proofs

open Sys2Proof.Machine Sys2Proof.Safety Sys2Proof.Laws

/-! ## The raster scan of one window -/

/-- The place of pixel `i` in a window `width` pixels wide that begins at `(x, y)`. -/
def rasterPlace (x y width i : Nat) : Nat × Nat := (x + i % width, y + i / width)

theorem raster_place_at (x y : Nat) {width column : Nat} (row : Nat) (h : column < width) :
    rasterPlace x y width (width * row + column) = (x + column, y + row) := by
  have hw : 0 < width := Nat.zero_lt_of_lt h
  rw [rasterPlace, Nat.mul_add_mod, Nat.mod_eq_of_lt h, Nat.mul_add_div hw, Nat.div_eq_of_lt h, Nat.add_zero]

/-- The deposits of the first `m` pixels of a window, newest first. -/
def rasterDeposits (x y width : Nat) (color : Word) (m : Nat) : List ((Nat × Nat) × Word) :=
  (List.range m).reverse.map fun i => (rasterPlace x y width i, color)

theorem raster_deposits_succ (x y width : Nat) (color : Word) (m : Nat) :
    rasterDeposits x y width color (m + 1) = (rasterPlace x y width m, color) :: rasterDeposits x y width color m := by
  simp [rasterDeposits, List.range_succ]

/-- The observer at its window, with the pointer at pixel `m` of it. -/
structure Scanning (x y width height m : Nat) (o : Observer) : Prop where
  xs : o.xs = x
  xe : o.xe + 1 = x + width
  ys : o.ys = y
  ye : o.ye + 1 = y + height
  pointer : (o.cx, o.cy) = rasterPlace x y width m

/-- The pointer moves along the row, and at its end to the start of the next. -/
theorem scanning_put_pixel {x y width height m : Nat} {o : Observer} (h : Scanning x y width height m o)
    (hm : m + 1 < width * height) (color : Word) : Scanning x y width height (m + 1) (putPixel color o) := by
  obtain ⟨hxs, hxe, hys, hye, hpointer⟩ := h
  obtain ⟨fxs, fxe, fys, fye, -⟩ := put_pixel_frame color o
  refine ⟨fxs.trans hxs, by rw [fxe, hxe], fys.trans hys, by rw [fye, hye], ?_⟩
  have hw : 0 < width := Nat.pos_of_ne_zero fun hz => by rw [hz, Nat.zero_mul] at hm; omega
  have hlt := Nat.mod_lt m hw
  have hdiv := Nat.div_add_mod m width
  generalize m / width = row at hdiv
  generalize m % width = column at hlt hdiv
  subst hdiv
  rw [raster_place_at x y row hlt, Prod.mk.injEq] at hpointer
  obtain ⟨hcx, hcy⟩ := hpointer
  by_cases hend : column + 1 < width
  · rw [Nat.add_assoc, raster_place_at x y row hend]
    have hstay : ¬ x + column + 1 > o.xe := by omega
    simp only [putPixel, Observer.advance, hcx, hcy, if_neg hstay]
    rfl
  · have hnext : width * row + column + 1 = width * (row + 1) + 0 := by
      rw [Nat.mul_succ]
      omega
    rw [hnext] at hm ⊢
    have hrow : row + 1 < height := Nat.lt_of_mul_lt_mul_left hm
    rw [raster_place_at x y (row + 1) hw]
    have hwrap : x + column + 1 > o.xe := by omega
    have hstay : ¬ y + row + 1 > o.ye := by omega
    simp only [putPixel, Observer.advance, hcx, hcy, if_pos hwrap, if_neg hstay, hxs]
    rfl

/-- The first pixels of a window, up to all of them, are deposited one after another. -/
theorem raster_scan {x y width height : Nat} {o : Observer} (h : Scanning x y width height 0 o) (color : Word) {m : Nat}
    (hm : m ≤ width * height) :
    ((putPixel color)^[m] o).fb = rasterDeposits x y width color m ++ o.fb ∧
      (m < width * height → Scanning x y width height m ((putPixel color)^[m] o)) := by
  induction m with
  | zero => exact ⟨rfl, fun _ => h⟩
  | succ m ih =>
    obtain ⟨hfb, hscan⟩ := ih (Nat.le_of_succ_le hm)
    have hnow := hscan hm
    obtain ⟨-, -, -, -, -, -, hput⟩ := put_pixel_frame color ((putPixel color)^[m] o)
    rw [Function.iterate_succ_apply']
    refine ⟨?_, fun hlt => scanning_put_pixel hnow hlt color⟩
    rw [hput, hnow.pointer, hfb, raster_deposits_succ]
    rfl

/-- The places of a whole window are its rectangle. -/
theorem raster_places {x y width height : Nat} (column row : Nat) :
    (∃ i < width * height, rasterPlace x y width i = (column, row)) ↔
      (x ≤ column ∧ column < x + width) ∧ y ≤ row ∧ row < y + height := by
  constructor
  · rintro ⟨i, hi, hplace⟩
    have hw : 0 < width := Nat.pos_of_ne_zero fun hz => by rw [hz, Nat.zero_mul] at hi; omega
    have hlt := Nat.mod_lt i hw
    have hrow : i / width < height := Nat.div_lt_of_lt_mul hi
    simp only [rasterPlace, Prod.mk.injEq] at hplace
    generalize i / width = r at hplace hrow
    generalize i % width = c at hplace hlt
    omega
  · rintro ⟨⟨hx, hx'⟩, hy, hy'⟩
    refine ⟨width * (row - y) + (column - x), ?_, ?_⟩
    · calc width * (row - y) + (column - x)
        _ < width * (row - y) + width := by omega
        _ = width * (row - y + 1) := (Nat.mul_succ _ _).symm
        _ ≤ width * height := Nat.mul_le_mul_left _ (by omega)
    · rw [raster_place_at x y (row - y) (by omega), Prod.mk.injEq]
      omega

/-! ## Deposits in one colour -/

/-- The list deposits exactly the places of the set, all in one colour. -/
structure DepositsExactly (ds : List ((Nat × Nat) × Word)) (color : Word) (set : Nat → Nat → Prop) : Prop where
  color : ∀ e ∈ ds, e.2 = color
  places : ∀ column row, (∃ e ∈ ds, e.1 = (column, row)) ↔ set column row

theorem deposits_exactly_nil (color : Word) : DepositsExactly [] color fun _ _ => False :=
  ⟨by simp, by simp⟩

theorem deposits_exactly_append {ds es : List ((Nat × Nat) × Word)} {color : Word} {p q : Nat → Nat → Prop}
    (h1 : DepositsExactly ds color p) (h2 : DepositsExactly es color q) :
    DepositsExactly (ds ++ es) color fun column row => p column row ∨ q column row where
  color e he := (List.mem_append.1 he).elim (h1.color e) (h2.color e)
  places column row := by
    rw [← h1.places, ← h2.places]
    simp only [List.mem_append, or_and_right, exists_or]

theorem deposits_exactly_raster (x y width height : Nat) (color : Word) :
    DepositsExactly (rasterDeposits x y width color (width * height)) color fun column row =>
      (x ≤ column ∧ column < x + width) ∧ y ≤ row ∧ row < y + height where
  color e he := by
    obtain ⟨i, -, rfl⟩ := List.mem_map.1 he
    rfl
  places column row := by
    rw [← raster_places]
    simp [rasterDeposits]

/-- A lookup finds the colour at the places deposited, and elsewhere what stood before. -/
theorem lookup_deposits {ds : List ((Nat × Nat) × Word)} {color : Word} {set : Nat → Nat → Prop}
    (h : DepositsExactly ds color set) (fb : List ((Nat × Nat) × Word)) (column row : Nat) :
    (set column row → (ds ++ fb).lookup (column, row) = some color) ∧
      (¬ set column row → (ds ++ fb).lookup (column, row) = fb.lookup (column, row)) := by
  rw [← h.places]
  obtain ⟨hcolor, -⟩ := h
  clear set
  induction ds with
  | nil => simp
  | cons d ds ih =>
    obtain ⟨place, value⟩ := d
    obtain ⟨hin, hout⟩ := ih fun e he => hcolor e (List.mem_cons_of_mem _ he)
    have hvalue : value = color := hcolor _ List.mem_cons_self
    by_cases hplace : place = (column, row)
    · subst hplace
      simp [hvalue]
    · have hskip : ((place, value) :: ds ++ fb).lookup (column, row) = (ds ++ fb).lookup (column, row) := by
        rw [List.cons_append, List.lookup_cons, beq_eq_false_iff_ne.2 (Ne.symm hplace)]
      rw [hskip]
      simpa [hplace] using And.intro hin hout

/-! ## Windows with their pixels -/

/-- The draw fills its window with pixels of one colour. -/
structure Fills (color : Word) (g : Draw) : Prop where
  columns : g.x0 ≤ g.x1
  rows : g.y0 ≤ g.y1
  pixels : g.chunks.flatten = repeatPixel color ((g.x1 - g.x0 + 1) * (g.y1 - g.y0 + 1))

/-- The events of one draw. -/
def drawEvents (d : Display) (g : Draw) : List Event :=
  windowEvents d g.x0 g.y0 g.x1 g.y1 ++ pixelEvents d g.chunks

/-- The panel place lies in the draw's window, shifted by the offsets. -/
def InWindow (c r : Word) (g : Draw) (column row : Nat) : Prop :=
  g.x0 + c.toNat ≤ column ∧ column ≤ g.x1 + c.toNat ∧ g.y0 + r.toNat ≤ row ∧ row ≤ g.y1 + r.toNat

section
variable {d : Display} {c r color : Word} (hc : d.colstart = some c) (hr : d.rowstart = some r)
  (delivered : Nat → Nat)
include hc hr

/-- A filled window deposits its rectangle. -/
theorem observer_draw {g : Draw} (hg : Fills color g) (hx : g.x1 + c.toNat < 65536) (hy : g.y1 + r.toNat < 65536)
    (dc : Option Bool) (k : Nat) (o : Observer) :
    ∃ ds, (o.run (wireFrom delivered dc k (drawEvents d g))).fb = ds ++ o.fb ∧
      DepositsExactly ds color (InWindow c r g) := by
  obtain ⟨hcolumns, hrows, hpixels⟩ := hg
  have hwire := carries_append (carries_window hc hr g.x0 g.y0 g.x1 g.y1) (carries_pixels d g.chunks) delivered dc k
  rw [drawEvents, hwire, observer_run_append, hpixels,
    observer_window o (by omega) (by omega) (by omega) (by omega), observer_pixels _ _ _ rfl rfl]
  have hscan : Scanning (g.x0 + c.toNat) (g.y0 + r.toNat) (g.x1 - g.x0 + 1) (g.y1 - g.y0 + 1) 0
      ⟨g.x0 + c.toNat, g.x1 + c.toNat, g.y0 + r.toNat, g.y1 + r.toNat, g.x0 + c.toNat, g.y0 + r.toNat,
        some cmdRAMWR, [], o.fb⟩ := by
    refine ⟨rfl, ?_, rfl, ?_, ?_⟩
    · change g.x1 + c.toNat + 1 = _
      omega
    · change g.y1 + r.toNat + 1 = _
      omega
    · simp [rasterPlace]
  refine ⟨_, (raster_scan hscan color le_rfl).1, ?_⟩
  have hdeposits := deposits_exactly_raster (g.x0 + c.toNat) (g.y0 + r.toNat) (g.x1 - g.x0 + 1) (g.y1 - g.y0 + 1) color
  refine ⟨hdeposits.color, fun column row => (hdeposits.places column row).trans ?_⟩
  unfold InWindow
  omega

/-- A list of draws deposits the union of their rectangles. -/
theorem observer_draws {gs : List Draw} (hgs : ∀ g ∈ gs, Fills color g)
    (hfits : ∀ g ∈ gs, g.x1 + c.toNat < 65536 ∧ g.y1 + r.toNat < 65536) (dc : Option Bool) (k : Nat) (o : Observer) :
    ∃ ds, (o.run (wireFrom delivered dc k (gs.flatMap (drawEvents d)))).fb = ds ++ o.fb ∧
      DepositsExactly ds color fun column row => ∃ g ∈ gs, InWindow c r g column row := by
  induction gs generalizing dc k o with
  | nil => exact ⟨[], rfl, by simpa using deposits_exactly_nil color⟩
  | cons g gs ih =>
    obtain ⟨hx, hy⟩ := hfits g List.mem_cons_self
    obtain ⟨ds, hfb, hds⟩ := observer_draw hc hr delivered (hgs g List.mem_cons_self) hx hy dc k o
    obtain ⟨es, hfb', hes⟩ := ih (fun g hg => hgs g (List.mem_cons_of_mem _ hg))
      (fun g hg => hfits g (List.mem_cons_of_mem _ hg)) (levelAfter dc (drawEvents d g))
      (k + transferCount (drawEvents d g)) (o.run (wireFrom delivered dc k (drawEvents d g)))
    refine ⟨es ++ ds, ?_, ?_⟩
    · rw [List.flatMap_cons, wire_from_append, observer_run_append, hfb', hfb, List.append_assoc]
    · have hboth := deposits_exactly_append hes hds
      refine ⟨hboth.color, fun column row => (hboth.places column row).trans ?_⟩
      rw [List.exists_mem_cons_iff, or_comm]

/-- What a window with its fill leaves at every place of the panel. -/
theorem observer_window_fill {x0 y0 x1 y1 : Nat} (hx : x0 ≤ x1) (hy : y0 ≤ y1) (hx1 : x1 + c.toNat < 65536)
    (hy1 : y1 + r.toNat < 65536) (dc : Option Bool) (k : Nat) (o : Observer) (column row : Nat) :
    (o.run (wireFrom delivered dc k
        (windowEvents d x0 y0 x1 y1 ++ pixelEvents d (fillChunks color ((x1 - x0 + 1) * (y1 - y0 + 1)))))).pixelAt
          column row =
      if x0 + c.toNat ≤ column ∧ column ≤ x1 + c.toNat ∧ y0 + r.toNat ≤ row ∧ row ≤ y1 + r.toNat then some color
      else o.pixelAt column row := by
  have hfills : Fills color ⟨x0, y0, x1, y1, fillChunks color ((x1 - x0 + 1) * (y1 - y0 + 1))⟩ :=
    ⟨hx, hy, fill_chunks_flatten color _⟩
  obtain ⟨ds, hfb, hds⟩ := observer_draw hc hr delivered hfills hx1 hy1 dc k o
  obtain ⟨hin, hout⟩ := lookup_deposits hds o.fb column row
  unfold Observer.pixelAt
  refine (congrArg (List.lookup (column, row)) hfb).trans ?_
  split
  · exact hin ‹_›
  · exact hout ‹_›

end

end Sys2Proof.Proofs

/-! PROOFS. The lit set of each drawing operation: the wrapped points of a line, outline or pixel that lie in the active
area, a filled rectangle wholly inside it, the whole area (20_memory.md R83; 41_primitives.md R149; 42_line.md R163). -/

namespace Sys2Proof.Proofs

open Sys2Proof.Machine Sys2Proof.Safety Sys2Proof.Laws

/-! ## The lit set of a list of draws -/

/-- The logical pixel lies in the window of one of the draws. -/
def Covered (gs : List Draw) (x y : Int) : Prop :=
  ∃ g ∈ gs, (g.x0 : Int) ≤ x ∧ x ≤ g.x1 ∧ (g.y0 : Int) ≤ y ∧ y ≤ g.y1

/-- Each draw fills its window in the colour, and the windows cover exactly the set. -/
structure Paints (color : Word) (gs : List Draw) (set : Int → Int → Prop) : Prop where
  fills : ∀ g ∈ gs, Fills color g
  covers : ∀ x y, Covered gs x y ↔ set x y

theorem draw_events_box_with (d : Display) (x0 y0 x1 y1 : Nat) (g : Draw) :
    drawEvents (boxWith d x0 y0 x1 y1) g = drawEvents d g := by
  simp [drawEvents]

theorem draw_all_trace (s : State) (gs : List Draw) :
    (drawAll s gs).trace = s.trace ++ gs.flatMap (drawEvents s.display) := by
  induction gs generalizing s with
  | nil => simp [drawAll]
  | cons g gs ih =>
    have hcons : drawAll s (g :: gs) = drawAll (drawOne s g) gs := rfl
    have hevents : drawEvents (drawOne s g).display = drawEvents s.display :=
      funext fun a => draw_events_box_with s.display g.x0 g.y0 g.x1 g.y1 a
    rw [hcons, ih, hevents, draw_one_trace, List.flatMap_cons, drawEvents]
    simp only [List.append_assoc]

section
variable {s : State} {w h c r color : Word} (hw : s.display.width = some w) (hh : s.display.height = some h)
  (hc : s.display.colstart = some c) (hr : s.display.rowstart = some r) (hcw : c.toNat + w.toNat ≤ 65536)
  (hrh : r.toNat + h.toNat ≤ 65536)
include hw hh hc hr hcw hrh

theorem deposits_between_draws {gs : List Draw} (hin : DrawsInside s.display gs) (hgs : ∀ g ∈ gs, Fills color g)
    (o : Observer) (delivered : Nat → Nat) (len : Nat) :
    DepositsExactly (depositsBetween o delivered s (completed (drawAll s gs) len)) color fun column row =>
      ∃ g ∈ gs, InWindow c r g column row := by
  have hfits : ∀ g ∈ gs, g.x1 + c.toNat < 65536 ∧ g.y1 + r.toNat < 65536 := by
    intro g hg
    obtain ⟨-, hx, -, hy⟩ := hin g hg w hw h hh
    omega
  have htrace : (completed (drawAll s gs) len).trace = s.trace ++ gs.flatMap (drawEvents s.display) :=
    draw_all_trace s gs
  obtain ⟨ds, hfb, hds⟩ := observer_draws hc hr delivered hgs hfits (levelAfter none s.trace)
    (0 + transferCount s.trace) { o.run (wire delivered s.trace) with fb := [] }
  rw [depositsBetween, wire_between_eq delivered htrace, Observer.deposits, hfb]
  simpa using hds

/-- An operation that draws a list of filled windows lights what they cover, in their colour. -/
theorem lights_exactly_of_draws {i : Instr} {set : Int → Int → Prop}
    (hexec : exec i s = .next (completed (drawAll s (drawsOf s i)) i.words)) (hin : DrawsInside s.display (drawsOf s i))
    (hpaints : Paints color (drawsOf s i) set) (o : Observer) (delivered : Nat → Nat) :
    LightsExactly o delivered i s color set := by
  intro x y
  have hdeposits := deposits_between_draws hw hh hc hr hcw hrh hin hpaints.fills o delivered i.words
  have hlit : operationLit o delivered i s x y = if 0 ≤ x + c.toNat ∧ 0 ≤ y + r.toNat then
      (depositsBetween o delivered s (completed (drawAll s (drawsOf s i)) i.words)).lookup
        ((x + c.toNat).toNat, (y + r.toNat).toNat) else none := by
    simp only [operationLit, hexec, litBetween, hc, hr]
  have hcovers := hpaints.covers x y
  rw [hlit, ← hcovers]
  by_cases hpos : 0 ≤ x + c.toNat ∧ 0 ≤ y + r.toNat
  · have hplace : (∃ g ∈ drawsOf s i, InWindow c r g (x + c.toNat).toNat (y + r.toNat).toNat) ↔
        Covered (drawsOf s i) x y := by
      refine exists_congr fun g => and_congr_right fun _ => ?_
      unfold InWindow
      omega
    rw [if_pos hpos, ← hplace]
    simpa using lookup_deposits hdeposits [] (x + c.toNat).toNat (y + r.toNat).toNat
  · rw [if_neg hpos]
    refine ⟨fun ⟨g, _, hg⟩ => absurd ?_ hpos, fun _ => rfl⟩
    omega

end

/-! ## Sets painted by lists of draws -/

section
variable {color : Word}

theorem paints_congr {gs : List Draw} {p q : Int → Int → Prop} (h : Paints color gs p) (hpq : ∀ x y, p x y ↔ q x y) :
    Paints color gs q :=
  ⟨h.fills, fun x y => (h.covers x y).trans (hpq x y)⟩

theorem paints_append {gs hs : List Draw} {p q : Int → Int → Prop} (h1 : Paints color gs p) (h2 : Paints color hs q) :
    Paints color (gs ++ hs) fun x y => p x y ∨ q x y where
  fills g hg := (List.mem_append.1 hg).elim (h1.fills g) (h2.fills g)
  covers x y := by
    rw [← h1.covers, ← h2.covers]
    simp only [Covered, List.mem_append, or_and_right, exists_or]

theorem paints_flat_map {α : Type} {l : List α} {f : α → List Draw} {p : α → Int → Int → Prop}
    (h : ∀ a ∈ l, Paints color (f a) (p a)) : Paints color (l.flatMap f) fun x y => ∃ a ∈ l, p a x y where
  fills g hg := by
    obtain ⟨a, ha, hga⟩ := List.mem_flatMap.1 hg
    exact (h a ha).fills g hga
  covers x y := by
    constructor
    · rintro ⟨g, hg, hin⟩
      obtain ⟨a, ha, hga⟩ := List.mem_flatMap.1 hg
      exact ⟨a, ha, ((h a ha).covers x y).1 ⟨g, hga, hin⟩⟩
    · rintro ⟨a, ha, hp⟩
      obtain ⟨g, hga, hin⟩ := ((h a ha).covers x y).2 hp
      exact ⟨g, List.mem_flatMap.2 ⟨a, ha, hga⟩, hin⟩

/-- One draw under a condition. -/
theorem paints_ite {p : Prop} [Decidable p] {g : Draw} (hg : p → Fills color g) :
    Paints color (if p then [g] else [])
      fun x y => p ∧ (g.x0 : Int) ≤ x ∧ x ≤ g.x1 ∧ (g.y0 : Int) ≤ y ∧ y ≤ g.y1 := by
  split
  · rename_i hp
    exact ⟨by simpa using hg hp, by simp [Covered, hp]⟩
  · rename_i hp
    exact ⟨by simp, by simp [Covered, hp]⟩

/-- A window of one column or row, or more, filled by a count of pixels. -/
theorem fills_chunks {x0 y0 x1 y1 n : Nat} (hx : x0 ≤ x1) (hy : y0 ≤ y1) (hn : n = (x1 - x0 + 1) * (y1 - y0 + 1)) :
    Fills color ⟨x0, y0, x1, y1, fillChunks color n⟩ :=
  ⟨hx, hy, by rw [← hn]; exact fill_chunks_flatten color n⟩

end

/-! ## Points clipped and wrapped one by one -/

/-- The pixel lies in the active area and is the wrapped image of one of the points. -/
def Shows (options : Byte) (w h : Word) (points : List (Int × Int)) (x y : Int) : Prop :=
  InArea w h x y ∧ ∃ p ∈ points, wrapPoint options w h p = (x, y)

section
variable {d : Display} {options : Byte} {w h : Word} (ho : d.options = some options) (hw : d.width = some w)
  (hh : d.height = some h) (color : Word)

theorem shows_append (options : Byte) (w h : Word) (ps qs : List (Int × Int)) (x y : Int) :
    Shows options w h (ps ++ qs) x y ↔ Shows options w h ps x y ∨ Shows options w h qs x y := by
  simp only [Shows, List.mem_append, or_and_right, exists_or, and_or_left]

theorem shows_flat_map {α : Type} (options : Byte) (w h : Word) (l : List α) (f : α → List (Int × Int)) (x y : Int) :
    Shows options w h (l.flatMap f) x y ↔ ∃ a ∈ l, Shows options w h (f a) x y := by
  simp only [Shows, List.mem_flatMap]
  tauto

theorem shows_single (options : Byte) (w h : Word) (px py x y : Int) :
    Shows options w h [(px, py)] x y ↔ InArea w h x y ∧
      (if options.getLsbD 0 then px % (w.toNat : Int) else px) = x ∧
      (if options.getLsbD 1 then py % (h.toNat : Int) else py) = y := by
  simp [Shows, wrapPoint]

/-- Without a wrap flag the points are clipped alone. -/
theorem shows_no_wrap {options : Byte} (hwrap : ¬ wrapsAny options = true) (w h : Word) (ps : List (Int × Int))
    (x y : Int) : Shows options w h ps x y ↔ InArea w h x y ∧ (x, y) ∈ ps := by
  simp only [wrapsAny, Bool.or_eq_true, not_or, Bool.not_eq_true] at hwrap
  simp only [Shows, wrapPoint, hwrap.1, hwrap.2, Bool.false_eq_true, if_false, Prod.mk.eta, exists_eq_right]

theorem mem_hline_points (x y len u v : Int) : (u, v) ∈ hlinePoints x y len ↔ (x ≤ u ∧ u < x + len) ∧ v = y := by
  simp only [hlinePoints, List.mem_map, List.mem_range, Prod.mk.injEq]
  constructor
  · rintro ⟨i, hi, rfl, rfl⟩
    omega
  · rintro ⟨hu, rfl⟩
    exact ⟨(u - x).toNat, by omega, by omega, rfl⟩

theorem mem_vline_points (x y len u v : Int) : (u, v) ∈ vlinePoints x y len ↔ u = x ∧ y ≤ v ∧ v < y + len := by
  simp only [vlinePoints, List.mem_map, List.mem_range, Prod.mk.injEq]
  constructor
  · rintro ⟨i, hi, rfl, rfl⟩
    omega
  · rintro ⟨rfl, hv⟩
    exact ⟨(v - y).toNat, by omega, rfl, by omega⟩

include ho hw hh

theorem paints_pixel (x y : Int) : Paints color (pixelDraws d x y color) (Shows options w h [(x, y)]) := by
  simp only [pixelDraws, ho, hw, hh]
  refine paints_congr (paints_ite fun hin => ?_) fun u v => ?_
  · refine ⟨le_rfl, le_rfl, ?_⟩
    simp [repeatPixel]
  · rw [shows_single]
    simp only [InArea]
    omega

/-- A horizontal line, in one window or pixel by pixel. -/
theorem paints_hline (x y len : Int) :
    Paints color (hlineDraws d x y len color) (Shows options w h (hlinePoints x y len)) := by
  simp only [hlineDraws, ho, hw, hh]
  by_cases hwrap : wrapsAny options = true
  · rw [if_pos hwrap]
    refine paints_congr (paints_flat_map fun i _ => paints_pixel ho hw hh color _ _) fun u v => ?_
    rw [hlinePoints, ← List.flatMap_pure_eq_map, shows_flat_map]
    rfl
  · rw [if_neg hwrap]
    refine paints_congr (paints_ite fun hin => fills_chunks (by omega) le_rfl ?_) fun u v => ?_
    · rw [Nat.sub_self, Nat.mul_one]
      omega
    · rw [shows_no_wrap hwrap, mem_hline_points]
      simp only [InArea]
      omega

/-- A vertical line, in one window or pixel by pixel. -/
theorem paints_vline (x y len : Int) :
    Paints color (vlineDraws d x y len color) (Shows options w h (vlinePoints x y len)) := by
  simp only [vlineDraws, ho, hw, hh]
  by_cases hwrap : wrapsAny options = true
  · rw [if_pos hwrap]
    refine paints_congr (paints_flat_map fun i _ => paints_pixel ho hw hh color _ _) fun u v => ?_
    rw [vlinePoints, ← List.flatMap_pure_eq_map, shows_flat_map]
    rfl
  · rw [if_neg hwrap]
    refine paints_congr (paints_ite fun hin => fills_chunks le_rfl (by omega) ?_) fun u v => ?_
    · rw [Nat.sub_self, Nat.zero_add, Nat.one_mul]
      omega
    · rw [shows_no_wrap hwrap, mem_vline_points]
      simp only [InArea]
      omega

/-- The four edges of an outline. -/
theorem paints_rect (x y rw rh : Int) : Paints color (rectDraws d x y rw rh color) (Shows options w h
    (hlinePoints x y rw ++ vlinePoints x y rh ++ hlinePoints x (y + rh - 1) rw ++ vlinePoints (x + rw - 1) y rh)) := by
  have hedges := paints_append (paints_append (paints_append (paints_hline ho hw hh color x y rw)
    (paints_vline ho hw hh color x y rh)) (paints_hline ho hw hh color x (y + rh - 1) rw))
    (paints_vline ho hw hh color (x + rw - 1) y rh)
  refine paints_congr hedges fun u v => ?_
  simp only [shows_append]

/-- One run of a line, in its frame or with its axes exchanged. -/
theorem paints_run (steep : Bool) (r : Run) : Paints color (runDraws d steep color r)
    (Shows options w h ((runPoints r).map fun p => if steep then p.swap else p)) := by
  unfold runDraws
  cases steep with
  | true =>
    have hpoints : ((runPoints r).map fun p => if true = true then p.swap else p) = vlinePoints r.y r.xs r.dlen := by
      simp [runPoints, vlinePoints]
    rw [hpoints]
    exact paints_vline ho hw hh color _ _ _
  | false =>
    have hpoints : ((runPoints r).map fun p => if false = true then p.swap else p) = hlinePoints r.xs r.y r.dlen := by
      simp [runPoints, hlinePoints]
    rw [hpoints]
    exact paints_hline ho hw hh color _ _ _

/-- The runs of an oriented line are its ideal points. -/
theorem paints_line (x0 y0 x1 y1 : Int) :
    Paints color ((orientLine x0 y0 x1 y1).runs.flatMap (runDraws d (orientLine x0 y0 x1 y1).steep color))
      (Shows options w h (linePoints (orientLine x0 y0 x1 y1))) := by
  have hpoints := line_runs_points (orient_line_dx_nonneg x0 y0 x1 y1) (orient_line_dy_le_dx x0 y0 x1 y1)
  generalize orientLine x0 y0 x1 y1 = l at hpoints
  refine paints_congr (paints_flat_map fun r _ => paints_run ho hw hh color l.steep r) fun u v => ?_
  have hline : linePoints l = l.runs.flatMap fun r => (runPoints r).map fun p => if l.steep then p.swap else p := by
    rw [← List.map_flatMap, hpoints, linePoints, List.map_map]
    rfl
  rw [hline, shows_flat_map]

omit ho in
/-- A rectangle that lies wholly in the active area. -/
theorem paints_fill_rect (x0 y0 rw rh : Int) : Paints color (fillRectDraws d x0 y0 rw rh color) fun x y =>
    (∀ u v : Int, x0 ≤ u ∧ u < x0 + rw ∧ y0 ≤ v ∧ v < y0 + rh → InArea w h u v) ∧
      x0 ≤ x ∧ x < x0 + rw ∧ y0 ≤ y ∧ y < y0 + rh := by
  simp only [fillRectDraws, hw, hh]
  refine paints_congr (paints_ite fun hin => fills_chunks (by omega) (by omega) ?_) fun x y => ?_
  · rw [Int.toNat_mul (by omega) (by omega)]
    congr 1
    · omega
    · omega
  · dsimp only
    constructor
    · rintro ⟨hin, hx⟩
      refine ⟨fun u v huv => ?_, by omega⟩
      simp only [InArea]
      omega
    · rintro ⟨harea, hx⟩
      have hfirst := harea x0 y0 (by omega)
      have hlast := harea (x0 + rw - 1) (y0 + rh - 1) (by omega)
      simp only [InArea] at hfirst hlast
      omega

omit ho in
/-- The whole active area. -/
theorem paints_fill (hwpos : w ≠ 0) (hhpos : h ≠ 0) : Paints color (fillDraws d color) (InArea w h) := by
  have hw1 := word_toNat_pos hwpos
  have hh1 := word_toNat_pos hhpos
  simp only [fillDraws, hw, hh]
  refine ⟨fun g hg => ?_, fun x y => ?_⟩
  · rw [List.mem_singleton.1 hg]
    refine fills_chunks (Nat.zero_le _) (Nat.zero_le _) ?_
    rw [Nat.sub_zero, Nat.sub_zero, Nat.sub_add_cancel hw1, Nat.sub_add_cancel hh1]
  · simp only [Covered, List.mem_singleton, exists_eq_left, InArea]
    omega

end

/-- Every operation that clips and wraps its points one by one paints them. -/
theorem paints_drawn_points {s : State} {options : Byte} {w h color : Word} (ho : s.display.options = some options)
    (hw : s.display.width = some w) (hh : s.display.height = some h) {i : Instr} {points : List (Int × Int)}
    (hi : drawnPoints i = some (color, points)) : Paints color (drawsOf s i) (Shows options w h points) := by
  cases i with
  | pixel => cases hi; exact paints_pixel ho hw hh _ _ _
  | hline => cases hi; exact paints_hline ho hw hh _ _ _ _
  | vline => cases hi; exact paints_vline ho hw hh _ _ _ _
  | rect => cases hi; exact paints_rect ho hw hh _ _ _ _ _
  | line => cases hi; exact paints_line ho hw hh _ _ _ _ _
  | _ => cases hi

/-- Settles O60: each draw is a window filled in the colour, and the draws of an operation cover its set. -/
theorem windowLightsRectangle : Obligations.WindowLightsRectangle := by
  refine ⟨fun o d c r color x0 y0 x1 y1 k dc delivered hc hr hx hy hx1 hy1 column row =>
    observer_window_fill hc hr delivered hx hy hx1 hy1 dc k o column row, ?_⟩
  intro o delivered s w h c r options hd hq hw hh hc hr ho hcw hrh
  obtain ⟨-, -, -, hwne, hhne⟩ := draw_ready_of_drawable hd
  have lights : ∀ {i : Instr} {color : Word} {set : Int → Int → Prop},
      i.opcode ∈ [Opcode.pixel, .hline, .vline, .rect, .fillRect, .fill, .line] → Paints color (drawsOf s i) set →
        LightsExactly o delivered i s color set := by
    intro i color set hi hpaints
    have hexec := exec_drawing_quiet hd hq (i := i) (List.mem_of_mem_take (i := 7) hi) (by
      rintro addr len x y w h rfl
      simp [Instr.opcode] at hi)
    exact lights_exactly_of_draws hw hh hc hr hcw hrh hexec (draws_of_inside hwne hhne i) hpaints o delivered
  refine ⟨fun i color points hi => lights ?_ (paints_drawn_points ho hw hh hi),
    fun x0 y0 rw rh color => lights (by simp [Instr.opcode]) (paints_fill_rect hw hh color _ _ _ _),
    fun color => lights (by simp [Instr.opcode]) (paints_fill hw hh color ?_ ?_)⟩
  · cases i with
    | pixel | hline | vline | rect | line => simp [Instr.opcode]
    | _ => cases hi
  · exact fun hz => hwne (by rw [hw, hz])
  · exact fun hz => hhne (by rw [hh, hz])

end Sys2Proof.Proofs
